-- ==== Sys2Proof/Word.lean ====
section
/-! DEFINITION. The two word types of the block: a Byte is 8 bits, a Word 16 bits (spec/00_scope.md rule R9).
Bits are numbered from 0, the least significant. -/

namespace Sys2Proof

/-- A Byte is 8 bits (R9). -/
abbrev Byte := BitVec 8

/-- A Word is 16 bits (R9). Addresses, X, Y, U, S and PC are Words (R20, R60). -/
abbrev Word := BitVec 16

end Sys2Proof
end

