-- ==== Sys2Proof/Config.lean ====
section
/-! DEFINITION. What an implementation fixes and what the spec leaves open: the named parameters of spec/00_scope.md rule R6,
the vectors of spec/20_memory.md rule R82, the vocabulary of the I/O handler port (R67), and the free values, which are
constants without a body so that nothing can be proved about what they are. -/

namespace Sys2Proof.Config

/-! ## Fixed parameters (R6, R82) -/

/-- The reset vector (R472). -/
def resetVector : Word := 0xFFFE
/-- The NMI vector (R426). -/
def nmiVector : Word := 0xFFFC
/-- The SWI vector (R411). -/
def swiVector : Word := 0xFFFA
/-- The IRQ vector (R428). -/
def irqVector : Word := 0xFFF8
/-- The SWI2 vector (R412). -/
def swi2Vector : Word := 0xFFF4
/-- The SWI3 vector (R413). -/
def swi3Vector : Word := 0xFFF2

/-! ## Named parameters (R6, D2, D9): arguments of the model, held in State and changed by nothing (log 4) -/

/-- The two admissible values of `FIRQ_VECTOR` (D2). -/
inductive FirqVector where
  /-- 0xFFF6, the default (C1). -/
  | fff6
  /-- 0xFFFA, the value of the reference software as built (C1). -/
  | fffa
deriving DecidableEq, Repr

/-- The address each choice of `FIRQ_VECTOR` names (R82, D2). -/
def FirqVector.address : FirqVector → Word
  | .fff6 => 0xFFF6
  | .fffa => 0xFFFA

/-- The named parameters of R6 that have more than one admissible value and are not free values. -/
structure Params where
  /-- `FIRQ_VECTOR` (D2). -/
  firqVector : FirqVector
  /-- `NMI_ARM_ON_S_LOAD` (R34, D9). -/
  nmiArmOnSLoad : Bool
deriving DecidableEq, Repr

/-- The defaults of R6: `FIRQ_VECTOR` = 0xFFF6 and `NMI_ARM_ON_S_LOAD` = false. -/
def Params.default : Params := { firqVector := .fff6, nmiArmOnSLoad := false }

/-! ## The I/O handler port (R62, R67) -/

/-- What a slot of the I/O dispatch table holds (R62): the no-op handler, or a handler of the environment, known to the block
by its identity alone. -/
inductive Handler where
  /-- The no-op handler: it answers its data argument (R62, D20). -/
  | noOp
  /-- A handler of the environment. -/
  | env (id : Nat)
deriving DecidableEq, Repr

/-- The `operation` argument of a handler (R67). The block never produces `read` (C3, U30). -/
inductive IoOperation where
  | read
  | write
deriving DecidableEq, Repr

/-- One exchange at the I/O handler port (R67): which handler is called, and with what. -/
structure IoCall where
  handler   : Handler
  address   : Word
  data      : Byte
  operation : IoOperation
deriving DecidableEq, Repr

/-- The answer of the environment to one exchange (R68): the byte the cell will hold, and the levels of the two interrupt
lines after it. -/
structure IoReply where
  data     : Byte
  firqLine : Bool
  irqLine  : Bool
deriving DecidableEq, Repr, Inhabited

/-! ## Free values -/

/-- FREE VALUE. `IO_ENV` (R68, D16): the environment's answer to the call, at the given value of the state's free counter.
Any byte and any new levels of the two lines; log 7. -/
opaque ioReply : Nat → IoCall → IoReply

/-- FREE VALUE. `DAA_V` (R264, D11): CC.V after the DAA executed at the given value of the state's free counter with the given A
and CC; log 5. -/
opaque daaV : Nat → Byte → Byte → Bool

/-- FREE VALUE. `MIXED_WIDTH_TRANSFER` (R343, D12) from a 16-bit source to an 8-bit destination: a function of the source
code, the destination code and the source value; log 6. -/
opaque mixedTo8 : BitVec 4 → BitVec 4 → Word → Byte

/-- FREE VALUE. `MIXED_WIDTH_TRANSFER` (R343, D12) from an 8-bit source to a 16-bit destination; log 6. -/
opaque mixedTo16 : BitVec 4 → BitVec 4 → Byte → Word

end Sys2Proof.Config
end

