-- ==== Sys2Proof/Syntax.lean ====
section
/-! DEFINITION. The instruction set as syntax (spec/30_encoding.md rules R104, R116, R117): one constructor of `Instr` for each of
the 132 mnemonics of spec/opcode_table.json, whose argument is the operand form. A row of the table (a mnemonic in one format)
is a constructor applied to that form (log 14). Encodings that R118, R119, R154 and R341 call illegal have no term here, but for
the indirect forms of `,R+` and `,-R`, which WellFormed.lean refuses. -/

namespace Sys2Proof

/-- The opcode pages: no prefix byte, prefix 0x10, prefix 0x11 (R103). -/
inductive Page where
  | one
  | two
  | three
deriving DecidableEq, Repr

/-- The base registers of indexed addressing, in the order of the field `rr` (R146). -/
inductive IdxReg where
  | x
  | y
  | u
  | s
deriving DecidableEq, Repr

/-- The amount of an automatic increment or decrement (R148). -/
inductive AutoAmount where
  | one
  | two
deriving DecidableEq, Repr

/-- The indexed sub-modes (R145). `ind` is bit 4 of the postbyte: indirection (R152). -/
inductive Indexed where
  /-- `n5,R`: a 5-bit signed offset, never indirect (R147 (b)). -/
  | off5 (r : IdxReg) (offset : BitVec 5)
  /-- `,R+` and `,R++` (R148). By one it is never indirect (R154 (b)). -/
  | postInc (r : IdxReg) (amount : AutoAmount) (ind : Bool)
  /-- `,-R` and `,--R` (R148). By one it is never indirect (R154 (b)). -/
  | preDec (r : IdxReg) (amount : AutoAmount) (ind : Bool)
  /-- `,R` (R147 (a)). -/
  | zero (r : IdxReg) (ind : Bool)
  /-- `B,R` (R149). -/
  | accB (r : IdxReg) (ind : Bool)
  /-- `A,R` (R149). -/
  | accA (r : IdxReg) (ind : Bool)
  /-- `D,R` (R149). -/
  | accD (r : IdxReg) (ind : Bool)
  /-- `n8,R` (R147 (c)). -/
  | off8 (r : IdxReg) (offset : Byte) (ind : Bool)
  /-- `n16,R` (R147 (d)). -/
  | off16 (r : IdxReg) (offset : Word) (ind : Bool)
  /-- `n8,PCR` (R150). The register field `rr` is ignored (R146); it is kept so that no bit of an encoding is lost. -/
  | pcr8 (rr : IdxReg) (offset : Byte) (ind : Bool)
  /-- `n16,PCR` (R150), with the ignored field `rr` (R146). -/
  | pcr16 (rr : IdxReg) (offset : Word) (ind : Bool)
  /-- `[n16]`, extended indirect (R151). -/
  | extInd (address : Word)
deriving DecidableEq, Repr

/-- The memory operand forms: formats DIR, EXT and IDX (R140). -/
inductive MemOp where
  /-- Direct: the low byte of the address, under DP (R143). -/
  | dir (offset : Byte)
  /-- Extended: the address (R144). -/
  | ext (address : Word)
  /-- Indexed (R145). -/
  | idx (mode : Indexed)
deriving DecidableEq, Repr

/-- An 8-bit source operand: IMM8 or a memory operand (R141). -/
inductive Src8 where
  | imm (value : Byte)
  | mem (op : MemOp)
deriving DecidableEq, Repr

/-- A 16-bit source operand: IMM16 or a memory operand (R141). -/
inductive Src16 where
  | imm (value : Word)
  | mem (op : MemOp)
deriving DecidableEq, Repr

/-- The 16-bit registers of the TFR/EXG postbyte (R340). -/
inductive Reg16 where
  | d
  | x
  | y
  | u
  | s
  | pc
deriving DecidableEq, Repr

/-- The 8-bit registers of the TFR/EXG postbyte (R340). -/
inductive Reg8 where
  | a
  | b
  | cc
  | dp
deriving DecidableEq, Repr

/-- The registers `TREG[code]` a TFR/EXG postbyte can name (R340). -/
inductive Reg where
  | r16 (r : Reg16)
  | r8 (r : Reg8)
deriving DecidableEq, Repr

/-- The documented MC6809 instructions, one constructor per mnemonic (R4 (d), R116, R117). -/
inductive Instr where
  -- Loads (R201 to R207)
  | lda (src : Src8)
  | ldb (src : Src8)
  | ldd (src : Src16)
  | ldx (src : Src16)
  | ldy (src : Src16)
  | ldu (src : Src16)
  | lds (src : Src16)
  -- Stores (R208 to R214)
  | sta (dst : MemOp)
  | stb (dst : MemOp)
  | std (dst : MemOp)
  | stx (dst : MemOp)
  | sty (dst : MemOp)
  | stu (dst : MemOp)
  | sts (dst : MemOp)
  -- Load effective address (R215 to R218)
  | leax (mode : Indexed)
  | leay (mode : Indexed)
  | leas (mode : Indexed)
  | leau (mode : Indexed)
  -- Addition (R237 to R241)
  | adda (src : Src8)
  | addb (src : Src8)
  | adca (src : Src8)
  | adcb (src : Src8)
  | addd (src : Src16)
  -- Subtraction (R242 to R246)
  | suba (src : Src8)
  | subb (src : Src8)
  | sbca (src : Src8)
  | sbcb (src : Src8)
  | subd (src : Src16)
  -- Comparison (R247 to R253)
  | cmpa (src : Src8)
  | cmpb (src : Src8)
  | cmpd (src : Src16)
  | cmpx (src : Src16)
  | cmpy (src : Src16)
  | cmpu (src : Src16)
  | cmps (src : Src16)
  -- Negate, increment, decrement (R254 to R262)
  | neg (dst : MemOp)
  | nega
  | negb
  | inc (dst : MemOp)
  | inca
  | incb
  | dec (dst : MemOp)
  | deca
  | decb
  -- Multiply, decimal adjust, ABX, SEX (R263 to R266)
  | mul
  | daa
  | abx
  | sex
  -- Logic (R281 to R288)
  | anda (src : Src8)
  | andb (src : Src8)
  | ora (src : Src8)
  | orb (src : Src8)
  | eora (src : Src8)
  | eorb (src : Src8)
  | bita (src : Src8)
  | bitb (src : Src8)
  -- Condition-code masks (R289, R290)
  | andcc (mask : Byte)
  | orcc (mask : Byte)
  -- Complement, clear, test (R291 to R299)
  | com (dst : MemOp)
  | coma
  | comb
  | clr (dst : MemOp)
  | clra
  | clrb
  | tst (src : MemOp)
  | tsta
  | tstb
  -- Shifts and rotates (R300 to R314)
  | asl (dst : MemOp)
  | asla
  | aslb
  | asr (dst : MemOp)
  | asra
  | asrb
  | lsr (dst : MemOp)
  | lsra
  | lsrb
  | rol (dst : MemOp)
  | rola
  | rolb
  | ror (dst : MemOp)
  | rora
  | rorb
  -- Transfer, exchange, push, pull (R342 to R352)
  | tfr (src dst : Reg)
  | exg (first second : Reg)
  | pshs (mask : Byte)
  | puls (mask : Byte)
  | pshu (mask : Byte)
  | pulu (mask : Byte)
  -- Short branches (R362 to R377)
  | bra (offset : Byte)
  | brn (offset : Byte)
  | bhi (offset : Byte)
  | bls (offset : Byte)
  | bcc (offset : Byte)
  | bcs (offset : Byte)
  | bne (offset : Byte)
  | beq (offset : Byte)
  | bvc (offset : Byte)
  | bvs (offset : Byte)
  | bpl (offset : Byte)
  | bmi (offset : Byte)
  | bge (offset : Byte)
  | blt (offset : Byte)
  | bgt (offset : Byte)
  | ble (offset : Byte)
  -- Long branches (R379 to R394)
  | lbra (offset : Word)
  | lbrn (offset : Word)
  | lbhi (offset : Word)
  | lbls (offset : Word)
  | lbcc (offset : Word)
  | lbcs (offset : Word)
  | lbne (offset : Word)
  | lbeq (offset : Word)
  | lbvc (offset : Word)
  | lbvs (offset : Word)
  | lbpl (offset : Word)
  | lbmi (offset : Word)
  | lbge (offset : Word)
  | lblt (offset : Word)
  | lbgt (offset : Word)
  | lble (offset : Word)
  -- Calls, jumps, return (R378, R395 to R398)
  | bsr (offset : Byte)
  | lbsr (offset : Word)
  | jmp (target : MemOp)
  | jsr (target : MemOp)
  | rts
  -- System (R410 to R416)
  | nop
  | swi
  | swi2
  | swi3
  | rti
  | cwai (mask : Byte)
  | sync
deriving DecidableEq, Repr

end Sys2Proof
end

