-- ==== Sys2Proof/Machine/State.lean ====
section
/-! DEFINITION. The state of the machine (spec/10_state.md, spec/20_memory.md rules R60 to R62), plain data, and the state
after reset (spec/70_reset_and_hazards.md rule R471). INVENTORY.md lists every field with its rule. -/

namespace Sys2Proof.Machine

/-- Why the machine stops (R438, R440): the two faults of the spec, each raised while the instruction is still being fetched, so
that nothing is half done. Both are the spec's own choice (D3, D13, D14) and safe: the chip executes something there, the model
stops. -/
inductive Fault where
  /-- `Fault(IllegalOpcode, (address, page, op))`: raised by the instruction step at an opcode R118 calls illegal. Safe. -/
  | illegalOpcode (address : Word) (page : Page) (op : Byte)
  /-- `Fault(IllegalPostbyte, (address, postbyte))`: raised by the instruction step at a postbyte R119 calls illegal. Safe. -/
  | illegalPostbyte (address : Word) (postbyte : Byte)
deriving DecidableEq, Repr

/-- Why the model gives an instruction no meaning. Every instruction has one, so no step answers with a refusal. -/
inductive Refusal where
  /-- Raised by the dispatcher at an instruction whose meaning is not written. Safe: nothing is said of it. -/
  | notModelled (mnemonic : String)
deriving DecidableEq, Repr

/-- The execution state (R31). -/
inductive ExecState where
  | reset
  | running
  | syncWait
  | cwaiWait
  /-- FAULT, with the fault every further step reports (R440). -/
  | fault (f : Fault)
deriving DecidableEq, Repr

/-- The attributes of a memory cell beside its data (R61). -/
structure CellAttr where
  isRom   : Bool
  isIo    : Bool
  ioIndex : Byte
deriving DecidableEq, Repr

/-- The attributes of every cell after `initialize()` (R64). -/
def CellAttr.none : CellAttr := { isRom := false, isIo := false, ioIndex := 0 }

/-- Everything the spec gives the machine, and the model's own two fields at the end. -/
structure State where
  /-- Accumulator A, the high byte of D (R21, R22). -/
  a : Byte
  /-- Accumulator B, the low byte of D (R21, R22). -/
  b : Byte
  /-- Direct-page register (R26). -/
  dp : Byte
  /-- Condition codes, bits E F H I N Z V C from 7 down to 0 (R27). -/
  cc : Byte
  /-- Index register X (R23). -/
  x : Word
  /-- Index register Y (R23). -/
  y : Word
  /-- User stack pointer (R24). -/
  u : Word
  /-- Hardware stack pointer (R24). -/
  s : Word
  /-- Program counter (R25). -/
  pc : Word
  /-- Execution state (R31). -/
  execState : ExecState
  /-- `nmi_latch` (R33). -/
  nmiLatch : Bool
  /-- `firq_line` (R33). -/
  firqLine : Bool
  /-- `irq_line` (R33). -/
  irqLine : Bool
  /-- `nmi_armed`, held false while the parameter is false (R34, log 20). -/
  nmiArmed : Bool
  /-- `last_pc` (R35). -/
  lastPc : Word
  /-- `last_len` (R35). -/
  lastLen : Byte
  /-- `mem[a].data`: the cells that do not hold the byte of an unlisted address, by rising address (R61, log 3). -/
  mem : List Host.Cell
  /-- `is_rom`, `is_io`, `io_index` of every cell: each pair gives the attributes from its address up to the next pair's (R61,
  log 15). -/
  attrs : List (Nat × CellAttr)
  /-- `io_table`: slot k is the k-th entry, and every slot past the end holds the no-op handler (R62, log 11). -/
  ioTable : List Config.Handler
  /-- The named parameters (R6, log 4). -/
  params : Config.Params
  /-- The MODEL's own: every exchange at the I/O handler port so far, newest first (R67, log 8). -/
  ioCalls : List Config.IoCall
  /-- The MODEL's own: the plain counter the free values are taken at (log 9). -/
  freeIndex : Nat
deriving DecidableEq, Repr

/-- The machine right after `initialize()` of the memory and a cold `reset(true)` (R64, R471): in RESET, so that the first step
loads PC from the reset vector. CC, DP, the execution state, the NMI latch and arming, and all of memory have the values of R38;
the other registers, the two lines and the snapshot fields are named values (log 1, log 2). -/
def State.reset : State where
  a := 0
  b := 0
  dp := 0
  cc := 0x50
  x := 0
  y := 0
  u := 0
  s := 0
  pc := 0
  execState := .reset
  nmiLatch := false
  firqLine := false
  irqLine := false
  nmiArmed := false
  lastPc := 0
  lastLen := 0
  mem := []
  attrs := []
  ioTable := []
  params := Config.Params.default
  ioCalls := []
  freeIndex := 0

/-- What a meaning and a step answer. -/
abbrev Result := Host.Outcome State Fault Refusal

end Sys2Proof.Machine
end

