-- ==== Sys2Proof/Machine/Flags.lean ====
section
/-! DEFINITION. The flags (spec/10_state.md rules R27, R28) and every flag computation of the spec: spec/42_arithmetic.md rules
R230 to R235 and R254 to R266, spec/43_logic_shift.md rules R281 to R314, the branch conditions of spec/45_branch_jump.md rule
R360. A flag function takes the condition codes before and gives the condition codes after; a flag it does not name is kept. -/

namespace Sys2Proof.Machine

/-! ## The bits of CC (R27) -/

/-- The eight flags. -/
inductive Flag where
  | c
  | v
  | z
  | n
  | i
  | h
  | f
  | e
deriving DecidableEq, Repr

/-- The bit number of a flag (R27, D4). -/
def Flag.bit : Flag → Nat
  | .c => 0
  | .v => 1
  | .z => 2
  | .n => 3
  | .i => 4
  | .h => 5
  | .f => 6
  | .e => 7

/-- The flag's value in a CC byte. -/
def flag (k : Flag) (cc : Byte) : Bool := cc.getLsbD k.bit

/-- The value of the flag as a mask (R27). -/
def Flag.mask (k : Flag) : Byte := 1#8 <<< k.bit

/-- `CC.k <- v`. -/
def putFlag (k : Flag) (v : Bool) (cc : Byte) : Byte := if v then cc ||| k.mask else cc &&& ~~~k.mask

/-- The flag's value in a state. -/
def State.flag (k : Flag) (st : State) : Bool := Machine.flag k st.cc

/-! ## The common helpers -/

/-- `nz8(v)` (R234). -/
def ccNz8 (v : Byte) (cc : Byte) : Byte := putFlag .z (v == 0) (putFlag .n v.msb cc)

/-- `nz16(v)` (R235). -/
def ccNz16 (v : Word) (cc : Byte) : Byte := putFlag .z (v == 0) (putFlag .n v.msb cc)

/-- `nz8(v);  CC.V <- 0`: 8-bit loads, stores, logic and tests (R200, R281, R297). -/
def ccMove8 (v : Byte) (cc : Byte) : Byte := putFlag .v false (ccNz8 v cc)

/-- `nz16(v);  CC.V <- 0`: 16-bit loads and stores (R200). -/
def ccMove16 (v : Word) (cc : Byte) : Byte := putFlag .v false (ccNz16 v cc)

/-- `CC.Z <- (ea = 0)`: LEAX and LEAY (R215, R216). -/
def ccLea (v : Word) (cc : Byte) : Byte := putFlag .z (v == 0) cc

/-! ## Addition and subtraction (R230 to R233) -/

/-- A flag as a number. -/
def bitValue (c : Bool) : Nat := if c then 1 else 0

/-- The sum of `add8` (R230). -/
def add8 (a b : Byte) (c : Bool) : Byte := BitVec.ofNat 8 (a.toNat + b.toNat + bitValue c)

/-- The flags of `add8` (R230): H is the carry from bit 3, C the carry out of bit 7, V the signed overflow. -/
def ccAdd8 (a b : Byte) (c : Bool) (cc : Byte) : Byte :=
  let r := add8 a b c
  putFlag .h (decide (a.toNat % 16 + b.toNat % 16 + bitValue c > 15))
    (putFlag .c (decide (a.toNat + b.toNat + bitValue c > 255))
      (putFlag .v (a.msb == b.msb && r.msb != a.msb) (ccNz8 r cc)))

/-- The difference of `sub8` (R231). -/
def sub8 (a b : Byte) (c : Bool) : Byte := a - b - BitVec.ofNat 8 (bitValue c)

/-- The flags of `sub8` (R231): C is the borrow; H is not written (D10). -/
def ccSub8 (a b : Byte) (c : Bool) (cc : Byte) : Byte :=
  let r := sub8 a b c
  putFlag .c (decide (a.toNat < b.toNat + bitValue c))
    (putFlag .v (a.msb != b.msb && r.msb != a.msb) (ccNz8 r cc))

/-- The sum of `add16` (R232). -/
def add16 (a b : Word) : Word := a + b

/-- The flags of `add16` (R232). -/
def ccAdd16 (a b : Word) (cc : Byte) : Byte :=
  let r := add16 a b
  putFlag .c (decide (a.toNat + b.toNat > 65535))
    (putFlag .v (a.msb == b.msb && r.msb != a.msb) (ccNz16 r cc))

/-- The difference of `sub16` (R233). -/
def sub16 (a b : Word) : Word := a - b

/-- The flags of `sub16` (R233). -/
def ccSub16 (a b : Word) (cc : Byte) : Byte :=
  let r := sub16 a b
  putFlag .c (decide (a.toNat < b.toNat))
    (putFlag .v (a.msb != b.msb && r.msb != a.msb) (ccNz16 r cc))

/-! ## The one-operand operations: the result, then the flags, from the old value `m` -/

/-- NEG (R254). -/
def negValue (m : Byte) : Byte := 0 - m
/-- `C <- (m != 0);  V <- (m = 0x80);  nz8` (R254). -/
def ccNeg (m : Byte) (cc : Byte) : Byte :=
  ccNz8 (negValue m) (putFlag .v (m == 0x80) (putFlag .c (m != 0) cc))

/-- INC (R257). -/
def incValue (m : Byte) : Byte := m + 1
/-- `V <- (m = 0x7F);  nz8`; C is kept (R257). -/
def ccInc (m : Byte) (cc : Byte) : Byte := ccNz8 (incValue m) (putFlag .v (m == 0x7F) cc)

/-- DEC (R260). -/
def decValue (m : Byte) : Byte := m - 1
/-- `V <- (m = 0x80);  nz8`; C is kept (R260). -/
def ccDec (m : Byte) (cc : Byte) : Byte := ccNz8 (decValue m) (putFlag .v (m == 0x80) cc)

/-- COM (R291). -/
def comValue (m : Byte) : Byte := ~~~m
/-- `nz8;  V <- 0;  C <- 1` (R291). -/
def ccCom (m : Byte) (cc : Byte) : Byte := putFlag .c true (putFlag .v false (ccNz8 (comValue m) cc))

/-- `N <- 0;  Z <- 1;  V <- 0;  C <- 0`: CLR (R294). -/
def ccClr (cc : Byte) : Byte := putFlag .c false (putFlag .v false (putFlag .z true (putFlag .n false cc)))

/-- ASL (R300). -/
def aslValue (m : Byte) : Byte := m <<< 1
/-- `C <- m[7];  V <- m[7] xor m[6];  nz8` (R300). -/
def ccAsl (m : Byte) (cc : Byte) : Byte :=
  ccNz8 (aslValue m) (putFlag .v (m.getLsbD 7 != m.getLsbD 6) (putFlag .c (m.getLsbD 7) cc))

/-- ASR (R303): bit 7 keeps its value. -/
def asrValue (m : Byte) : Byte := (m >>> 1) ||| (m &&& 0x80)
/-- `C <- m[0];  nz8`; V is kept (R303). -/
def ccAsr (m : Byte) (cc : Byte) : Byte := ccNz8 (asrValue m) (putFlag .c (m.getLsbD 0) cc)

/-- LSR (R306). -/
def lsrValue (m : Byte) : Byte := m >>> 1
/-- `C <- m[0];  N <- 0;  Z <- (r = 0)`; V is kept (R306). -/
def ccLsr (m : Byte) (cc : Byte) : Byte :=
  putFlag .z (lsrValue m == 0) (putFlag .n false (putFlag .c (m.getLsbD 0) cc))

/-- ROL (R309): bit 0 takes the old C. -/
def rolValue (m : Byte) (cc : Byte) : Byte := (m <<< 1) ||| BitVec.ofNat 8 (bitValue (flag .c cc))
/-- `C <- m[7];  V <- m[7] xor m[6];  nz8` (R309). -/
def ccRol (m : Byte) (cc : Byte) : Byte :=
  ccNz8 (rolValue m cc) (putFlag .v (m.getLsbD 7 != m.getLsbD 6) (putFlag .c (m.getLsbD 7) cc))

/-- ROR (R312): bit 7 takes the old C. -/
def rorValue (m : Byte) (cc : Byte) : Byte := (m >>> 1) ||| (BitVec.ofNat 8 (bitValue (flag .c cc)) <<< 7)
/-- `C <- m[0];  nz8`; V is kept (R312). -/
def ccRor (m : Byte) (cc : Byte) : Byte := ccNz8 (rorValue m cc) (putFlag .c (m.getLsbD 0) cc)

/-! ## MUL, DAA, SEX -/

/-- The product of MUL (R263): unsigned, it always fits 16 bits. -/
def mulValue (a b : Byte) : Word := a.zeroExtend 16 * b.zeroExtend 16
/-- `Z <- (p = 0);  C <- p[7]` (R263). -/
def ccMul (p : Word) (cc : Byte) : Byte := putFlag .c (p.getLsbD 7) (putFlag .z (p == 0) cc)

/-- The correction `cf` of DAA (R264). -/
def daaCorrection (a : Byte) (cc : Byte) : Nat :=
  let lsn := a.toNat % 16
  let msn := a.toNat / 16
  (if flag .h cc ∨ lsn > 9 then 0x06 else 0) + (if flag .c cc ∨ msn > 9 ∨ (msn > 8 ∧ lsn > 9) then 0x60 else 0)

/-- A after DAA (R264). -/
def daaValue (a : Byte) (cc : Byte) : Byte := BitVec.ofNat 8 (a.toNat + daaCorrection a cc)

/-- `C <- C or r9[8];  nz8;  V <- DAA_V` (R264); `v` is the free value (D11). -/
def ccDaa (v : Bool) (a : Byte) (cc : Byte) : Byte :=
  putFlag .v v
    (ccNz8 (daaValue a cc) (putFlag .c (flag .c cc || decide (a.toNat + daaCorrection a cc > 255)) cc))

/-- A after SEX (R266). -/
def sexValue (b : Byte) : Byte := if b.getLsbD 7 then 0xFF else 0x00

/-! ## Branch conditions (R360) -/

/-- The sixteen conditions, in the order of the low nibble of the opcode. -/
inductive Cond where
  | ra
  | rn
  | hi
  | ls
  | cc
  | cs
  | ne
  | eq
  | vc
  | vs
  | pl
  | mi
  | ge
  | lt
  | gt
  | le
deriving DecidableEq, Repr

/-- When a branch is taken (R360). -/
def holds (k : Cond) (cc : Byte) : Bool :=
  match k with
  | .ra => true
  | .rn => false
  | .hi => !(flag .c cc || flag .z cc)
  | .ls => flag .c cc || flag .z cc
  | .cc => !flag .c cc
  | .cs => flag .c cc
  | .ne => !flag .z cc
  | .eq => flag .z cc
  | .vc => !flag .v cc
  | .vs => flag .v cc
  | .pl => !flag .n cc
  | .mi => flag .n cc
  | .ge => !(flag .n cc != flag .v cc)
  | .lt => flag .n cc != flag .v cc
  | .gt => !(flag .z cc || (flag .n cc != flag .v cc))
  | .le => flag .z cc || (flag .n cc != flag .v cc)

end Sys2Proof.Machine
end

