-- ==== Sys2Proof/WellFormed.lean ====
section
/-! DEFINITION. Which terms of `Instr` are instructions (spec/40_addressing.md rules R148, R154). The types of the fields rule out
every illegal encoding but one group: the indirect forms of `,R+` and `,-R`. A well-formed term is what the encoder encodes and
what the decoder answers. -/

namespace Sys2Proof

/-- Auto increment and decrement by one cannot be indirect (R148, R154 (b)). -/
def autoWf : AutoAmount → Bool → Bool
  | .one, ind => !ind
  | .two, _ => true

/-- An indexed sub-mode that some postbyte of R145 spells. -/
def Indexed.wf : Indexed → Bool
  | .postInc _ amount ind => autoWf amount ind
  | .preDec _ amount ind => autoWf amount ind
  | .off5 _ _ | .zero _ _ | .accB _ _ | .accA _ _ | .accD _ _ | .off8 _ _ _ | .off16 _ _ _ | .pcr8 _ _ _
  | .pcr16 _ _ _ | .extInd _ => true

/-- A memory operand whose indexed sub-mode is well formed. -/
def MemOp.wf : MemOp → Bool
  | .dir _ | .ext _ => true
  | .idx mode => mode.wf

/-- An 8-bit source whose memory operand is well formed. -/
def Src8.wf : Src8 → Bool
  | .imm _ => true
  | .mem op => op.wf

/-- A 16-bit source whose memory operand is well formed. -/
def Src16.wf : Src16 → Bool
  | .imm _ => true
  | .mem op => op.wf

/-- An instruction whose operand form is well formed. -/
def Instr.wf : Instr → Bool
  | .lda src | .ldb src | .adda src | .addb src | .adca src | .adcb src | .suba src | .subb src | .sbca src
  | .sbcb src | .cmpa src | .cmpb src | .anda src | .andb src | .ora src | .orb src | .eora src | .eorb src
  | .bita src | .bitb src => src.wf
  | .ldd src | .ldx src | .ldy src | .ldu src | .lds src | .addd src | .subd src | .cmpd src | .cmpx src
  | .cmpy src | .cmpu src | .cmps src => src.wf
  | .sta op | .stb op | .std op | .stx op | .sty op | .stu op | .sts op | .neg op | .inc op | .dec op | .com op
  | .clr op | .tst op | .asl op | .asr op | .lsr op | .rol op | .ror op | .jmp op | .jsr op => op.wf
  | .leax mode | .leay mode | .leas mode | .leau mode => mode.wf
  | .nega | .negb | .inca | .incb | .deca | .decb | .mul | .daa | .abx | .sex | .coma | .comb | .clra | .clrb
  | .tsta | .tstb | .asla | .aslb | .asra | .asrb | .lsra | .lsrb | .rola | .rolb | .rora | .rorb | .rts | .nop
  | .swi | .swi2 | .swi3 | .rti | .sync | .andcc _ | .orcc _ | .pshs _ | .puls _ | .pshu _ | .pulu _ | .bra _
  | .brn _ | .bhi _ | .bls _ | .bcc _ | .bcs _ | .bne _ | .beq _ | .bvc _ | .bvs _ | .bpl _ | .bmi _ | .bge _
  | .blt _ | .bgt _ | .ble _ | .bsr _ | .cwai _ | .tfr _ _ | .exg _ _ | .lbra _ | .lbrn _ | .lbhi _ | .lbls _
  | .lbcc _ | .lbcs _ | .lbne _ | .lbeq _ | .lbvc _ | .lbvs _ | .lbpl _ | .lbmi _ | .lbge _ | .lblt _ | .lbgt _
  | .lble _ | .lbsr _ => true

/-- The well-formed instructions. -/
abbrev Instr.WellFormed (i : Instr) : Prop := i.wf = true

end Sys2Proof
end

