-- ==== Sys2Proof/Decode.lean ====
section
/-! DEFINITION. Decoding and encoding (spec/30_encoding.md rules R100 to R121, spec/40_addressing.md rules R145 to R154,
spec/44_transfer_stack.md rules R340, R341), and the byte-order and bit-field helpers they use.

An instruction is decoded from a stream of bytes: `b k` is the byte at the address of the instruction plus `k`. Decoding is total:
every stream is an instruction with its length, or is rejected by name. It looks at no more than five bytes. -/

namespace Sys2Proof

/-! ## Bytes and words (R9, R76) -/

/-- `h:l`, the Word with high-order byte `h` and low-order byte `l` (R9). -/
def joinBytes (h l : Byte) : Word := h ++ l
/-- `hi(w)` (R9). -/
def hiByte (w : Word) : Byte := w.extractLsb' 8 8
/-- `lo(w)` (R9). -/
def loByte (w : Word) : Byte := w.extractLsb' 0 8

/-! ## Register fields -/

/-- `IDXREG[rr]` (R146). -/
def IdxReg.ofCode (rr : Nat) : IdxReg :=
  match rr with
  | 0 => .x
  | 1 => .y
  | 2 => .u
  | _ => .s

/-- The field `rr` of a base register (R146). -/
def IdxReg.code : IdxReg → BitVec 2
  | .x => 0
  | .y => 1
  | .u => 2
  | .s => 3

/-- `TREG[code]`; the codes 6, 7 and C to F are illegal (R340, R341). -/
def Reg.ofCode (code : Nat) : Option Reg :=
  match code with
  | 0x0 => some (.r16 .d)
  | 0x1 => some (.r16 .x)
  | 0x2 => some (.r16 .y)
  | 0x3 => some (.r16 .u)
  | 0x4 => some (.r16 .s)
  | 0x5 => some (.r16 .pc)
  | 0x8 => some (.r8 .a)
  | 0x9 => some (.r8 .b)
  | 0xA => some (.r8 .cc)
  | 0xB => some (.r8 .dp)
  | _ => none

/-- The code of a 16-bit register (R340). -/
def Reg16.code : Reg16 → BitVec 4
  | .d => 0x0
  | .x => 0x1
  | .y => 0x2
  | .u => 0x3
  | .s => 0x4
  | .pc => 0x5

/-- The code of an 8-bit register (R340). -/
def Reg8.code : Reg8 → BitVec 4
  | .a => 0x8
  | .b => 0x9
  | .cc => 0xA
  | .dp => 0xB

/-- The code of a register of the TFR/EXG postbyte (R340). -/
def Reg.code : Reg → BitVec 4
  | .r16 r => r.code
  | .r8 r => r.code

/-! ## The opcode map (R104, R116, R117) -/

/-- An entry of the opcode map: the format and what the operand is turned into. LEA has a constructor of its own, since it exists
in the format IDX only. -/
inductive Entry where
  | inh (i : Instr)
  | imm8 (mk : Byte → Instr)
  | imm16 (mk : Word → Instr)
  | dir (mk : MemOp → Instr)
  | ext (mk : MemOp → Instr)
  | idx (mk : MemOp → Instr)
  | lea (mk : Indexed → Instr)
  | rel8 (mk : Byte → Instr)
  | rel16 (mk : Word → Instr)
  | regpb (mk : Reg → Reg → Instr)
  | stkpb (mk : Byte → Instr)

/-- A column of the rows 8x to Fx: one operation in the formats IMM, DIR, IDX, EXT, or in the last three only (R116 (b), (c)). -/
inductive Column where
  | src8 (mk : Src8 → Instr)
  | src16 (mk : Src16 → Instr)
  | mem (mk : MemOp → Instr)

/-- Bits 5..4 of the opcode give the format: 00 immediate, 01 direct, 10 indexed, 11 extended (R116 (b)); there is no
store-immediate (R116 (c)). -/
def Column.entry (c : Column) (format : Nat) : Option Entry :=
  match c, format with
  | .src8 mk, 0 => some (.imm8 fun v => mk (.imm v))
  | .src8 mk, 1 => some (.dir fun m => mk (.mem m))
  | .src8 mk, 2 => some (.idx fun m => mk (.mem m))
  | .src8 mk, _ => some (.ext fun m => mk (.mem m))
  | .src16 mk, 0 => some (.imm16 fun v => mk (.imm v))
  | .src16 mk, 1 => some (.dir fun m => mk (.mem m))
  | .src16 mk, 2 => some (.idx fun m => mk (.mem m))
  | .src16 mk, _ => some (.ext fun m => mk (.mem m))
  | .mem _, 0 => none
  | .mem mk, 1 => some (.dir mk)
  | .mem mk, 2 => some (.idx mk)
  | .mem mk, _ => some (.ext mk)

/-- The columns of the rows 0x (DIR), 6x (IDX) and 7x (EXT) (R116 (a)). -/
def rmwColumn (lo : Nat) : Option (MemOp → Instr) :=
  match lo with
  | 0x0 => some .neg
  | 0x3 => some .com
  | 0x4 => some .lsr
  | 0x6 => some .ror
  | 0x7 => some .asr
  | 0x8 => some .asl
  | 0x9 => some .rol
  | 0xA => some .dec
  | 0xC => some .inc
  | 0xD => some .tst
  | 0xE => some .jmp
  | 0xF => some .clr
  | _ => none

/-- Row 4x (R116). -/
def row4 (lo : Nat) : Option Instr :=
  match lo with
  | 0x0 => some .nega
  | 0x3 => some .coma
  | 0x4 => some .lsra
  | 0x6 => some .rora
  | 0x7 => some .asra
  | 0x8 => some .asla
  | 0x9 => some .rola
  | 0xA => some .deca
  | 0xC => some .inca
  | 0xD => some .tsta
  | 0xF => some .clra
  | _ => none

/-- Row 5x (R116). -/
def row5 (lo : Nat) : Option Instr :=
  match lo with
  | 0x0 => some .negb
  | 0x3 => some .comb
  | 0x4 => some .lsrb
  | 0x6 => some .rorb
  | 0x7 => some .asrb
  | 0x8 => some .aslb
  | 0x9 => some .rolb
  | 0xA => some .decb
  | 0xC => some .incb
  | 0xD => some .tstb
  | 0xF => some .clrb
  | _ => none

/-- Row 1x, without the prefix bytes 0x10 and 0x11 (R116). -/
def row1 (lo : Nat) : Option Entry :=
  match lo with
  | 0x2 => some (.inh .nop)
  | 0x3 => some (.inh .sync)
  | 0x6 => some (.rel16 .lbra)
  | 0x7 => some (.rel16 .lbsr)
  | 0x9 => some (.inh .daa)
  | 0xA => some (.imm8 .orcc)
  | 0xC => some (.imm8 .andcc)
  | 0xD => some (.inh .sex)
  | 0xE => some (.regpb .exg)
  | 0xF => some (.regpb .tfr)
  | _ => none

/-- Row 2x (R116). -/
def row2 (lo : Nat) : Option Entry :=
  match lo with
  | 0x0 => some (.rel8 .bra)
  | 0x1 => some (.rel8 .brn)
  | 0x2 => some (.rel8 .bhi)
  | 0x3 => some (.rel8 .bls)
  | 0x4 => some (.rel8 .bcc)
  | 0x5 => some (.rel8 .bcs)
  | 0x6 => some (.rel8 .bne)
  | 0x7 => some (.rel8 .beq)
  | 0x8 => some (.rel8 .bvc)
  | 0x9 => some (.rel8 .bvs)
  | 0xA => some (.rel8 .bpl)
  | 0xB => some (.rel8 .bmi)
  | 0xC => some (.rel8 .bge)
  | 0xD => some (.rel8 .blt)
  | 0xE => some (.rel8 .bgt)
  | 0xF => some (.rel8 .ble)
  | _ => none

/-- Row 3x (R116). -/
def row3 (lo : Nat) : Option Entry :=
  match lo with
  | 0x0 => some (.lea .leax)
  | 0x1 => some (.lea .leay)
  | 0x2 => some (.lea .leas)
  | 0x3 => some (.lea .leau)
  | 0x4 => some (.stkpb .pshs)
  | 0x5 => some (.stkpb .puls)
  | 0x6 => some (.stkpb .pshu)
  | 0x7 => some (.stkpb .pulu)
  | 0x9 => some (.inh .rts)
  | 0xA => some (.inh .abx)
  | 0xB => some (.inh .rti)
  | 0xC => some (.imm8 .cwai)
  | 0xD => some (.inh .mul)
  | 0xF => some (.inh .swi)
  | _ => none

/-- The columns of the rows 8x to Bx; column D is JSR, whose immediate place is BSR (R116 (b), (c)). -/
def columnA (lo : Nat) : Option Column :=
  match lo with
  | 0x0 => some (.src8 .suba)
  | 0x1 => some (.src8 .cmpa)
  | 0x2 => some (.src8 .sbca)
  | 0x3 => some (.src16 .subd)
  | 0x4 => some (.src8 .anda)
  | 0x5 => some (.src8 .bita)
  | 0x6 => some (.src8 .lda)
  | 0x7 => some (.mem .sta)
  | 0x8 => some (.src8 .eora)
  | 0x9 => some (.src8 .adca)
  | 0xA => some (.src8 .ora)
  | 0xB => some (.src8 .adda)
  | 0xC => some (.src16 .cmpx)
  | 0xD => some (.mem .jsr)
  | 0xE => some (.src16 .ldx)
  | 0xF => some (.mem .stx)
  | _ => none

/-- The columns of the rows Cx to Fx (R116 (b), (c)). -/
def columnB (lo : Nat) : Option Column :=
  match lo with
  | 0x0 => some (.src8 .subb)
  | 0x1 => some (.src8 .cmpb)
  | 0x2 => some (.src8 .sbcb)
  | 0x3 => some (.src16 .addd)
  | 0x4 => some (.src8 .andb)
  | 0x5 => some (.src8 .bitb)
  | 0x6 => some (.src8 .ldb)
  | 0x7 => some (.mem .stb)
  | 0x8 => some (.src8 .eorb)
  | 0x9 => some (.src8 .adcb)
  | 0xA => some (.src8 .orb)
  | 0xB => some (.src8 .addb)
  | 0xC => some (.src16 .ldd)
  | 0xD => some (.mem .std)
  | 0xE => some (.src16 .ldu)
  | 0xF => some (.mem .stu)
  | _ => none

/-- Page 1, by the nibbles of the opcode (R116). -/
def page1 (hi lo : Nat) : Option Entry :=
  match hi with
  | 0x0 => (rmwColumn lo).map .dir
  | 0x1 => row1 lo
  | 0x2 => row2 lo
  | 0x3 => row3 lo
  | 0x4 => (row4 lo).map .inh
  | 0x5 => (row5 lo).map .inh
  | 0x6 => (rmwColumn lo).map .idx
  | 0x7 => (rmwColumn lo).map .ext
  | 0x8 => if lo = 0xD then some (.rel8 .bsr) else (columnA lo).bind (·.entry 0)
  | 0x9 => (columnA lo).bind (·.entry 1)
  | 0xA => (columnA lo).bind (·.entry 2)
  | 0xB => (columnA lo).bind (·.entry 3)
  | 0xC => (columnB lo).bind (·.entry 0)
  | 0xD => (columnB lo).bind (·.entry 1)
  | 0xE => (columnB lo).bind (·.entry 2)
  | 0xF => (columnB lo).bind (·.entry 3)
  | _ => none

/-- The long conditional branches of page 2 (R117); (0x10, 0x20) is illegal. -/
def row2Page2 (lo : Nat) : Option Entry :=
  match lo with
  | 0x1 => some (.rel16 .lbrn)
  | 0x2 => some (.rel16 .lbhi)
  | 0x3 => some (.rel16 .lbls)
  | 0x4 => some (.rel16 .lbcc)
  | 0x5 => some (.rel16 .lbcs)
  | 0x6 => some (.rel16 .lbne)
  | 0x7 => some (.rel16 .lbeq)
  | 0x8 => some (.rel16 .lbvc)
  | 0x9 => some (.rel16 .lbvs)
  | 0xA => some (.rel16 .lbpl)
  | 0xB => some (.rel16 .lbmi)
  | 0xC => some (.rel16 .lbge)
  | 0xD => some (.rel16 .lblt)
  | 0xE => some (.rel16 .lbgt)
  | 0xF => some (.rel16 .lble)
  | _ => none

/-- The columns of the rows 8x to Bx of page 2 (R117). -/
def columnAPage2 (lo : Nat) : Option Column :=
  match lo with
  | 0x3 => some (.src16 .cmpd)
  | 0xC => some (.src16 .cmpy)
  | 0xE => some (.src16 .ldy)
  | 0xF => some (.mem .sty)
  | _ => none

/-- The columns of the rows Cx to Fx of page 2 (R117). -/
def columnBPage2 (lo : Nat) : Option Column :=
  match lo with
  | 0xE => some (.src16 .lds)
  | 0xF => some (.mem .sts)
  | _ => none

/-- Page 2, by the nibbles of the second byte (R117). -/
def page2 (hi lo : Nat) : Option Entry :=
  match hi with
  | 0x2 => row2Page2 lo
  | 0x3 => if lo = 0xF then some (.inh .swi2) else none
  | 0x8 => (columnAPage2 lo).bind (·.entry 0)
  | 0x9 => (columnAPage2 lo).bind (·.entry 1)
  | 0xA => (columnAPage2 lo).bind (·.entry 2)
  | 0xB => (columnAPage2 lo).bind (·.entry 3)
  | 0xC => (columnBPage2 lo).bind (·.entry 0)
  | 0xD => (columnBPage2 lo).bind (·.entry 1)
  | 0xE => (columnBPage2 lo).bind (·.entry 2)
  | 0xF => (columnBPage2 lo).bind (·.entry 3)
  | _ => none

/-- The columns of the rows 8x to Bx of page 3 (R117). -/
def columnAPage3 (lo : Nat) : Option Column :=
  match lo with
  | 0x3 => some (.src16 .cmpu)
  | 0xC => some (.src16 .cmps)
  | _ => none

/-- Page 3, by the nibbles of the second byte (R117). -/
def page3 (hi lo : Nat) : Option Entry :=
  match hi with
  | 0x3 => if lo = 0xF then some (.inh .swi3) else none
  | 0x8 => (columnAPage3 lo).bind (·.entry 0)
  | 0x9 => (columnAPage3 lo).bind (·.entry 1)
  | 0xA => (columnAPage3 lo).bind (·.entry 2)
  | 0xB => (columnAPage3 lo).bind (·.entry 3)
  | _ => none

/-- `OPMAP[page][op]` (R102, R116, R117); an absent entry is an illegal opcode (R118). -/
def opMap (page : Page) (op : Byte) : Option Entry :=
  match page with
  | .one => page1 (op.toNat / 16) (op.toNat % 16)
  | .two => page2 (op.toNat / 16) (op.toNat % 16)
  | .three => page3 (op.toNat / 16) (op.toNat % 16)

/-! ## Decoding (R102 to R114, R145) -/

/-- Why a stream of bytes spells no instruction (R118, R119). -/
inductive Reject where
  /-- The opcode map has no entry (R118). -/
  | illegalOpcode (page : Page) (op : Byte)
  /-- The postbyte spells no operand (R119). -/
  | illegalPostbyte (postbyte : Byte)
deriving DecidableEq, Repr

/-- The indexed sub-mode a postbyte spells with the two bytes after it, and how many of these it uses (R110, R145); none where
R154 calls the postbyte illegal. -/
def indexedOf (pb b1 b2 : Byte) : Option (Indexed × Nat) :=
  let r := IdxReg.ofCode (pb.toNat / 32 % 4)
  let ind := pb.getLsbD 4
  if pb.getLsbD 7 = false then some (.off5 r (pb.extractLsb' 0 5), 0)
  else
    match pb.toNat % 16 with
    | 0x0 => if ind then none else some (.postInc r .one false, 0)
    | 0x1 => some (.postInc r .two ind, 0)
    | 0x2 => if ind then none else some (.preDec r .one false, 0)
    | 0x3 => some (.preDec r .two ind, 0)
    | 0x4 => some (.zero r ind, 0)
    | 0x5 => some (.accB r ind, 0)
    | 0x6 => some (.accA r ind, 0)
    | 0x8 => some (.off8 r b1 ind, 1)
    | 0x9 => some (.off16 r (joinBytes b1 b2) ind, 2)
    | 0xB => some (.accD r ind, 0)
    | 0xC => some (.pcr8 r b1 ind, 1)
    | 0xD => some (.pcr16 r (joinBytes b1 b2) ind, 2)
    | 0xF => if pb = 0x9F then some (.extInd (joinBytes b1 b2), 2) else none
    | _ => none

/-- The postbyte and operand bytes the format calls for, which begin at place `k` of the stream (R105 to R114). -/
def decodeEntry (e : Entry) (b : Nat → Byte) (k : Nat) : Except Reject (Instr × Nat) :=
  match e with
  | .inh i => .ok (i, k)
  | .imm8 mk => .ok (mk (b k), k + 1)
  | .imm16 mk => .ok (mk (joinBytes (b k) (b (k + 1))), k + 2)
  | .dir mk => .ok (mk (.dir (b k)), k + 1)
  | .ext mk => .ok (mk (.ext (joinBytes (b k) (b (k + 1)))), k + 2)
  | .idx mk =>
    match indexedOf (b k) (b (k + 1)) (b (k + 2)) with
    | some (mode, extra) => .ok (mk (.idx mode), k + 1 + extra)
    | none => .error (.illegalPostbyte (b k))
  | .lea mk =>
    match indexedOf (b k) (b (k + 1)) (b (k + 2)) with
    | some (mode, extra) => .ok (mk mode, k + 1 + extra)
    | none => .error (.illegalPostbyte (b k))
  | .rel8 mk => .ok (mk (b k), k + 1)
  | .rel16 mk => .ok (mk (joinBytes (b k) (b (k + 1))), k + 2)
  | .regpb mk =>
    match Reg.ofCode ((b k).toNat / 16), Reg.ofCode ((b k).toNat % 16) with
    | some src, some dst => .ok (mk src dst, k + 1)
    | _, _ => .error (.illegalPostbyte (b k))
  | .stkpb mk => .ok (mk (b k), k + 1)

/-- The look-up of an opcode on its page, followed by its operand (R102). -/
def decodeOn (page : Page) (op : Byte) (b : Nat → Byte) (k : Nat) : Except Reject (Instr × Nat) :=
  match opMap page op with
  | some e => decodeEntry e b k
  | none => .error (.illegalOpcode page op)

/-- `Decode()` (R102, R103): the instruction at the head of the stream and its length in bytes, or why there is none. -/
def decode (b : Nat → Byte) : Except Reject (Instr × Nat) :=
  if b 0 = 0x10 then decodeOn .two (b 1) b 2
  else if b 0 = 0x11 then decodeOn .three (b 1) b 2
  else decodeOn .one (b 0) b 1

/-- A list of bytes as a stream: zeros follow it. -/
def streamOf (l : List Byte) (k : Nat) : Byte := l.getD k 0

/-! ## Encoding: the bytes of a well-formed instruction (R100, R104, R145) -/

/-- A Word in the instruction stream, high-order byte first (R107). -/
def wordBytes (w : Word) : List Byte := [hiByte w, loByte w]

/-- A postbyte with bit 7 set: `1 rr i mmmm` (R110). -/
def postbyte (r : IdxReg) (ind : Bool) (mmmm : BitVec 4) : Byte := 1#1 ++ r.code ++ BitVec.ofBool ind ++ mmmm

/-- The postbyte and extra bytes of an indexed sub-mode (R145). -/
def encodeIndexed : Indexed → List Byte
  | .off5 r o => [0#1 ++ r.code ++ o]
  | .postInc r .one ind => [postbyte r ind 0x0]
  | .postInc r .two ind => [postbyte r ind 0x1]
  | .preDec r .one ind => [postbyte r ind 0x2]
  | .preDec r .two ind => [postbyte r ind 0x3]
  | .zero r ind => [postbyte r ind 0x4]
  | .accB r ind => [postbyte r ind 0x5]
  | .accA r ind => [postbyte r ind 0x6]
  | .accD r ind => [postbyte r ind 0xB]
  | .off8 r o ind => [postbyte r ind 0x8, o]
  | .off16 r o ind => postbyte r ind 0x9 :: wordBytes o
  | .pcr8 rr o ind => [postbyte rr ind 0xC, o]
  | .pcr16 rr o ind => postbyte rr ind 0xD :: wordBytes o
  | .extInd a => 0x9F :: wordBytes a

/-- A memory operand: the opcode byte of its format among the three, then the operand bytes (R108 to R110). -/
def encodeMem (dirOp idxOp extOp : Byte) : MemOp → List Byte
  | .dir o => [dirOp, o]
  | .idx mode => idxOp :: encodeIndexed mode
  | .ext a => extOp :: wordBytes a

/-- A column of the rows 0x, 6x, 7x (R116 (a)): `lo` is the opcode of the DIR form. -/
def encodeRmw (lo : Byte) (op : MemOp) : List Byte := encodeMem lo (lo + 0x60) (lo + 0x70) op

/-- A column of the rows 8x to Bx or Cx to Fx without its immediate form; `base` is the opcode of the immediate place (R116 (b)). -/
def encodeColumn (base : Byte) (op : MemOp) : List Byte := encodeMem (base + 0x10) (base + 0x20) (base + 0x30) op

/-- A column with an 8-bit immediate form (R106). -/
def encodeSrc8 (base : Byte) : Src8 → List Byte
  | .imm v => [base, v]
  | .mem op => encodeColumn base op

/-- A column with a 16-bit immediate form (R107). -/
def encodeSrc16 (base : Byte) : Src16 → List Byte
  | .imm v => base :: wordBytes v
  | .mem op => encodeColumn base op

/-- The postbyte `ssss dddd` (R113). -/
def regPostbyte (src dst : Reg) : Byte := src.code ++ dst.code

/-- The bytes of an instruction, in ascending address order (R100); opcodes of R116 and R117. -/
def encode : Instr → List Byte
  | .lda src => encodeSrc8 0x86 src
  | .ldb src => encodeSrc8 0xC6 src
  | .ldd src => encodeSrc16 0xCC src
  | .ldx src => encodeSrc16 0x8E src
  | .ldy src => 0x10 :: encodeSrc16 0x8E src
  | .ldu src => encodeSrc16 0xCE src
  | .lds src => 0x10 :: encodeSrc16 0xCE src
  | .sta op => encodeColumn 0x87 op
  | .stb op => encodeColumn 0xC7 op
  | .std op => encodeColumn 0xCD op
  | .stx op => encodeColumn 0x8F op
  | .sty op => 0x10 :: encodeColumn 0x8F op
  | .stu op => encodeColumn 0xCF op
  | .sts op => 0x10 :: encodeColumn 0xCF op
  | .leax mode => 0x30 :: encodeIndexed mode
  | .leay mode => 0x31 :: encodeIndexed mode
  | .leas mode => 0x32 :: encodeIndexed mode
  | .leau mode => 0x33 :: encodeIndexed mode
  | .adda src => encodeSrc8 0x8B src
  | .addb src => encodeSrc8 0xCB src
  | .adca src => encodeSrc8 0x89 src
  | .adcb src => encodeSrc8 0xC9 src
  | .addd src => encodeSrc16 0xC3 src
  | .suba src => encodeSrc8 0x80 src
  | .subb src => encodeSrc8 0xC0 src
  | .sbca src => encodeSrc8 0x82 src
  | .sbcb src => encodeSrc8 0xC2 src
  | .subd src => encodeSrc16 0x83 src
  | .cmpa src => encodeSrc8 0x81 src
  | .cmpb src => encodeSrc8 0xC1 src
  | .cmpd src => 0x10 :: encodeSrc16 0x83 src
  | .cmpx src => encodeSrc16 0x8C src
  | .cmpy src => 0x10 :: encodeSrc16 0x8C src
  | .cmpu src => 0x11 :: encodeSrc16 0x83 src
  | .cmps src => 0x11 :: encodeSrc16 0x8C src
  | .neg op => encodeRmw 0x00 op
  | .nega => [0x40]
  | .negb => [0x50]
  | .inc op => encodeRmw 0x0C op
  | .inca => [0x4C]
  | .incb => [0x5C]
  | .dec op => encodeRmw 0x0A op
  | .deca => [0x4A]
  | .decb => [0x5A]
  | .mul => [0x3D]
  | .daa => [0x19]
  | .abx => [0x3A]
  | .sex => [0x1D]
  | .anda src => encodeSrc8 0x84 src
  | .andb src => encodeSrc8 0xC4 src
  | .ora src => encodeSrc8 0x8A src
  | .orb src => encodeSrc8 0xCA src
  | .eora src => encodeSrc8 0x88 src
  | .eorb src => encodeSrc8 0xC8 src
  | .bita src => encodeSrc8 0x85 src
  | .bitb src => encodeSrc8 0xC5 src
  | .andcc mask => [0x1C, mask]
  | .orcc mask => [0x1A, mask]
  | .com op => encodeRmw 0x03 op
  | .coma => [0x43]
  | .comb => [0x53]
  | .clr op => encodeRmw 0x0F op
  | .clra => [0x4F]
  | .clrb => [0x5F]
  | .tst op => encodeRmw 0x0D op
  | .tsta => [0x4D]
  | .tstb => [0x5D]
  | .asl op => encodeRmw 0x08 op
  | .asla => [0x48]
  | .aslb => [0x58]
  | .asr op => encodeRmw 0x07 op
  | .asra => [0x47]
  | .asrb => [0x57]
  | .lsr op => encodeRmw 0x04 op
  | .lsra => [0x44]
  | .lsrb => [0x54]
  | .rol op => encodeRmw 0x09 op
  | .rola => [0x49]
  | .rolb => [0x59]
  | .ror op => encodeRmw 0x06 op
  | .rora => [0x46]
  | .rorb => [0x56]
  | .tfr src dst => [0x1F, regPostbyte src dst]
  | .exg src dst => [0x1E, regPostbyte src dst]
  | .pshs mask => [0x34, mask]
  | .puls mask => [0x35, mask]
  | .pshu mask => [0x36, mask]
  | .pulu mask => [0x37, mask]
  | .bra offset => [0x20, offset]
  | .brn offset => [0x21, offset]
  | .bhi offset => [0x22, offset]
  | .bls offset => [0x23, offset]
  | .bcc offset => [0x24, offset]
  | .bcs offset => [0x25, offset]
  | .bne offset => [0x26, offset]
  | .beq offset => [0x27, offset]
  | .bvc offset => [0x28, offset]
  | .bvs offset => [0x29, offset]
  | .bpl offset => [0x2A, offset]
  | .bmi offset => [0x2B, offset]
  | .bge offset => [0x2C, offset]
  | .blt offset => [0x2D, offset]
  | .bgt offset => [0x2E, offset]
  | .ble offset => [0x2F, offset]
  | .lbra offset => 0x16 :: wordBytes offset
  | .lbrn offset => 0x10 :: 0x21 :: wordBytes offset
  | .lbhi offset => 0x10 :: 0x22 :: wordBytes offset
  | .lbls offset => 0x10 :: 0x23 :: wordBytes offset
  | .lbcc offset => 0x10 :: 0x24 :: wordBytes offset
  | .lbcs offset => 0x10 :: 0x25 :: wordBytes offset
  | .lbne offset => 0x10 :: 0x26 :: wordBytes offset
  | .lbeq offset => 0x10 :: 0x27 :: wordBytes offset
  | .lbvc offset => 0x10 :: 0x28 :: wordBytes offset
  | .lbvs offset => 0x10 :: 0x29 :: wordBytes offset
  | .lbpl offset => 0x10 :: 0x2A :: wordBytes offset
  | .lbmi offset => 0x10 :: 0x2B :: wordBytes offset
  | .lbge offset => 0x10 :: 0x2C :: wordBytes offset
  | .lblt offset => 0x10 :: 0x2D :: wordBytes offset
  | .lbgt offset => 0x10 :: 0x2E :: wordBytes offset
  | .lble offset => 0x10 :: 0x2F :: wordBytes offset
  | .bsr offset => [0x8D, offset]
  | .lbsr offset => 0x17 :: wordBytes offset
  | .jmp op => encodeRmw 0x0E op
  | .jsr op => encodeColumn 0x8D op
  | .rts => [0x39]
  | .nop => [0x12]
  | .swi => [0x3F]
  | .swi2 => [0x10, 0x3F]
  | .swi3 => [0x11, 0x3F]
  | .rti => [0x3B]
  | .cwai mask => [0x3C, mask]
  | .sync => [0x13]

/-! ## The words of spec/opcode_table.json

The table numbers the bits of a row so that a two-byte opcode is one number with the prefix byte high (0x1021 is the pair 0x10,
0x21), and a one-byte opcode is that byte (log 12). -/

/-- How many bytes are laid out for a word of the table: the longest instruction (R121). -/
def windowLength : Nat := 5

/-- The bytes, in ascending address order, of a word of the table: a number of at least 16 bits whose bits 15..8 are a prefix byte
is that prefix followed by bits 7..0, and any further bits follow byte by byte; any other number is taken byte by byte from bit 0
up. Zeros fill the window (log 12). -/
def tableBytes (nbits w : Nat) : List Byte :=
  let v := w % 2 ^ nbits
  let byteAt (k : Nat) : Byte := BitVec.ofNat 8 (v >>> (8 * k))
  if 16 ≤ nbits ∧ (byteAt 1 = 0x10 ∨ byteAt 1 = 0x11) then [byteAt 1, byteAt 0, byteAt 2, byteAt 3, byteAt 4]
  else [byteAt 0, byteAt 1, byteAt 2, byteAt 3, byteAt 4]

/-- The instruction the decoder reads from a word of the table. -/
def decodeTableWord (nbits w : Nat) : Option Instr :=
  match decode (streamOf (tableBytes nbits w)) with
  | .ok (i, _) => some i
  | .error _ => none

end Sys2Proof
end

