-- ==== Sys2Proof/Machine/Ops.lean ====
section
/-! DEFINITION. The shared operations over memory, registers, stacks and interrupts: the byte and Word accesses
(spec/20_memory.md rules R65 to R78), the register accessors (spec/10_state.md), push and pull (R24,
spec/44_transfer_stack.md rules R346 to R349), taking an interrupt and returning from one (spec/60_exceptions.md rules R426 to
R431, spec/46_system.md rule R414). -/

namespace Sys2Proof.Machine

/-! ## The data of the cells (R61, R64; log 3) -/

/-- What an address that is not listed reads as: 0, the contents after `initialize()` (R64). -/
def unlistedByte : Byte := 0

/-- The data byte at an address. -/
def Memory.read : List Host.Cell → Nat → Byte
  | [], _ => unlistedByte
  | (k, w) :: rest, a => if k = a then w else Memory.read rest a

/-- No entry for the address any more. -/
def Memory.erase : List Host.Cell → Nat → List Host.Cell
  | [], _ => []
  | (k, w) :: rest, a => if k = a then Memory.erase rest a else (k, w) :: Memory.erase rest a

/-- An entry for the address, at its place in the rising order. -/
def Memory.insert : List Host.Cell → Nat → Byte → List Host.Cell
  | [], a, v => [(a, v)]
  | (k, w) :: rest, a, v =>
    if a < k then (a, v) :: (k, w) :: rest
    else if a = k then (a, v) :: rest
    else (k, w) :: Memory.insert rest a v

/-- The data byte at an address replaced; the byte of an unlisted address is stored by listing nothing. -/
def Memory.write (m : List Host.Cell) (a : Nat) (v : Byte) : List Host.Cell :=
  if v = unlistedByte then Memory.erase m a else Memory.insert m a v

/-- The canonical form above an address: every entry lies at it or higher, strictly rising, inside the address space (R60), and
none holds the byte of an unlisted address. -/
def Memory.wfFrom : Nat → List Host.Cell → Bool
  | _, [] => true
  | low, (k, w) :: rest => decide (low ≤ k) && decide (k < 65536) && decide (w ≠ unlistedByte) && Memory.wfFrom (k + 1) rest

/-- The canonical form of the memory. -/
def Memory.wf (m : List Host.Cell) : Bool := Memory.wfFrom 0 m

/-! ## The attributes of the cells (R61; log 15) -/

/-- The attributes of an address: those of the last pair at or below it, `current` where there is none. -/
def Attrs.get (current : CellAttr) : List (Nat × CellAttr) → Nat → CellAttr
  | [], _ => current
  | (k, v) :: rest, a => if a < k then current else Attrs.get v rest a

/-- The canonical form above an address: pairs at strictly rising addresses inside the address space, each with attributes other
than those before it. -/
def Attrs.wfFrom : Nat → CellAttr → List (Nat × CellAttr) → Bool
  | _, _, [] => true
  | low, current, (k, v) :: rest =>
    decide (low ≤ k) && decide (k < 65536) && decide (v ≠ current) && Attrs.wfFrom (k + 1) v rest

/-- The canonical form of the attributes. -/
def Attrs.wf (l : List (Nat × CellAttr)) : Bool := Attrs.wfFrom 0 CellAttr.none l

/-- The attributes of the cell at an address (R61). -/
def State.attr (a : Word) (st : State) : CellAttr := Attrs.get CellAttr.none st.attrs a.toNat

/-- The handler in a slot of the I/O dispatch table (R62). -/
def State.handler (slot : Byte) (st : State) : Config.Handler := st.ioTable.getD slot.toNat .noOp

/-! ## Registers (R20 to R27) -/

def State.setA (v : Byte) (st : State) : State := { st with a := v }
def State.setB (v : Byte) (st : State) : State := { st with b := v }
def State.setDp (v : Byte) (st : State) : State := { st with dp := v }
def State.setCc (v : Byte) (st : State) : State := { st with cc := v }
def State.setX (v : Word) (st : State) : State := { st with x := v }
def State.setY (v : Word) (st : State) : State := { st with y := v }
def State.setU (v : Word) (st : State) : State := { st with u := v }
def State.setS (v : Word) (st : State) : State := { st with s := v }
def State.setPc (v : Word) (st : State) : State := { st with pc := v }
def State.setExecState (v : ExecState) (st : State) : State := { st with execState := v }

/-- A read of D is A:B, A the high-order byte (R21). -/
def State.d (st : State) : Word := joinBytes st.a st.b
/-- `D <- v` writes A and B (R21). -/
def State.setD (v : Word) (st : State) : State := { st with a := hiByte v, b := loByte v }

/-- A write to S by LDS, LEAS, TFR or EXG with S as destination, or PULU with bit 6 set: it arms NMI when the parameter
`NMI_ARM_ON_S_LOAD` is true (R34). Which writes to S count is read from R34 (log 23); that a TFR or EXG of S with itself counts is
the model's choice (log 26). -/
def State.loadS (v : Word) (st : State) : State :=
  { st with s := v, nmiArmed := st.nmiArmed || st.params.nmiArmOnSLoad }

/-! ## Memory accesses -/

/-- `MemRead(addr, 1)` (R65): the stored byte, whatever the flags of the cell; no side effect. -/
def memRead8 (addr : Word) (st : State) : Byte := Memory.read st.mem addr.toNat

/-- `MemRead(addr, 2)` (R77): big-endian (R76), addresses modulo 65,536. -/
def memRead16 (addr : Word) (st : State) : Word := joinBytes (memRead8 addr st) (memRead8 (addr + 1) st)

/-- `mem[a].data <- v` (R61). -/
def State.storeByte (addr : Word) (v : Byte) (st : State) : State := { st with mem := Memory.write st.mem addr.toNat v }

/-- The exchange at the I/O handler port after a successful write to an I/O cell (R67, R68, R69): the handler is called once, the
cell holds its answer, and an environment's handler may change the two lines. The answer of the environment is a free value
(log 7); the no-op handler answers its data argument (R62, D20). -/
def callHandler (h : Config.Handler) (addr : Word) (v : Byte) (st : State) : State :=
  let call : Config.IoCall := { handler := h, address := addr, data := v, operation := .write }
  match h with
  | .noOp => { State.storeByte addr v st with ioCalls := call :: st.ioCalls }
  | .env _ =>
    let reply := Config.ioReply st.freeIndex call
    { State.storeByte addr reply.data st with
      firqLine := reply.firqLine
      irqLine := reply.irqLine
      ioCalls := call :: st.ioCalls
      freeIndex := st.freeIndex + 1 }

/-- `MemWrite(addr, 1, v)` (R69): a write to a ROM cell is dropped, with or without the I/O flag (D18); a write to an I/O cell
calls the handler of its slot; any other write is stored. -/
def memWrite8 (addr : Word) (v : Byte) (st : State) : State :=
  if (st.attr addr).isRom then st
  else if (st.attr addr).isIo then callHandler (st.handler (st.attr addr).ioIndex) addr v st
  else st.storeByte addr v

/-- `MemWrite(addr, 2, v)` (R78): the high byte at `addr` first, then the low byte at `addr + 1`, modulo 65,536. -/
def memWrite16 (addr : Word) (v : Word) (st : State) : State :=
  memWrite8 (addr + 1) (loByte v) (memWrite8 addr (hiByte v) st)

/-! ## Stacks (R24) -/

/-- The two stack pointers (R24). -/
inductive StackReg where
  | s
  | u
deriving DecidableEq, Repr

/-- The other stack pointer: bit 6 of the push/pull postbyte names it (R346). -/
def StackReg.other : StackReg → StackReg
  | .s => .u
  | .u => .s

def State.sp (r : StackReg) (st : State) : Word :=
  match r with
  | .s => st.s
  | .u => st.u

/-- The step of a stack pointer by its own push or pull: it arms nothing (R34). -/
def State.setSp (r : StackReg) (v : Word) (st : State) : State :=
  match r with
  | .s => st.setS v
  | .u => st.setU v

/-- A stack pointer pulled from the other's stack: PULU with bit 6 is a write to S that arms NMI (R34, R352). -/
def State.loadSp (r : StackReg) (v : Word) (st : State) : State :=
  match r with
  | .s => st.loadS v
  | .u => st.setU v

/-- `Push8(sp, v)` (R24). -/
def push8 (r : StackReg) (v : Byte) (st : State) : State :=
  memWrite8 (st.sp r - 1) v (st.setSp r (st.sp r - 1))

/-- `Push16(sp, w)`: the low byte first (R24). -/
def push16 (r : StackReg) (w : Word) (st : State) : State := push8 r (hiByte w) (push8 r (loByte w) st)

/-- `Pull8(sp)`: the byte, and the state with the stack pointer moved (R24). -/
def pull8 (r : StackReg) (st : State) : Byte × State := (memRead8 (st.sp r) st, st.setSp r (st.sp r + 1))

/-- `Pull16(sp)`: the high byte first (R24). -/
def pull16 (r : StackReg) (st : State) : Word × State :=
  (memRead16 (st.sp r) st, st.setSp r (st.sp r + 2))

/-- `f` when the bit of the mask is set, else nothing. -/
def onBit (mask : Byte) (bit : Nat) (f : State → State) (st : State) : State :=
  if mask.getLsbD bit then f st else st

/-- `PushRegs(sp, op, pb)` (R347): from bit 7 down to bit 0. -/
def pushRegs (r : StackReg) (mask : Byte) (st : State) : State :=
  let st := onBit mask 7 (fun st => push16 r st.pc st) st
  let st := onBit mask 6 (fun st => push16 r (st.sp r.other) st) st
  let st := onBit mask 5 (fun st => push16 r st.y st) st
  let st := onBit mask 4 (fun st => push16 r st.x st) st
  let st := onBit mask 3 (fun st => push8 r st.dp st) st
  let st := onBit mask 2 (fun st => push8 r st.b st) st
  let st := onBit mask 1 (fun st => push8 r st.a st) st
  onBit mask 0 (fun st => push8 r st.cc st) st

/-- A byte pulled into a register. -/
def pullInto8 (r : StackReg) (set : Byte → State → State) (st : State) : State :=
  set (pull8 r st).1 (pull8 r st).2

/-- A Word pulled into a register. -/
def pullInto16 (r : StackReg) (set : Word → State → State) (st : State) : State :=
  set (pull16 r st).1 (pull16 r st).2

/-- `PullRegs(sp, op, pb)` (R349): from bit 0 up to bit 7. -/
def pullRegs (r : StackReg) (mask : Byte) (st : State) : State :=
  let st := onBit mask 0 (pullInto8 r State.setCc) st
  let st := onBit mask 1 (pullInto8 r State.setA) st
  let st := onBit mask 2 (pullInto8 r State.setB) st
  let st := onBit mask 3 (pullInto8 r State.setDp) st
  let st := onBit mask 4 (pullInto16 r State.setX) st
  let st := onBit mask 5 (pullInto16 r State.setY) st
  let st := onBit mask 6 (pullInto16 r (State.loadSp r.other)) st
  onBit mask 7 (pullInto16 r State.setPc) st

/-- How many bytes a push/pull mask moves (R346). -/
def maskBytes (mask : Byte) : Nat :=
  let n (bit size : Nat) : Nat := if mask.getLsbD bit then size else 0
  n 7 2 + n 6 2 + n 5 2 + n 4 2 + n 3 1 + n 2 1 + n 1 1 + n 0 1

/-- `PushEntire()` (R430): the twelve bytes of the whole register file, on S. -/
def pushEntire (st : State) : State :=
  let st := push16 .s st.pc st
  let st := push16 .s st.u st
  let st := push16 .s st.y st
  let st := push16 .s st.x st
  let st := push8 .s st.dp st
  let st := push8 .s st.b st
  let st := push8 .s st.a st
  push8 .s st.cc st

/-! ## Taking an interrupt (R426 to R431) -/

/-- The entries of R431 that stack a frame. -/
inductive EntryKind where
  | nmi
  | swi
  | irq
  | firq
  | swi2
  | swi3
deriving DecidableEq, Repr

/-- E, and with it whether the entire register file is stacked or PC and CC only (R431). -/
def EntryKind.entire : EntryKind → Bool
  | .firq => false
  | .nmi | .swi | .irq | .swi2 | .swi3 => true

/-- Whether the entry sets I (R431, D5). -/
def EntryKind.setsI : EntryKind → Bool
  | .nmi | .swi | .irq | .firq => true
  | .swi2 | .swi3 => false

/-- Whether the entry sets F (R431, D5). -/
def EntryKind.setsF : EntryKind → Bool
  | .nmi | .swi | .firq => true
  | .irq | .swi2 | .swi3 => false

/-- The address of the entry's vector (R82, R431). -/
def EntryKind.vector (params : Config.Params) : EntryKind → Word
  | .nmi => Config.nmiVector
  | .swi => Config.swiVector
  | .irq => Config.irqVector
  | .firq => params.firqVector.address
  | .swi2 => Config.swi2Vector
  | .swi3 => Config.swi3Vector

/-- `CC.E <- v`: E is bit 7 (R27). -/
def ccWithE (v : Bool) (cc : Byte) : Byte := if v then cc ||| 0x80 else cc &&& 0x7F

/-- The mask bits an entry leaves: I is bit 4, F is bit 6 (R27, R431). -/
def EntryKind.masks (k : EntryKind) (cc : Byte) : Byte :=
  cc ||| (if k.setsI then 0x10 else 0) ||| (if k.setsF then 0x40 else 0)

/-- The second half of an entry, shared with the wake from CWAI (R429 (c), (e), R435): the mask bits, then the vector. -/
def vectorTo (k : EntryKind) (st : State) : State :=
  let st := st.setCc (k.masks st.cc)
  st.setPc (memRead16 (k.vector st.params) st)

/-- What an entry stacks (R426 to R428, R430): the entire register file, or PC and CC. -/
def stackFrame (entire : Bool) (st : State) : State :=
  if entire then pushEntire st
  else
    let st := push16 .s st.pc st
    push8 .s st.cc st

/-- An entry: E is written, the frame is stacked, the masks are set, the vector is loaded (R426 to R429, R411 to R413). The PC
stacked is the one in `st`. -/
def takeInterrupt (k : EntryKind) (st : State) : State :=
  vectorTo k (stackFrame k.entire (st.setCc (ccWithE k.entire st.cc)))

/-- RTI (R414): the E just pulled says whether twelve bytes are pulled or three. -/
def returnFromInterrupt (st : State) : State :=
  let st := pullInto8 .s State.setCc st
  if st.cc.getLsbD 7 then pullRegs .s 0xFE st else pullInto16 .s State.setPc st

end Sys2Proof.Machine
end

