-- ==== Sys2Proof/Machine/Operands.lean ====
section
/-! DEFINITION. Operand resolution (spec/40_addressing.md rules R140 to R155). PC in the state given to these functions already
addresses the next instruction (R25, log 24). A resolution answers the address or value and the state after it: an auto increment
or decrement writes its base register here, before the instruction proper (R148, R153). -/

namespace Sys2Proof.Machine

/-- The base register (R146). -/
def State.idx (r : IdxReg) (st : State) : Word :=
  match r with
  | .x => st.x
  | .y => st.y
  | .u => st.u
  | .s => st.s

/-- A base register written by auto increment or decrement: a write to S here arms nothing (R34 does not name it). -/
def State.setIdx (r : IdxReg) (v : Word) (st : State) : State :=
  match r with
  | .x => st.setX v
  | .y => st.setY v
  | .u => st.setU v
  | .s => st.setS v

/-- 1 or 2, chosen by the postbyte (R148). -/
def autoBytes : AutoAmount → Word
  | .one => 1
  | .two => 2

/-- `sext_16` of a Byte (R10, R115). -/
def sext16 (v : Byte) : Word := v.signExtend 16
/-- `sext_16` of a 5-bit offset (R115). -/
def sext5 (v : BitVec 5) : Word := v.signExtend 16

/-- The address the sub-mode computes, before indirection (R145 to R151). -/
def idxAddress (m : Indexed) (st : State) : Word × State :=
  match m with
  | .off5 r o => (st.idx r + sext5 o, st)
  | .postInc r n _ => (st.idx r, st.setIdx r (st.idx r + autoBytes n))
  | .preDec r n _ => (st.idx r - autoBytes n, st.setIdx r (st.idx r - autoBytes n))
  | .zero r _ => (st.idx r, st)
  | .accB r _ => (st.idx r + sext16 st.b, st)
  | .accA r _ => (st.idx r + sext16 st.a, st)
  | .accD r _ => (st.idx r + st.d, st)
  | .off8 r o _ => (st.idx r + sext16 o, st)
  | .off16 r o _ => (st.idx r + o, st)
  | .pcr8 _ o _ => (st.pc + sext16 o, st)
  | .pcr16 _ o _ => (st.pc + o, st)
  | .extInd a => (a, st)

/-- Whether the sub-mode goes through a pointer: bit 4 of a postbyte with bit 7 set (R145, R152). -/
def isIndirect (m : Indexed) : Bool :=
  match m with
  | .off5 _ _ => false
  | .extInd _ => true
  | .postInc _ _ ind | .preDec _ _ ind | .zero _ ind | .accB _ ind | .accA _ ind | .accD _ ind | .off8 _ _ ind
  | .off16 _ _ ind | .pcr8 _ _ ind | .pcr16 _ _ ind => ind

/-- `EA(IDX)` (R145): the computed address, or the Word stored there (R152). -/
def eaIdx (m : Indexed) (st : State) : Word × State :=
  let p := idxAddress m st
  if isIndirect m then (memRead16 p.1 p.2, p.2) else p

/-- `EA(mode)` (R140, R143, R144): the direct page is the high byte, never sign-extended, with no carry into it. -/
def ea (m : MemOp) (st : State) : Word × State :=
  match m with
  | .dir o => (joinBytes st.dp o, st)
  | .ext a => (a, st)
  | .idx mode => eaIdx mode st

/-- `Operand8(mode)` (R141). -/
def operand8 (src : Src8) (st : State) : Byte × State :=
  match src with
  | .imm v => (v, st)
  | .mem m => (memRead8 (ea m st).1 (ea m st).2, (ea m st).2)

/-- `Operand16(mode)` (R141). -/
def operand16 (src : Src16) (st : State) : Word × State :=
  match src with
  | .imm v => (v, st)
  | .mem m => (memRead16 (ea m st).1 (ea m st).2, (ea m st).2)

/-- The target of REL8 (R155): the next instruction plus the sign-extended offset. -/
def target8 (o : Byte) (st : State) : Word := st.pc + sext16 o

/-- The target of REL16 (R155). -/
def target16 (o : Word) (st : State) : Word := st.pc + o

/-- `TREG[code]` of a 16-bit register (R340); PC reads as the next instruction's address (R345). -/
def State.reg16 (r : Reg16) (st : State) : Word :=
  match r with
  | .d => st.d
  | .x => st.x
  | .y => st.y
  | .u => st.u
  | .s => st.s
  | .pc => st.pc

/-- A write to a 16-bit register by TFR or EXG: D writes A and B, PC jumps, S arms NMI (R340, R342, R34). A write of S to itself arms
too, where R120 and R342 say that TFR or EXG of a register with itself changes nothing: the model's choice, log 26. -/
def State.setReg16 (r : Reg16) (v : Word) (st : State) : State :=
  match r with
  | .d => st.setD v
  | .x => st.setX v
  | .y => st.setY v
  | .u => st.setU v
  | .s => st.loadS v
  | .pc => st.setPc v

/-- `TREG[code]` of an 8-bit register (R340). -/
def State.reg8 (r : Reg8) (st : State) : Byte :=
  match r with
  | .a => st.a
  | .b => st.b
  | .cc => st.cc
  | .dp => st.dp

/-- A write to an 8-bit register by TFR or EXG: CC is replaced whole (R340). -/
def State.setReg8 (r : Reg8) (v : Byte) (st : State) : State :=
  match r with
  | .a => st.setA v
  | .b => st.setB v
  | .cc => st.setCc v
  | .dp => st.setDp v

end Sys2Proof.Machine
end

