-- ==== Sys2Proof/Machine/Alu.lean ====
section
/-! DEFINITION. The shapes shared by the arithmetic, logic and shift instructions (spec/42_arithmetic.md rule R236, spec/43_logic_shift.md
rule R280): operand resolution first, then the result and the flags from the old values. -/

namespace Sys2Proof.Machine

/-- An 8-bit operation on an accumulator and a source operand: `f` gives the result, `fl` the condition codes, both from the
accumulator, the operand and the condition codes before (R237, R153). -/
def alu8 (get : State → Byte) (set : Byte → State → State) (f : Byte → Byte → Byte → Byte) (fl : Byte → Byte → Byte → Byte)
    (src : Src8) (st : State) : State :=
  let m := operand8 src st
  (set (f (get m.2) m.1 m.2.cc) m.2).setCc (fl (get m.2) m.1 m.2.cc)

/-- A comparison or bit test: the result is discarded (R247, R287). -/
def test8 (get : State → Byte) (fl : Byte → Byte → Byte → Byte) (src : Src8) (st : State) : State :=
  let m := operand8 src st
  m.2.setCc (fl (get m.2) m.1 m.2.cc)

/-- ADDD and SUBD (R241, R246). -/
def aluD (f : Word → Word → Word) (fl : Word → Word → Byte → Byte) (src : Src16) (st : State) : State :=
  let m := operand16 src st
  (m.2.setD (f m.2.d m.1)).setCc (fl m.2.d m.1 m.2.cc)

/-- A 16-bit comparison: the register is read after the operand is resolved (R249, R153). -/
def compare16 (get : State → Word) (src : Src16) (st : State) : State :=
  let m := operand16 src st
  m.2.setCc (ccSub16 (get m.2) m.1 m.2.cc)

/-- A read-modify-write of a memory byte: `f` gives the new byte and `fl` the condition codes, from the byte and the condition codes
before; the address is resolved once (R254, R80 (e), R236, R280). -/
def modifyMem (f : Byte → Byte → Byte) (fl : Byte → Byte → Byte) (dst : MemOp) (st : State) : State :=
  let p := ea dst st
  let m := memRead8 p.1 p.2
  (memWrite8 p.1 (f m p.2.cc) p.2).setCc (fl m p.2.cc)

/-- The same operation on an accumulator (R255). -/
def modifyReg (get : State → Byte) (set : Byte → State → State) (f : Byte → Byte → Byte) (fl : Byte → Byte → Byte)
    (st : State) : State :=
  (set (f (get st) st.cc) st).setCc (fl (get st) st.cc)

end Sys2Proof.Machine
end

