-- ==== Sys2Proof/Machine/Arithmetic.lean ====
section
/-! DEFINITION. Arithmetic (spec/42_arithmetic.md rules R237 to R266). -/

namespace Sys2Proof.Machine

/-! ## Addition -/

/-- ADDA (R237). -/
def execAdda (src : Src8) (st : State) : Result :=
  .next (alu8 State.a State.setA (fun r m _ => add8 r m false) (fun r m cc => ccAdd8 r m false cc) src st)

/-- ADDB (R238). -/
def execAddb (src : Src8) (st : State) : Result :=
  .next (alu8 State.b State.setB (fun r m _ => add8 r m false) (fun r m cc => ccAdd8 r m false cc) src st)

/-- ADCA (R239). -/
def execAdca (src : Src8) (st : State) : Result :=
  .next (alu8 State.a State.setA (fun r m cc => add8 r m (flag .c cc)) (fun r m cc => ccAdd8 r m (flag .c cc) cc) src st)

/-- ADCB (R240). -/
def execAdcb (src : Src8) (st : State) : Result :=
  .next (alu8 State.b State.setB (fun r m cc => add8 r m (flag .c cc)) (fun r m cc => ccAdd8 r m (flag .c cc) cc) src st)

/-- ADDD (R241). -/
def execAddd (src : Src16) (st : State) : Result := .next (aluD add16 ccAdd16 src st)

/-! ## Subtraction and comparison -/

/-- SUBA (R242). -/
def execSuba (src : Src8) (st : State) : Result :=
  .next (alu8 State.a State.setA (fun r m _ => sub8 r m false) (fun r m cc => ccSub8 r m false cc) src st)

/-- SUBB (R243). -/
def execSubb (src : Src8) (st : State) : Result :=
  .next (alu8 State.b State.setB (fun r m _ => sub8 r m false) (fun r m cc => ccSub8 r m false cc) src st)

/-- SBCA (R244). -/
def execSbca (src : Src8) (st : State) : Result :=
  .next (alu8 State.a State.setA (fun r m cc => sub8 r m (flag .c cc)) (fun r m cc => ccSub8 r m (flag .c cc) cc) src st)

/-- SBCB (R245). -/
def execSbcb (src : Src8) (st : State) : Result :=
  .next (alu8 State.b State.setB (fun r m cc => sub8 r m (flag .c cc)) (fun r m cc => ccSub8 r m (flag .c cc) cc) src st)

/-- SUBD (R246). -/
def execSubd (src : Src16) (st : State) : Result := .next (aluD sub16 ccSub16 src st)

/-- CMPA (R247). -/
def execCmpa (src : Src8) (st : State) : Result := .next (test8 State.a (fun r m cc => ccSub8 r m false cc) src st)

/-- CMPB (R248). -/
def execCmpb (src : Src8) (st : State) : Result := .next (test8 State.b (fun r m cc => ccSub8 r m false cc) src st)

/-- CMPD (R249). -/
def execCmpd (src : Src16) (st : State) : Result := .next (compare16 State.d src st)

/-- CMPX (R250). -/
def execCmpx (src : Src16) (st : State) : Result := .next (compare16 State.x src st)

/-- CMPY (R251). -/
def execCmpy (src : Src16) (st : State) : Result := .next (compare16 State.y src st)

/-- CMPU (R252). -/
def execCmpu (src : Src16) (st : State) : Result := .next (compare16 State.u src st)

/-- CMPS (R253). -/
def execCmps (src : Src16) (st : State) : Result := .next (compare16 State.s src st)

/-! ## Negate, increment, decrement -/

/-- NEG on memory (R254). -/
def execNeg (dst : MemOp) (st : State) : Result := .next (modifyMem (fun m _ => negValue m) ccNeg dst st)

/-- NEGA (R255). -/
def execNega (st : State) : Result := .next (modifyReg State.a State.setA (fun m _ => negValue m) ccNeg st)

/-- NEGB (R256). -/
def execNegb (st : State) : Result := .next (modifyReg State.b State.setB (fun m _ => negValue m) ccNeg st)

/-- INC on memory (R257). -/
def execInc (dst : MemOp) (st : State) : Result := .next (modifyMem (fun m _ => incValue m) ccInc dst st)

/-- INCA (R258). -/
def execInca (st : State) : Result := .next (modifyReg State.a State.setA (fun m _ => incValue m) ccInc st)

/-- INCB (R259). -/
def execIncb (st : State) : Result := .next (modifyReg State.b State.setB (fun m _ => incValue m) ccInc st)

/-- DEC on memory (R260). -/
def execDec (dst : MemOp) (st : State) : Result := .next (modifyMem (fun m _ => decValue m) ccDec dst st)

/-- DECA (R261). -/
def execDeca (st : State) : Result := .next (modifyReg State.a State.setA (fun m _ => decValue m) ccDec st)

/-- DECB (R262). -/
def execDecb (st : State) : Result := .next (modifyReg State.b State.setB (fun m _ => decValue m) ccDec st)

/-! ## Multiply, decimal adjust, ABX, SEX -/

/-- MUL: unsigned, into D (R263). -/
def execMul (st : State) : Result := .next ((st.setD (mulValue st.a st.b)).setCc (ccMul (mulValue st.a st.b) st.cc))

/-- DAA (R264); V takes a free value, taken at the state's counter, which moves on (D11, log 5). -/
def execDaa (st : State) : Result :=
  .next { (st.setA (daaValue st.a st.cc)).setCc (ccDaa (Config.daaV st.freeIndex st.a st.cc) st.a st.cc) with
    freeIndex := st.freeIndex + 1 }

/-- ABX: B is unsigned, no flag is written (R265). -/
def execAbx (st : State) : Result := .next (st.setX (st.x + st.b.zeroExtend 16))

/-- SEX: N and Z from D, V kept (R266, D21). -/
def execSex (st : State) : Result := .next ((st.setA (sexValue st.b)).setCc (ccNz16 (joinBytes (sexValue st.b) st.b) st.cc))

end Sys2Proof.Machine
end

