-- ==== Sys2Proof/Machine/Branch.lean ====
section
/-! DEFINITION. Branches, calls, jumps and return (spec/45_branch_jump.md rules R360 to R398). -/

namespace Sys2Proof.Machine

/-- A branch: PC takes the target where the condition holds, else stays at the next instruction (R360, R361). -/
def branchTo (k : Cond) (target : Word) (st : State) : State :=
  if holds k st.cc then st.setPc target else st

/-- A call: the return address, PC, is pushed on S, then PC takes the target (R378, R397). -/
def callTo (target : Word) (st : State) : State := (push16 .s st.pc st).setPc target

/-! ## Short branches -/

/-- BRA (R362). -/
def execBra (offset : Byte) (st : State) : Result := .next (branchTo .ra (target8 offset st) st)

/-- BRN (R363). -/
def execBrn (offset : Byte) (st : State) : Result := .next (branchTo .rn (target8 offset st) st)

/-- BHI (R364). -/
def execBhi (offset : Byte) (st : State) : Result := .next (branchTo .hi (target8 offset st) st)

/-- BLS (R365). -/
def execBls (offset : Byte) (st : State) : Result := .next (branchTo .ls (target8 offset st) st)

/-- BCC (R366). -/
def execBcc (offset : Byte) (st : State) : Result := .next (branchTo .cc (target8 offset st) st)

/-- BCS (R367). -/
def execBcs (offset : Byte) (st : State) : Result := .next (branchTo .cs (target8 offset st) st)

/-- BNE (R368). -/
def execBne (offset : Byte) (st : State) : Result := .next (branchTo .ne (target8 offset st) st)

/-- BEQ (R369). -/
def execBeq (offset : Byte) (st : State) : Result := .next (branchTo .eq (target8 offset st) st)

/-- BVC (R370). -/
def execBvc (offset : Byte) (st : State) : Result := .next (branchTo .vc (target8 offset st) st)

/-- BVS (R371). -/
def execBvs (offset : Byte) (st : State) : Result := .next (branchTo .vs (target8 offset st) st)

/-- BPL (R372). -/
def execBpl (offset : Byte) (st : State) : Result := .next (branchTo .pl (target8 offset st) st)

/-- BMI (R373). -/
def execBmi (offset : Byte) (st : State) : Result := .next (branchTo .mi (target8 offset st) st)

/-- BGE (R374). -/
def execBge (offset : Byte) (st : State) : Result := .next (branchTo .ge (target8 offset st) st)

/-- BLT (R375). -/
def execBlt (offset : Byte) (st : State) : Result := .next (branchTo .lt (target8 offset st) st)

/-- BGT (R376). -/
def execBgt (offset : Byte) (st : State) : Result := .next (branchTo .gt (target8 offset st) st)

/-- BLE (R377). -/
def execBle (offset : Byte) (st : State) : Result := .next (branchTo .le (target8 offset st) st)

/-! ## Long branches -/

/-- LBRA (R379). -/
def execLbra (offset : Word) (st : State) : Result := .next (branchTo .ra (target16 offset st) st)

/-- LBRN (R380). -/
def execLbrn (offset : Word) (st : State) : Result := .next (branchTo .rn (target16 offset st) st)

/-- LBHI (R381). -/
def execLbhi (offset : Word) (st : State) : Result := .next (branchTo .hi (target16 offset st) st)

/-- LBLS (R382). -/
def execLbls (offset : Word) (st : State) : Result := .next (branchTo .ls (target16 offset st) st)

/-- LBCC (R383). -/
def execLbcc (offset : Word) (st : State) : Result := .next (branchTo .cc (target16 offset st) st)

/-- LBCS (R384). -/
def execLbcs (offset : Word) (st : State) : Result := .next (branchTo .cs (target16 offset st) st)

/-- LBNE (R385). -/
def execLbne (offset : Word) (st : State) : Result := .next (branchTo .ne (target16 offset st) st)

/-- LBEQ (R386). -/
def execLbeq (offset : Word) (st : State) : Result := .next (branchTo .eq (target16 offset st) st)

/-- LBVC (R387). -/
def execLbvc (offset : Word) (st : State) : Result := .next (branchTo .vc (target16 offset st) st)

/-- LBVS (R388). -/
def execLbvs (offset : Word) (st : State) : Result := .next (branchTo .vs (target16 offset st) st)

/-- LBPL (R389). -/
def execLbpl (offset : Word) (st : State) : Result := .next (branchTo .pl (target16 offset st) st)

/-- LBMI (R390). -/
def execLbmi (offset : Word) (st : State) : Result := .next (branchTo .mi (target16 offset st) st)

/-- LBGE (R391). -/
def execLbge (offset : Word) (st : State) : Result := .next (branchTo .ge (target16 offset st) st)

/-- LBLT (R392). -/
def execLblt (offset : Word) (st : State) : Result := .next (branchTo .lt (target16 offset st) st)

/-- LBGT (R393). -/
def execLbgt (offset : Word) (st : State) : Result := .next (branchTo .gt (target16 offset st) st)

/-- LBLE (R394). -/
def execLble (offset : Word) (st : State) : Result := .next (branchTo .le (target16 offset st) st)

/-! ## Calls, jumps, return -/

/-- BSR (R378). -/
def execBsr (offset : Byte) (st : State) : Result := .next (callTo (target8 offset st) st)

/-- LBSR (R395). -/
def execLbsr (offset : Word) (st : State) : Result := .next (callTo (target16 offset st) st)

/-- JMP: the address itself; no data access (R396). -/
def execJmp (target : MemOp) (st : State) : Result :=
  let p := ea target st
  .next (p.2.setPc p.1)

/-- JSR: the address is resolved first, then the return address is pushed (R397, R153 (d)). -/
def execJsr (target : MemOp) (st : State) : Result :=
  let p := ea target st
  .next (callTo p.1 p.2)

/-- RTS (R398). -/
def execRts (st : State) : Result := .next (pullInto16 .s State.setPc st)

end Sys2Proof.Machine
end

