-- ==== Sys2Proof/Machine/LoadStore.lean ====
section
/-! DEFINITION. Loads, stores and load effective address (spec/41_load_store.md rules R200 to R218). -/

namespace Sys2Proof.Machine

/-- A load of a Byte: the operand is resolved, then the register is written (R200, R153). -/
def load8 (set : Byte → State → State) (src : Src8) (st : State) : State :=
  let m := operand8 src st
  (set m.1 m.2).setCc (ccMove8 m.1 m.2.cc)

/-- A load of a Word (R200, R153). -/
def load16 (set : Word → State → State) (src : Src16) (st : State) : State :=
  let m := operand16 src st
  (set m.1 m.2).setCc (ccMove16 m.1 m.2.cc)

/-- A store of a Byte: the address is resolved, then the register is read (R153); the flags come from the register value, whatever
the memory does with it (R71, R208). -/
def store8 (get : State → Byte) (dst : MemOp) (st : State) : State :=
  let p := ea dst st
  (memWrite8 p.1 (get p.2) p.2).setCc (ccMove8 (get p.2) p.2.cc)

/-- A store of a Word (R210, R78). -/
def store16 (get : State → Word) (dst : MemOp) (st : State) : State :=
  let p := ea dst st
  (memWrite16 p.1 (get p.2) p.2).setCc (ccMove16 (get p.2) p.2.cc)

/-- LDA (R201). -/
def execLda (src : Src8) (st : State) : Result := .next (load8 State.setA src st)

/-- LDB (R202). -/
def execLdb (src : Src8) (st : State) : Result := .next (load8 State.setB src st)

/-- LDD (R203). -/
def execLdd (src : Src16) (st : State) : Result := .next (load16 State.setD src st)

/-- LDX (R204). -/
def execLdx (src : Src16) (st : State) : Result := .next (load16 State.setX src st)

/-- LDY (R205). -/
def execLdy (src : Src16) (st : State) : Result := .next (load16 State.setY src st)

/-- LDU (R206). -/
def execLdu (src : Src16) (st : State) : Result := .next (load16 State.setU src st)

/-- LDS (R207); it arms NMI where the parameter says so (R34). -/
def execLds (src : Src16) (st : State) : Result := .next (load16 State.loadS src st)

/-- STA (R208). -/
def execSta (dst : MemOp) (st : State) : Result := .next (store8 State.a dst st)

/-- STB (R209). -/
def execStb (dst : MemOp) (st : State) : Result := .next (store8 State.b dst st)

/-- STD (R210). -/
def execStd (dst : MemOp) (st : State) : Result := .next (store16 State.d dst st)

/-- STX (R211). -/
def execStx (dst : MemOp) (st : State) : Result := .next (store16 State.x dst st)

/-- STY (R212). -/
def execSty (dst : MemOp) (st : State) : Result := .next (store16 State.y dst st)

/-- STU (R213). -/
def execStu (dst : MemOp) (st : State) : Result := .next (store16 State.u dst st)

/-- STS (R214). -/
def execSts (dst : MemOp) (st : State) : Result := .next (store16 State.s dst st)

/-- LEAX and LEAY: the effective address is written to the register, after any change of the base register, and sets Z alone
(R215, R153 (c)). -/
def leaIndex (set : Word → State → State) (mode : Indexed) (st : State) : State :=
  let p := eaIdx mode st
  (set p.1 p.2).setCc (ccLea p.1 p.2.cc)

/-- LEAS and LEAU: no flag is written (R217). -/
def leaStack (set : Word → State → State) (mode : Indexed) (st : State) : State :=
  let p := eaIdx mode st
  set p.1 p.2

/-- LEAX (R215). -/
def execLeax (mode : Indexed) (st : State) : Result := .next (leaIndex State.setX mode st)

/-- LEAY (R216). -/
def execLeay (mode : Indexed) (st : State) : Result := .next (leaIndex State.setY mode st)

/-- LEAS (R217); it arms NMI where the parameter says so (R34). -/
def execLeas (mode : Indexed) (st : State) : Result := .next (leaStack State.loadS mode st)

/-- LEAU (R218). -/
def execLeau (mode : Indexed) (st : State) : Result := .next (leaStack State.setU mode st)

end Sys2Proof.Machine
end

