-- ==== Sys2Proof/Machine/Logic.lean ====
section
/-! DEFINITION. Logic, condition-code masks, complement, clear, test (spec/43_logic_shift.md rules R281 to R299). -/

namespace Sys2Proof.Machine

/-- ANDA (R281). -/
def execAnda (src : Src8) (st : State) : Result :=
  .next (alu8 State.a State.setA (fun r m _ => r &&& m) (fun r m cc => ccMove8 (r &&& m) cc) src st)

/-- ANDB (R282). -/
def execAndb (src : Src8) (st : State) : Result :=
  .next (alu8 State.b State.setB (fun r m _ => r &&& m) (fun r m cc => ccMove8 (r &&& m) cc) src st)

/-- ORA (R283). -/
def execOra (src : Src8) (st : State) : Result :=
  .next (alu8 State.a State.setA (fun r m _ => r ||| m) (fun r m cc => ccMove8 (r ||| m) cc) src st)

/-- ORB (R284). -/
def execOrb (src : Src8) (st : State) : Result :=
  .next (alu8 State.b State.setB (fun r m _ => r ||| m) (fun r m cc => ccMove8 (r ||| m) cc) src st)

/-- EORA (R285). -/
def execEora (src : Src8) (st : State) : Result :=
  .next (alu8 State.a State.setA (fun r m _ => r ^^^ m) (fun r m cc => ccMove8 (r ^^^ m) cc) src st)

/-- EORB (R286). -/
def execEorb (src : Src8) (st : State) : Result :=
  .next (alu8 State.b State.setB (fun r m _ => r ^^^ m) (fun r m cc => ccMove8 (r ^^^ m) cc) src st)

/-- BITA (R287). -/
def execBita (src : Src8) (st : State) : Result := .next (test8 State.a (fun r m cc => ccMove8 (r &&& m) cc) src st)

/-- BITB (R288). -/
def execBitb (src : Src8) (st : State) : Result := .next (test8 State.b (fun r m cc => ccMove8 (r &&& m) cc) src st)

/-- ANDCC: all eight bits are reachable (R289). -/
def execAndcc (mask : Byte) (st : State) : Result := .next (st.setCc (st.cc &&& mask))

/-- ORCC (R290). -/
def execOrcc (mask : Byte) (st : State) : Result := .next (st.setCc (st.cc ||| mask))

/-- COM on memory (R291). -/
def execCom (dst : MemOp) (st : State) : Result := .next (modifyMem (fun m _ => comValue m) ccCom dst st)

/-- COMA (R292). -/
def execComa (st : State) : Result := .next (modifyReg State.a State.setA (fun m _ => comValue m) ccCom st)

/-- COMB (R293). -/
def execComb (st : State) : Result := .next (modifyReg State.b State.setB (fun m _ => comValue m) ccCom st)

/-- CLR on memory: one write and no read (R294, D17). -/
def execClr (dst : MemOp) (st : State) : Result :=
  let p := ea dst st
  .next ((memWrite8 p.1 0 p.2).setCc (ccClr p.2.cc))

/-- CLRA (R295). -/
def execClra (st : State) : Result := .next ((st.setA 0).setCc (ccClr st.cc))

/-- CLRB (R296). -/
def execClrb (st : State) : Result := .next ((st.setB 0).setCc (ccClr st.cc))

/-- TST on memory: one read and no write (R297). -/
def execTst (src : MemOp) (st : State) : Result :=
  let p := ea src st
  .next (p.2.setCc (ccMove8 (memRead8 p.1 p.2) p.2.cc))

/-- TSTA (R298). -/
def execTsta (st : State) : Result := .next (st.setCc (ccMove8 st.a st.cc))

/-- TSTB (R299). -/
def execTstb (st : State) : Result := .next (st.setCc (ccMove8 st.b st.cc))

end Sys2Proof.Machine
end

