-- ==== Sys2Proof/Machine/Shift.lean ====
section
/-! DEFINITION. Shifts and rotates by one bit (spec/43_logic_shift.md rules R300 to R314). -/

namespace Sys2Proof.Machine

/-- ASL on memory (R300). -/
def execAsl (dst : MemOp) (st : State) : Result := .next (modifyMem (fun m _ => aslValue m) ccAsl dst st)

/-- ASLA (R301). -/
def execAsla (st : State) : Result := .next (modifyReg State.a State.setA (fun m _ => aslValue m) ccAsl st)

/-- ASLB (R302). -/
def execAslb (st : State) : Result := .next (modifyReg State.b State.setB (fun m _ => aslValue m) ccAsl st)

/-- ASR on memory (R303). -/
def execAsr (dst : MemOp) (st : State) : Result := .next (modifyMem (fun m _ => asrValue m) ccAsr dst st)

/-- ASRA (R304). -/
def execAsra (st : State) : Result := .next (modifyReg State.a State.setA (fun m _ => asrValue m) ccAsr st)

/-- ASRB (R305). -/
def execAsrb (st : State) : Result := .next (modifyReg State.b State.setB (fun m _ => asrValue m) ccAsr st)

/-- LSR on memory (R306). -/
def execLsr (dst : MemOp) (st : State) : Result := .next (modifyMem (fun m _ => lsrValue m) ccLsr dst st)

/-- LSRA (R307). -/
def execLsra (st : State) : Result := .next (modifyReg State.a State.setA (fun m _ => lsrValue m) ccLsr st)

/-- LSRB (R308). -/
def execLsrb (st : State) : Result := .next (modifyReg State.b State.setB (fun m _ => lsrValue m) ccLsr st)

/-- ROL on memory (R309). -/
def execRol (dst : MemOp) (st : State) : Result := .next (modifyMem rolValue ccRol dst st)

/-- ROLA (R310). -/
def execRola (st : State) : Result := .next (modifyReg State.a State.setA rolValue ccRol st)

/-- ROLB (R311). -/
def execRolb (st : State) : Result := .next (modifyReg State.b State.setB rolValue ccRol st)

/-- ROR on memory (R312). -/
def execRor (dst : MemOp) (st : State) : Result := .next (modifyMem rorValue ccRor dst st)

/-- RORA (R313). -/
def execRora (st : State) : Result := .next (modifyReg State.a State.setA rorValue ccRor st)

/-- RORB (R314). -/
def execRorb (st : State) : Result := .next (modifyReg State.b State.setB rorValue ccRor st)

end Sys2Proof.Machine
end

