-- ==== Sys2Proof/Machine/System.lean ====
section
/-! DEFINITION. NOP, software interrupts, RTI, CWAI, SYNC (spec/46_system.md rules R410 to R416). -/

namespace Sys2Proof.Machine

/-- NOP: nothing but the advance of PC (R410). -/
def execNop (st : State) : Result := .next st

/-- SWI (R411). -/
def execSwi (st : State) : Result := .next (takeInterrupt .swi st)

/-- SWI2 (R412). -/
def execSwi2 (st : State) : Result := .next (takeInterrupt .swi2 st)

/-- SWI3 (R413). -/
def execSwi3 (st : State) : Result := .next (takeInterrupt .swi3 st)

/-- RTI (R414). -/
def execRti (st : State) : Result := .next (returnFromInterrupt st)

/-- CWAI: CC is masked, E is set, the entire state is stacked, and the wait begins (R415). -/
def execCwai (mask : Byte) (st : State) : Result :=
  .next ((stackFrame true (st.setCc (ccWithE true (st.cc &&& mask)))).setExecState .cwaiWait)

/-- SYNC: the wait begins (R416). -/
def execSync (st : State) : Result := .next (st.setExecState .syncWait)

end Sys2Proof.Machine
end

