-- ==== Sys2Proof/Machine/Transfer.lean ====
section
/-! DEFINITION. Transfer, exchange, push and pull (spec/44_transfer_stack.md rules R342 to R352). -/

namespace Sys2Proof.Machine

/-- The value TFR and EXG write to a register of code and width `dst` when they read `src`: the value read where the widths agree,
else the free function `MIXED_WIDTH_TRANSFER` of the two codes and the value read (R342, R343, D12, log 6). -/
def transferTo (dst src : Reg) (old : State) (st : State) : State :=
  match dst, src with
  | .r16 w, .r16 r => st.setReg16 w (old.reg16 r)
  | .r8 w, .r8 r => st.setReg8 w (old.reg8 r)
  | .r8 w, .r16 r => st.setReg8 w (Config.mixedTo8 r.code w.code (old.reg16 r))
  | .r16 w, .r8 r => st.setReg16 w (Config.mixedTo16 r.code w.code (old.reg8 r))

/-- TFR (R342). TFR S,S arms NMI by the model's choice (log 26). -/
def execTfr (src dst : Reg) (st : State) : Result := .next (transferTo dst src st st)

/-- EXG: both registers are read before either is written; the first is written first (R343, R344, log 6). An exchange of S
arms NMI (R34, log 23), EXG S,S by the model's choice (log 26). -/
def execExg (first second : Reg) (st : State) : Result :=
  .next (transferTo second first st (transferTo first second st st))

/-- PSHS (R348). -/
def execPshs (mask : Byte) (st : State) : Result := .next (pushRegs .s mask st)

/-- PULS (R350). -/
def execPuls (mask : Byte) (st : State) : Result := .next (pullRegs .s mask st)

/-- PSHU (R351). -/
def execPshu (mask : Byte) (st : State) : Result := .next (pushRegs .u mask st)

/-- PULU (R352). -/
def execPulu (mask : Byte) (st : State) : Result := .next (pullRegs .u mask st)

end Sys2Proof.Machine
end

