-- ==== Sys2Proof/Machine/Dispatch.lean ====
section
/-! DEFINITION. The dispatcher: one arm per constructor of Instr, each one direct call of the instruction's meaning. PC in `s`
addresses the next instruction (R25, log 24). -/

namespace Sys2Proof.Machine

def exec (i : Instr) (s : State) : Host.Outcome State Fault Refusal :=
  match i with
  -- Loads (R201 to R207)
  | .lda src => Sys2Proof.Machine.execLda src s
  | .ldb src => Sys2Proof.Machine.execLdb src s
  | .ldd src => Sys2Proof.Machine.execLdd src s
  | .ldx src => Sys2Proof.Machine.execLdx src s
  | .ldy src => Sys2Proof.Machine.execLdy src s
  | .ldu src => Sys2Proof.Machine.execLdu src s
  | .lds src => Sys2Proof.Machine.execLds src s
  -- Stores (R208 to R214)
  | .sta dst => Sys2Proof.Machine.execSta dst s
  | .stb dst => Sys2Proof.Machine.execStb dst s
  | .std dst => Sys2Proof.Machine.execStd dst s
  | .stx dst => Sys2Proof.Machine.execStx dst s
  | .sty dst => Sys2Proof.Machine.execSty dst s
  | .stu dst => Sys2Proof.Machine.execStu dst s
  | .sts dst => Sys2Proof.Machine.execSts dst s
  -- Load effective address (R215 to R218)
  | .leax mode => Sys2Proof.Machine.execLeax mode s
  | .leay mode => Sys2Proof.Machine.execLeay mode s
  | .leas mode => Sys2Proof.Machine.execLeas mode s
  | .leau mode => Sys2Proof.Machine.execLeau mode s
  -- Addition (R237 to R241)
  | .adda src => Sys2Proof.Machine.execAdda src s
  | .addb src => Sys2Proof.Machine.execAddb src s
  | .adca src => Sys2Proof.Machine.execAdca src s
  | .adcb src => Sys2Proof.Machine.execAdcb src s
  | .addd src => Sys2Proof.Machine.execAddd src s
  -- Subtraction (R242 to R246)
  | .suba src => Sys2Proof.Machine.execSuba src s
  | .subb src => Sys2Proof.Machine.execSubb src s
  | .sbca src => Sys2Proof.Machine.execSbca src s
  | .sbcb src => Sys2Proof.Machine.execSbcb src s
  | .subd src => Sys2Proof.Machine.execSubd src s
  -- Comparison (R247 to R253)
  | .cmpa src => Sys2Proof.Machine.execCmpa src s
  | .cmpb src => Sys2Proof.Machine.execCmpb src s
  | .cmpd src => Sys2Proof.Machine.execCmpd src s
  | .cmpx src => Sys2Proof.Machine.execCmpx src s
  | .cmpy src => Sys2Proof.Machine.execCmpy src s
  | .cmpu src => Sys2Proof.Machine.execCmpu src s
  | .cmps src => Sys2Proof.Machine.execCmps src s
  -- Negate, increment, decrement (R254 to R262)
  | .neg dst => Sys2Proof.Machine.execNeg dst s
  | .nega => Sys2Proof.Machine.execNega s
  | .negb => Sys2Proof.Machine.execNegb s
  | .inc dst => Sys2Proof.Machine.execInc dst s
  | .inca => Sys2Proof.Machine.execInca s
  | .incb => Sys2Proof.Machine.execIncb s
  | .dec dst => Sys2Proof.Machine.execDec dst s
  | .deca => Sys2Proof.Machine.execDeca s
  | .decb => Sys2Proof.Machine.execDecb s
  -- Multiply, decimal adjust, ABX, SEX (R263 to R266)
  | .mul => Sys2Proof.Machine.execMul s
  | .daa => Sys2Proof.Machine.execDaa s
  | .abx => Sys2Proof.Machine.execAbx s
  | .sex => Sys2Proof.Machine.execSex s
  -- Logic (R281 to R288)
  | .anda src => Sys2Proof.Machine.execAnda src s
  | .andb src => Sys2Proof.Machine.execAndb src s
  | .ora src => Sys2Proof.Machine.execOra src s
  | .orb src => Sys2Proof.Machine.execOrb src s
  | .eora src => Sys2Proof.Machine.execEora src s
  | .eorb src => Sys2Proof.Machine.execEorb src s
  | .bita src => Sys2Proof.Machine.execBita src s
  | .bitb src => Sys2Proof.Machine.execBitb src s
  -- Condition-code masks (R289, R290)
  | .andcc mask => Sys2Proof.Machine.execAndcc mask s
  | .orcc mask => Sys2Proof.Machine.execOrcc mask s
  -- Complement, clear, test (R291 to R299)
  | .com dst => Sys2Proof.Machine.execCom dst s
  | .coma => Sys2Proof.Machine.execComa s
  | .comb => Sys2Proof.Machine.execComb s
  | .clr dst => Sys2Proof.Machine.execClr dst s
  | .clra => Sys2Proof.Machine.execClra s
  | .clrb => Sys2Proof.Machine.execClrb s
  | .tst src => Sys2Proof.Machine.execTst src s
  | .tsta => Sys2Proof.Machine.execTsta s
  | .tstb => Sys2Proof.Machine.execTstb s
  -- Shifts and rotates (R300 to R314)
  | .asl dst => Sys2Proof.Machine.execAsl dst s
  | .asla => Sys2Proof.Machine.execAsla s
  | .aslb => Sys2Proof.Machine.execAslb s
  | .asr dst => Sys2Proof.Machine.execAsr dst s
  | .asra => Sys2Proof.Machine.execAsra s
  | .asrb => Sys2Proof.Machine.execAsrb s
  | .lsr dst => Sys2Proof.Machine.execLsr dst s
  | .lsra => Sys2Proof.Machine.execLsra s
  | .lsrb => Sys2Proof.Machine.execLsrb s
  | .rol dst => Sys2Proof.Machine.execRol dst s
  | .rola => Sys2Proof.Machine.execRola s
  | .rolb => Sys2Proof.Machine.execRolb s
  | .ror dst => Sys2Proof.Machine.execRor dst s
  | .rora => Sys2Proof.Machine.execRora s
  | .rorb => Sys2Proof.Machine.execRorb s
  -- Transfer, exchange, push, pull (R342 to R352)
  | .tfr src dst => Sys2Proof.Machine.execTfr src dst s
  | .exg first second => Sys2Proof.Machine.execExg first second s
  | .pshs mask => Sys2Proof.Machine.execPshs mask s
  | .puls mask => Sys2Proof.Machine.execPuls mask s
  | .pshu mask => Sys2Proof.Machine.execPshu mask s
  | .pulu mask => Sys2Proof.Machine.execPulu mask s
  -- Short branches (R362 to R377)
  | .bra offset => Sys2Proof.Machine.execBra offset s
  | .brn offset => Sys2Proof.Machine.execBrn offset s
  | .bhi offset => Sys2Proof.Machine.execBhi offset s
  | .bls offset => Sys2Proof.Machine.execBls offset s
  | .bcc offset => Sys2Proof.Machine.execBcc offset s
  | .bcs offset => Sys2Proof.Machine.execBcs offset s
  | .bne offset => Sys2Proof.Machine.execBne offset s
  | .beq offset => Sys2Proof.Machine.execBeq offset s
  | .bvc offset => Sys2Proof.Machine.execBvc offset s
  | .bvs offset => Sys2Proof.Machine.execBvs offset s
  | .bpl offset => Sys2Proof.Machine.execBpl offset s
  | .bmi offset => Sys2Proof.Machine.execBmi offset s
  | .bge offset => Sys2Proof.Machine.execBge offset s
  | .blt offset => Sys2Proof.Machine.execBlt offset s
  | .bgt offset => Sys2Proof.Machine.execBgt offset s
  | .ble offset => Sys2Proof.Machine.execBle offset s
  -- Long branches (R379 to R394)
  | .lbra offset => Sys2Proof.Machine.execLbra offset s
  | .lbrn offset => Sys2Proof.Machine.execLbrn offset s
  | .lbhi offset => Sys2Proof.Machine.execLbhi offset s
  | .lbls offset => Sys2Proof.Machine.execLbls offset s
  | .lbcc offset => Sys2Proof.Machine.execLbcc offset s
  | .lbcs offset => Sys2Proof.Machine.execLbcs offset s
  | .lbne offset => Sys2Proof.Machine.execLbne offset s
  | .lbeq offset => Sys2Proof.Machine.execLbeq offset s
  | .lbvc offset => Sys2Proof.Machine.execLbvc offset s
  | .lbvs offset => Sys2Proof.Machine.execLbvs offset s
  | .lbpl offset => Sys2Proof.Machine.execLbpl offset s
  | .lbmi offset => Sys2Proof.Machine.execLbmi offset s
  | .lbge offset => Sys2Proof.Machine.execLbge offset s
  | .lblt offset => Sys2Proof.Machine.execLblt offset s
  | .lbgt offset => Sys2Proof.Machine.execLbgt offset s
  | .lble offset => Sys2Proof.Machine.execLble offset s
  -- Calls, jumps, return (R378, R395 to R398)
  | .bsr offset => Sys2Proof.Machine.execBsr offset s
  | .lbsr offset => Sys2Proof.Machine.execLbsr offset s
  | .jmp target => Sys2Proof.Machine.execJmp target s
  | .jsr target => Sys2Proof.Machine.execJsr target s
  | .rts => Sys2Proof.Machine.execRts s
  -- System (R410 to R416)
  | .nop => Sys2Proof.Machine.execNop s
  | .swi => Sys2Proof.Machine.execSwi s
  | .swi2 => Sys2Proof.Machine.execSwi2 s
  | .swi3 => Sys2Proof.Machine.execSwi3 s
  | .rti => Sys2Proof.Machine.execRti s
  | .cwai mask => Sys2Proof.Machine.execCwai mask s
  | .sync => Sys2Proof.Machine.execSync s

end Sys2Proof.Machine
end

