-- ==== Sys2Proof/Machine/Interrupts.lean ====
section
/-! DEFINITION. The steps that execute no instruction: the interrupt check of RUNNING (spec/60_exceptions.md rules R420, R422,
R425, R432), the wakes of the two wait states (R435, R436), the reset exit (spec/70_reset_and_hazards.md rule R472). -/

namespace Sys2Proof.Machine

/-- The interrupt the check accepts: NMI when latched, else FIRQ when its line is high and F is clear, else IRQ when its line is high
and I is clear (R422, R425, R432). -/
def acceptable (st : State) : Option EntryKind :=
  if st.nmiLatch then some .nmi
  else if st.firqLine && !st.flag .f then some .firq
  else if st.irqLine && !st.flag .i then some .irq
  else none

/-- The acknowledge: NMI clears its latch, in the step that enters it; the two lines are the environment's (R424, R426, D30). -/
def acknowledge (k : EntryKind) (st : State) : State :=
  match k with
  | .nmi => { st with nmiLatch := false }
  | .firq | .irq | .swi | .swi2 | .swi3 => st

/-- `NmiEntry`, `FirqEntry`, `IrqEntry` (R426, R427, R428). -/
def interruptEntry (k : EntryKind) (st : State) : State := takeInterrupt k (acknowledge k st)

/-- `CwaiWake()` (R435): nothing is stacked; a masked line does not end the wait. -/
def cwaiWake (st : State) : State :=
  match acceptable st with
  | some k => (vectorTo k (acknowledge k st)).setExecState .running
  | none => st

/-- `SyncWake()` (R436): any active input ends the wait, masked or not. -/
def syncWake (st : State) : State :=
  if st.nmiLatch || st.firqLine || st.irqLine then st.setExecState .running else st

/-- `ResetExit()` (R472). -/
def resetExit (st : State) : State := (st.setPc (memRead16 Config.resetVector st)).setExecState .running

end Sys2Proof.Machine
end

