-- ==== Sys2Proof/Machine/Cycle.lean ====
section
/-! DEFINITION. The instruction step (spec/60_exceptions.md rules R423, R439, R440, spec/30_encoding.md rules R101, R102). -/

namespace Sys2Proof.Machine

/-- The bytes at and after PC, each fetched by a plain read at the moment it is needed (R87, R101); addresses wrap (R12). -/
def fetchStream (st : State) (k : Nat) : Byte := memRead8 (st.pc + BitVec.ofNat 16 k) st

/-- The fault of an encoding that spells no instruction, at the address of its first byte (R118, R119, R440). -/
def faultAt (address : Word) (r : Reject) : Fault :=
  match r with
  | .illegalOpcode page op => .illegalOpcode address page op
  | .illegalPostbyte pb => .illegalPostbyte address pb

/-- PC past the bytes of the instruction (R25, R101). -/
def advancePc (len : Nat) (st : State) : State := st.setPc (st.pc + BitVec.ofNat 16 len)

/-- `last_pc` and `last_len` after an instruction (R35, R423). -/
def recordLast (start : Word) (len : Nat) (st : State) : State :=
  { st with lastPc := start, lastLen := BitVec.ofNat 8 len }

/-- A decoded instruction: its meaning runs with PC past its bytes, then the snapshot fields are written (R423). -/
def runDecoded (i : Instr) (len : Nat) (st : State) : Result :=
  match exec i (advancePc len st) with
  | .next st' => .next (recordLast st.pc len st')
  | .fault f => .fault f
  | .refused r => .refused r

/-- `InstructionStep()` (R423). An illegal encoding is the step's outcome (R440); what it leaves behind is `enterFault`. -/
def instructionStep (st : State) : Result :=
  match decode (fetchStream st) with
  | .ok (i, len) => runDecoded i len st
  | .error r => .fault (faultAt st.pc r)

/-- The state a Fault leaves (R440): FAULT, `last_pc` the address of the instruction, everything else as the step began. -/
def enterFault (f : Fault) (st : State) : State :=
  { st with execState := .fault f, lastPc := st.pc }

end Sys2Proof.Machine
end

