-- ==== Sys2Proof/Machine/Step.lean ====
section
/-! DEFINITION. One step (spec/60_exceptions.md rule R420), the whole transition a Fault included (R440), and the placing of an
instruction where the next step fetches it. -/

namespace Sys2Proof.Machine

/-- `Step()` (R420). A step in FAULT reports the same fault again (R440). -/
def step (st : State) : Host.Outcome State Fault Refusal :=
  match st.execState with
  | .fault f => .fault f
  | .reset => .next (resetExit st)
  | .cwaiWait => .next (cwaiWake st)
  | .syncWait => .next (syncWake st)
  | .running =>
    match acceptable st with
    | some k => .next (interruptEntry k st)
    | none => instructionStep st

/-- The step as a total transition with the outcome it reports (R420, R421, R440): a Fault leaves the state of `enterFault`, in which
every further step changes nothing and reports the same Fault (log 10). -/
def tick (st : State) : State × Option Fault :=
  match st.execState with
  | .fault f => (st, some f)
  | .reset | .cwaiWait | .syncWait | .running =>
    match step st with
    | .next st' => (st', none)
    | .fault f => (enterFault f st, some f)
    | .refused _ => (st, none)

/-- The bytes of an instruction placed from an address up, wrapping. -/
def placeBytes (addr : Word) : List Byte → State → State
  | [], st => st
  | v :: rest, st => placeBytes (addr + 1) rest (st.storeByte addr v)

/-- The state with a word of the opcode table placed at PC and the core RUNNING with no interrupt input active, so that the next step
runs exactly that instruction (log 2, log 12, log 13). -/
def State.withFetchWord (s : State) (nbits w : Nat) : State :=
  { placeBytes s.pc (tableBytes nbits w) s with
    execState := .running
    nmiLatch := false
    firqLine := false
    irqLine := false }

end Sys2Proof.Machine
end

