-- ==== Sys2Proof/Machine/Ports.lean ====
section
/-! DEFINITION. The ports through which the environment acts between two steps (spec/00_scope.md rule R8): the host operations of the
memory (spec/20_memory.md rules R64 to R75), reset and init (spec/70_reset_and_hazards.md rules R470 to R474), the interrupt inputs
(spec/60_exceptions.md rule R424), the snapshot (spec/10_state.md rule R35). -/

namespace Sys2Proof.Machine

/-- The status of a host operation (R75). -/
inductive Status where
  | ok
  | addressOutOfRange
  | romViolation
deriving DecidableEq, Repr

/-! ## Changing the attributes of a range of cells (log 15) -/

/-- A pair at the address `p`, with the attributes that hold there. -/
def Attrs.split (p : Nat) (current : CellAttr) : List (Nat × CellAttr) → List (Nat × CellAttr)
  | [] => [(p, current)]
  | (k, v) :: rest =>
    if p < k then (p, current) :: (k, v) :: rest
    else if p = k then (k, v) :: rest
    else (k, v) :: Attrs.split p v rest

/-- A pair at the end of a range, unless the range ends with the address space. -/
def Attrs.splitEnd (p : Nat) (l : List (Nat × CellAttr)) : List (Nat × CellAttr) :=
  if p < 65536 then Attrs.split p CellAttr.none l else l

/-- The pairs from `lo` up to `hi` changed by `f`. -/
def Attrs.mapRange (f : CellAttr → CellAttr) (lo hi : Nat) : List (Nat × CellAttr) → List (Nat × CellAttr)
  | [] => []
  | (k, v) :: rest => (k, if lo ≤ k ∧ k < hi then f v else v) :: Attrs.mapRange f lo hi rest

/-- Without the pairs that repeat the attributes before them. -/
def Attrs.normalise (current : CellAttr) : List (Nat × CellAttr) → List (Nat × CellAttr)
  | [] => []
  | (k, v) :: rest => if v = current then Attrs.normalise current rest else (k, v) :: Attrs.normalise v rest

/-- The attributes of the cells `lo .. hi-1` changed by `f`. -/
def Attrs.update (f : CellAttr → CellAttr) (lo hi : Nat) (l : List (Nat × CellAttr)) : List (Nat × CellAttr) :=
  if lo < hi then
    Attrs.normalise CellAttr.none
      (Attrs.mapRange f lo hi (Attrs.split lo CellAttr.none (Attrs.splitEnd hi l)))
  else l

/-! ## The host port of the memory -/

/-- `initialize()` (R64): data, flags, indexes and the dispatch table; the CPU is not touched. -/
def initializeMemory (st : State) : State := { st with mem := [], attrs := [], ioTable := [] }

/-- `read(address)` (R66): an address outside [0, 65535] gives no data. -/
def hostRead (address : Int) (st : State) : Except Status Byte :=
  if 0 ≤ address ∧ address < 65536 then .ok (memRead8 (BitVec.ofInt 16 address) st) else .error .addressOutOfRange

/-- `write(address, value)` (R70, D27): the CPU's byte write, with its status. -/
def hostWrite (address : Int) (value : Byte) (st : State) : State × Status :=
  if 0 ≤ address ∧ address < 65536 then
    let addr : Word := BitVec.ofInt 16 address
    (memWrite8 addr value st, if (st.attr addr).isRom then .romViolation else .ok)
  else (st, .addressOutOfRange)


/-- `define_rom(start, end)` (R72): the cells `start .. end-1` become ROM; nothing else of them changes. -/
def defineRom (start finish : Int) (st : State) : State × Status :=
  if 0 ≤ start ∧ start ≤ finish ∧ finish ≤ 65536 then
    ({ st with attrs := Attrs.update (fun c => { c with isRom := true }) start.toNat finish.toNat st.attrs }, .ok)
  else (st, .addressOutOfRange)

/-- The place of a handler in the dispatch table. -/
def slotOf (h : Config.Handler) : List Config.Handler → Nat → Option Nat
  | [], _ => none
  | k :: rest, n => if k = h then some n else slotOf h rest (n + 1)

/-- The slot chosen for a handler and the table that holds it there: the slot it has already, else the first free one; none when a
257th would be needed (R73, D20, U24, log 11). -/
def allocate (h : Config.Handler) (table : List Config.Handler) : Option (Nat × List Config.Handler) :=
  match slotOf h table 0 with
  | some k => some (k, table)
  | none => if table.length < 256 then some (table.length, table ++ [h]) else none

/-- `define_io(start, end, handler)` (R73): the cells `start .. end-1` dispatch to the handler; their data and ROM flag are kept. An
empty range does nothing, and takes no slot (D15). More than 256 distinct handlers have no meaning (U24). -/
def defineIo (start finish : Int) (h : Config.Handler) (st : State) : Option (State × Status) :=
  if 0 ≤ start ∧ start ≤ finish ∧ finish ≤ 65536 then
    if start = finish then some (st, .ok)
    else match allocate h st.ioTable with
    | some (k, table) =>
      some ({ st with
        ioTable := table
        attrs := Attrs.update (fun c => { c with isIo := true, ioIndex := BitVec.ofNat 8 k }) start.toNat finish.toNat
          st.attrs }, .ok)
    | none => none
  else some (st, .addressOutOfRange)

/-- Bytes stored one after the other, without any test. -/
def storeBytes (addr : Nat) : List Byte → State → State
  | [], st => st
  | v :: rest, st => storeBytes (addr + 1) rest (st.storeByte (BitVec.ofNat 16 addr) v)

/-- The bytes placed from an address up, with the ROM and I/O flags of every touched cell cleared and its index kept (R74, log 15). -/
def loadImage (addr : Nat) (image : List Byte) (st : State) : State :=
  storeBytes addr image { st with
    attrs := Attrs.update (fun c => { c with isRom := false, isIo := false }) addr (addr + image.length) st.attrs }

/-- `load(start, buffer, length)` (R74, D15): the first `length` bytes of the buffer are placed from `start` up, and no handler is
called. A length past the end of the buffer has no meaning, since no byte is given there (log 18). -/
def load (start : Int) (buffer : List Byte) (length : Int) (st : State) : Option (State × Status) :=
  if 0 ≤ start ∧ 0 ≤ length ∧ start + length ≤ 65536 then
    if length ≤ buffer.length then some (loadImage start.toNat (buffer.take length.toNat) st, .ok) else none
  else some (st, .addressOutOfRange)

/-! ## The reset port (R470) -/

/-- `reset(is_first)` (R471): cold writes all of CC, warm sets I and F alone. -/
def resetPort (isFirst : Bool) (st : State) : State :=
  { st with
    cc := if isFirst then 0x50 else st.cc ||| 0x50
    dp := 0
    nmiLatch := false
    nmiArmed := false
    execState := .reset }

/-- `init(run_address)` (R473). -/
def init (runAddress : Word) (st : State) : State :=
  { st with
    a := 0
    b := 0
    x := 0
    y := 0
    u := 0
    s := 0
    dp := 0
    cc := 0
    pc := runAddress
    nmiLatch := false
    nmiArmed := false
    lastPc := 0
    lastLen := 0
    execState := .running }

/-! ## The interrupt port (R424) -/

/-- `nmi_trigger()`: no effect while the arming parameter is true and NMI is not armed (R34, R424). -/
def nmiTrigger (st : State) : State :=
  if st.params.nmiArmOnSLoad && !st.nmiArmed then st else { st with nmiLatch := true }

/-- `firq(level)` (R424). -/
def firq (level : Bool) (st : State) : State := { st with firqLine := level }

/-- `irq(level)` (R424). -/
def irq (level : Bool) (st : State) : State := { st with irqLine := level }

/-! ## The snapshot port (R35) -/

/-- What `get_state()` answers (R35, log 22). -/
structure Snapshot where
  a         : Byte
  b         : Byte
  dp        : Byte
  cc        : Byte
  x         : Word
  y         : Word
  u         : Word
  s         : Word
  pc        : Word
  lastPc    : Word
  lastLen   : Byte
  execState : ExecState
  inReset   : Bool
deriving DecidableEq, Repr

/-- `get_state()` (R35): it changes nothing. -/
def getState (st : State) : Snapshot :=
  { a := st.a, b := st.b, dp := st.dp, cc := st.cc, x := st.x, y := st.y, u := st.u, s := st.s, pc := st.pc,
    lastPc := st.lastPc, lastLen := st.lastLen, execState := st.execState, inReset := decide (st.execState = .reset) }

/-! ## Everything the environment can do between two steps -/

/-- The operations of the ports that can change the state (R8). -/
inductive PortOp where
  | initializeMemory
  | write (address : Int) (value : Byte)
  | defineRom (start finish : Int)
  | defineIo (start finish : Int) (handler : Config.Handler)
  | load (start : Int) (buffer : List Byte) (length : Int)
  | reset (isFirst : Bool)
  | init (runAddress : Word)
  | nmiTrigger
  | firq (level : Bool)
  | irq (level : Bool)
deriving DecidableEq, Repr

/-- The state after an operation of a port; none where the spec gives the call no meaning (U24, log 18). -/
def applyPort (op : PortOp) (st : State) : Option State :=
  match op with
  | .initializeMemory => some (Machine.initializeMemory st)
  | .write address value => some (hostWrite address value st).1
  | .defineRom start finish => some (Machine.defineRom start finish st).1
  | .defineIo start finish handler => (Machine.defineIo start finish handler st).map (·.1)
  | .load start buffer length => (Machine.load start buffer length st).map (·.1)
  | .reset isFirst => some (resetPort isFirst st)
  | .init runAddress => some (Machine.init runAddress st)
  | .nmiTrigger => some (Machine.nmiTrigger st)
  | .firq level => some (Machine.firq level st)
  | .irq level => some (Machine.irq level st)

end Sys2Proof.Machine
end

