-- ==== Sys2Proof/Safety.lean ====
section
/-! DEFINITION. The terms the claims are stated in: the invariant of a run, the parts of the state and what a claim says is left alone,
what an instruction stores or stacks, the families of instructions of one shape, and the arithmetic of the one-operand
instructions written over the integers. -/

namespace Sys2Proof.Machine

/-! ## The invariant -/

/-- What a state of a run looks like: canonical data and the bounds the types do not give; no promise about programs. Every step and
every port operation keeps it. -/
structure State.Inv (st : State) : Prop where
  /-- The memory is in canonical form (log 3). -/
  memory : Memory.wf st.mem = true
  /-- The attributes are in canonical form (log 15). -/
  attributes : Attrs.wf st.attrs = true
  /-- The I/O dispatch table has 256 slots (R62). -/
  slots : st.ioTable.length ≤ 256
  /-- An I/O cell dispatches to a slot that was allocated (R73). -/
  indexes : ∀ k : Word, (st.attr k).isIo = true → (st.attr k).ioIndex.toNat < st.ioTable.length
  /-- `nmi_armed` is set only where it exists (R34). -/
  armed : st.nmiArmed = true → st.params.nmiArmOnSLoad = true
  /-- With the arming parameter, an NMI is latched only after it was armed (R34, R424). -/
  latched : st.nmiLatch = true → st.params.nmiArmOnSLoad = true → st.nmiArmed = true
  /-- An instruction has at most five bytes (R121, R423). -/
  length : st.lastLen.toNat ≤ 5
  /-- The block produces no `Read` call (R67). -/
  calls : ∀ c ∈ st.ioCalls, c.operation = .write

/-! ## The parts of the state, and what is left alone -/

/-- The parts of the state beside the bytes of memory. -/
inductive Part where
  | a | b | dp | cc | x | y | u | s | pc | execState | nmiLatch | firqLine | irqLine | nmiArmed | lastPc | lastLen | attrs
  | ioTable | params | ioCalls | freeIndex
deriving DecidableEq, Repr

/-- The part is the same in both states. -/
def Same (p : Part) (st t : State) : Prop :=
  match p with
  | .a => t.a = st.a
  | .b => t.b = st.b
  | .dp => t.dp = st.dp
  | .cc => t.cc = st.cc
  | .x => t.x = st.x
  | .y => t.y = st.y
  | .u => t.u = st.u
  | .s => t.s = st.s
  | .pc => t.pc = st.pc
  | .execState => t.execState = st.execState
  | .nmiLatch => t.nmiLatch = st.nmiLatch
  | .firqLine => t.firqLine = st.firqLine
  | .irqLine => t.irqLine = st.irqLine
  | .nmiArmed => t.nmiArmed = st.nmiArmed
  | .lastPc => t.lastPc = st.lastPc
  | .lastLen => t.lastLen = st.lastLen
  | .attrs => t.attrs = st.attrs
  | .ioTable => t.ioTable = st.ioTable
  | .params => t.params = st.params
  | .ioCalls => t.ioCalls = st.ioCalls
  | .freeIndex => t.freeIndex = st.freeIndex

/-- Every part is the same but for those named. -/
def KeepsExcept (l : List Part) (st t : State) : Prop := ∀ p, p ∉ l → Same p st t

/-- Every byte of memory reads as before. -/
def SameBytes (st t : State) : Prop := ∀ k : Word, memRead8 k t = memRead8 k st

/-- Every byte of memory reads as before but for the `n` bytes from `k` up, addresses modulo 65,536. -/
def SameBytesOutside (k : Word) (n : Nat) (st t : State) : Prop :=
  ∀ b : Word, (∀ j, j < n → b ≠ k + BitVec.ofNat 16 j) → memRead8 b t = memRead8 b st

/-- What a write to an I/O cell can change beside memory: the two lines, and the model's record of the exchange (R68, log 8, log 9). -/
def portParts : List Part := [.firqLine, .irqLine, .ioCalls, .freeIndex]

/-- A cell that is neither ROM nor I/O. -/
def PlainCell (k : Word) (st : State) : Prop := (st.attr k).isRom = false ∧ (st.attr k).isIo = false

/-- The arithmetic flags after: the value given, or as before; the control bits I, F, E are as before. -/
def FlagsAfter (st t : State) (h n z v c : Option Bool) : Prop :=
  t.flag .h = h.getD (st.flag .h) ∧ t.flag .n = n.getD (st.flag .n) ∧ t.flag .z = z.getD (st.flag .z) ∧
    t.flag .v = v.getD (st.flag .v) ∧ t.flag .c = c.getD (st.flag .c) ∧
    t.flag .i = st.flag .i ∧ t.flag .f = st.flag .f ∧ t.flag .e = st.flag .e

/-- The base registers as parts. -/
def idxPart : IdxReg → Part
  | .x => .x
  | .y => .y
  | .u => .u
  | .s => .s

/-- The register an indexed sub-mode also updates: the base register of auto increment and decrement (R148). -/
def autoParts : Indexed → List Part
  | .postInc r _ _ | .preDec r _ _ => [idxPart r]
  | .off5 _ _ | .zero _ _ | .accB _ _ | .accA _ _ | .accD _ _ | .off8 _ _ _ | .off16 _ _ _ | .pcr8 _ _ _ | .pcr16 _ _ _
  | .extInd _ => []

/-- The register a memory operand also updates. -/
def memAutoParts : MemOp → List Part
  | .dir _ | .ext _ => []
  | .idx m => autoParts m

/-- The register an 8-bit source operand also updates. -/
def src8AutoParts : Src8 → List Part
  | .imm _ => []
  | .mem m => memAutoParts m

/-- The register a 16-bit source operand also updates. -/
def src16AutoParts : Src16 → List Part
  | .imm _ => []
  | .mem m => memAutoParts m

/-- An instruction with an 8-bit source operand that stores nothing: it changes the named parts, and the base register of an
auto-modifying operand as the resolution of the operand leaves it. -/
def Reads8 (src : Src8) (l : List Part) (st t : State) : Prop :=
  KeepsExcept l (operand8 src st).2 t ∧ KeepsExcept (src8AutoParts src ++ l) st t ∧ SameBytes st t

/-- The same with a 16-bit source operand. -/
def Reads16 (src : Src16) (l : List Part) (st t : State) : Prop :=
  KeepsExcept l (operand16 src st).2 t ∧ KeepsExcept (src16AutoParts src ++ l) st t ∧ SameBytes st t

/-- An instruction that stores the byte `v` to its memory operand and writes no register but CC: the store is the byte write of R69 at
the operand's address, in the state after the address is resolved; every other byte is left alone; a plain cell holds `v`, a
ROM cell what it held; only an I/O cell can move the handler port. -/
def StoresByte (dst : MemOp) (v : Byte) (st t : State) : Prop :=
  let k := (ea dst st).1
  t.mem = (memWrite8 k v (ea dst st).2).mem ∧ KeepsExcept [.cc] (memWrite8 k v (ea dst st).2) t ∧
    KeepsExcept (memAutoParts dst ++ .cc :: portParts) st t ∧
    ((st.attr k).isIo = false → KeepsExcept (memAutoParts dst ++ [.cc]) st t) ∧
    SameBytesOutside k 1 st t ∧ (PlainCell k st → memRead8 k t = v) ∧
    ((st.attr k).isRom = true → memRead8 k t = memRead8 k st)

/-- The same for a Word: the high byte at the address, the low byte at the next (R78). -/
def StoresWord (dst : MemOp) (v : Word) (st t : State) : Prop :=
  let k := (ea dst st).1
  t.mem = (memWrite16 k v (ea dst st).2).mem ∧ KeepsExcept [.cc] (memWrite16 k v (ea dst st).2) t ∧
    KeepsExcept (memAutoParts dst ++ .cc :: portParts) st t ∧
    ((st.attr k).isIo = false → (st.attr (k + 1)).isIo = false → KeepsExcept (memAutoParts dst ++ [.cc]) st t) ∧
    SameBytesOutside k 2 st t ∧ (PlainCell k st → memRead8 k t = hiByte v) ∧
    (PlainCell (k + 1) st → memRead8 (k + 1) t = loByte v)

/-! ## Stacking -/

/-- The stack pointers as parts. -/
def spPart : StackReg → Part
  | .s => .s
  | .u => .u

/-- The bytes PSHS or PSHU puts on its stack, from the new stack pointer upward (R347). -/
def stackedBytes (r : StackReg) (mask : Byte) (st : State) : List Byte :=
  let on (bit : Nat) (l : List Byte) : List Byte := if mask.getLsbD bit then l else []
  on 0 [st.cc] ++ on 1 [st.a] ++ on 2 [st.b] ++ on 3 [st.dp] ++ on 4 [hiByte st.x, loByte st.x] ++
    on 5 [hiByte st.y, loByte st.y] ++ on 6 [hiByte (st.sp r.other), loByte (st.sp r.other)] ++
    on 7 [hiByte st.pc, loByte st.pc]

/-- The frame of an interrupt, from the new S upward: the whole register file, or CC and PC; `cc` is the CC stacked (R427, R430). -/
def frameBytes (entire : Bool) (cc : Byte) (st : State) : List Byte :=
  if entire then
    [cc, st.a, st.b, st.dp, hiByte st.x, loByte st.x, hiByte st.y, loByte st.y, hiByte st.u, loByte st.u, hiByte st.pc,
      loByte st.pc]
  else [cc, hiByte st.pc, loByte st.pc]

/-- The bytes `l` lie on the stack of `r` from its new pointer upward, in every cell that is plain; every other byte is left alone. -/
def Stacked (r : StackReg) (l : List Byte) (st t : State) : Prop :=
  t.sp r = st.sp r - BitVec.ofNat 16 l.length ∧
    (∀ j (h : j < l.length), PlainCell (t.sp r + BitVec.ofNat 16 j) st → memRead8 (t.sp r + BitVec.ofNat 16 j) t = l[j]) ∧
    SameBytesOutside (t.sp r) l.length st t

/-- The `n` cells below a stack pointer are not I/O. -/
def NoIoBelow (r : StackReg) (n : Nat) (st : State) : Prop :=
  ∀ j, j < n → (st.attr (st.sp r - 1 - BitVec.ofNat 16 j)).isIo = false

/-- The `n` cells below a stack pointer are plain. -/
def PlainBelow (r : StackReg) (n : Nat) (st : State) : Prop := ∀ j, j < n → PlainCell (st.sp r - 1 - BitVec.ofNat 16 j) st

/-- An interrupt or trap has been taken (R411, R426 to R431): the frame with the old masks and the entry's E is on S, the live E is the
entry's, the masks are set, PC is the Word at the vector as memory is after the stacking, and nothing else has changed. -/
def Entered (entire setI setF : Bool) (vector : Word) (st t : State) : Prop :=
  (∃ cc : Byte, (∀ k, flag k cc = if k = .e then entire else st.flag k) ∧ Stacked .s (frameBytes entire cc st) st t) ∧
    (∀ k, t.flag k = if k = .e then entire else if k = .i then (setI || st.flag .i)
      else if k = .f then (setF || st.flag .f) else st.flag k) ∧
    t.pc = memRead16 vector t ∧ KeepsExcept (.cc :: .s :: .pc :: portParts) st t ∧
    (NoIoBelow .s (if entire then 12 else 3) st → KeepsExcept [.cc, .s, .pc] st t)

/-! ## Families of one shape -/

/-- The accumulators. -/
inductive Acc where
  | a
  | b
deriving DecidableEq, Repr

def Acc.val (k : Acc) (st : State) : Byte :=
  match k with
  | .a => st.a
  | .b => st.b

def Acc.part : Acc → Part
  | .a => .a
  | .b => .b

/-- The instruction on A, or the one on B. -/
def Acc.pick (k : Acc) (onA onB : Instr) : Instr :=
  match k with
  | .a => onA
  | .b => onB

/-- The registers with 16-bit loads, stores and comparisons. -/
inductive WordReg where
  | d
  | x
  | y
  | u
  | s
deriving DecidableEq, Repr

def WordReg.val (k : WordReg) (st : State) : Word :=
  match k with
  | .d => st.d
  | .x => st.x
  | .y => st.y
  | .u => st.u
  | .s => st.s

/-- What a load of the register writes: S also arms NMI (R34). -/
def WordReg.parts : WordReg → List Part
  | .d => [.a, .b]
  | .x => [.x]
  | .y => [.y]
  | .u => [.u]
  | .s => [.s, .nmiArmed]

def WordReg.load (k : WordReg) (src : Src16) : Instr :=
  match k with
  | .d => .ldd src
  | .x => .ldx src
  | .y => .ldy src
  | .u => .ldu src
  | .s => .lds src

def WordReg.store (k : WordReg) (dst : MemOp) : Instr :=
  match k with
  | .d => .std dst
  | .x => .stx dst
  | .y => .sty dst
  | .u => .stu dst
  | .s => .sts dst

def WordReg.compare (k : WordReg) (src : Src16) : Instr :=
  match k with
  | .d => .cmpd src
  | .x => .cmpx src
  | .y => .cmpy src
  | .u => .cmpu src
  | .s => .cmps src

/-- What TFR and EXG write to a 16-bit register (R340). -/
def reg16Parts : Reg16 → List Part
  | .d => [.a, .b]
  | .x => [.x]
  | .y => [.y]
  | .u => [.u]
  | .s => [.s, .nmiArmed]
  | .pc => [.pc]

/-- What TFR and EXG write to an 8-bit register (R340). -/
def reg8Part : Reg8 → Part
  | .a => .a
  | .b => .b
  | .cc => .cc
  | .dp => .dp

/-- `nmi_armed` after a write to S that R34 names, as the model reads R34 (log 23, log 26); any other write leaves it. -/
def ArmedAfter (writesS : Bool) (st t : State) : Prop :=
  t.nmiArmed = (st.nmiArmed || (writesS && st.params.nmiArmOnSLoad))

/-- The one-operand operations that write their operand back. -/
inductive OneOp where
  | neg
  | inc
  | dec
  | com
  | clr
  | asl
  | asr
  | lsr
  | rol
  | ror
deriving DecidableEq, Repr

def OneOp.onAcc (op : OneOp) (k : Acc) : Instr :=
  match op with
  | .neg => k.pick .nega .negb
  | .inc => k.pick .inca .incb
  | .dec => k.pick .deca .decb
  | .com => k.pick .coma .comb
  | .clr => k.pick .clra .clrb
  | .asl => k.pick .asla .aslb
  | .asr => k.pick .asra .asrb
  | .lsr => k.pick .lsra .lsrb
  | .rol => k.pick .rola .rolb
  | .ror => k.pick .rora .rorb

def OneOp.onMem (op : OneOp) (dst : MemOp) : Instr :=
  match op with
  | .neg => .neg dst
  | .inc => .inc dst
  | .dec => .dec dst
  | .com => .com dst
  | .clr => .clr dst
  | .asl => .asl dst
  | .asr => .asr dst
  | .lsr => .lsr dst
  | .rol => .rol dst
  | .ror => .ror dst

/-- The result as a number, from the operand `m` and the old carry (R254 to R314). -/
def OneOp.result (op : OneOp) (m : Nat) (c : Bool) : Nat :=
  match op with
  | .neg => (256 - m) % 256
  | .inc => (m + 1) % 256
  | .dec => (m + 255) % 256
  | .com => 255 - m
  | .clr => 0
  | .asl => 2 * m % 256
  | .asr => m / 2 + (if 128 ≤ m then 128 else 0)
  | .lsr => m / 2
  | .rol => 2 * m % 256 + bitValue c
  | .ror => m / 2 + 128 * bitValue c

/-- V after, where the operation writes it: the signed overflow, or cleared; the right shifts leave it (R254 to R314). -/
def OneOp.overflow (op : OneOp) (m : Nat) : Option Bool :=
  match op with
  | .neg | .dec => some (decide (m = 128))
  | .inc => some (decide (m = 127))
  | .com | .clr => some false
  | .asl | .rol => some (decide (64 ≤ m ∧ m < 192))
  | .asr | .lsr | .ror => none

/-- C after, where the operation writes it: the borrow, the bit shifted out, or a constant; INC and DEC leave it (R254 to R314). -/
def OneOp.carry (op : OneOp) (m : Nat) : Option Bool :=
  match op with
  | .neg => some (decide (m ≠ 0))
  | .inc | .dec => none
  | .com => some true
  | .clr => some false
  | .asl | .rol => some (decide (128 ≤ m))
  | .asr | .lsr | .ror => some (decide (m % 2 = 1))

/-- The flags after a one-operand operation on `m`. -/
def OneOp.Flags (op : OneOp) (m : Nat) (st t : State) : Prop :=
  FlagsAfter st t none (some (decide (128 ≤ op.result m (st.flag .c)))) (some (decide (op.result m (st.flag .c) = 0)))
    (op.overflow m) (op.carry m)

/-- The bitwise operations. -/
inductive LogicOp where
  | and
  | or
  | eor
deriving DecidableEq, Repr

def LogicOp.bit (op : LogicOp) (p q : Bool) : Bool :=
  match op with
  | .and => p && q
  | .or => p || q
  | .eor => p != q

def LogicOp.instr (op : LogicOp) (k : Acc) (src : Src8) : Instr :=
  match op with
  | .and => k.pick (.anda src) (.andb src)
  | .or => k.pick (.ora src) (.orb src)
  | .eor => k.pick (.eora src) (.eorb src)

/-- The short branch on a condition. -/
def shortBranch (k : Cond) (o : Byte) : Instr :=
  match k with
  | .ra => .bra o
  | .rn => .brn o
  | .hi => .bhi o
  | .ls => .bls o
  | .cc => .bcc o
  | .cs => .bcs o
  | .ne => .bne o
  | .eq => .beq o
  | .vc => .bvc o
  | .vs => .bvs o
  | .pl => .bpl o
  | .mi => .bmi o
  | .ge => .bge o
  | .lt => .blt o
  | .gt => .bgt o
  | .le => .ble o

/-- The long branch on a condition. -/
def longBranch (k : Cond) (o : Word) : Instr :=
  match k with
  | .ra => .lbra o
  | .rn => .lbrn o
  | .hi => .lbhi o
  | .ls => .lbls o
  | .cc => .lbcc o
  | .cs => .lbcs o
  | .ne => .lbne o
  | .eq => .lbeq o
  | .vc => .lbvc o
  | .vs => .lbvs o
  | .pl => .lbpl o
  | .mi => .lbmi o
  | .ge => .lbge o
  | .lt => .lblt o
  | .gt => .lbgt o
  | .le => .lble o

/-- When a branch is taken, in the words of the table of R360. -/
def Taken (k : Cond) (n z v c : Bool) : Prop :=
  match k with
  | .ra => True
  | .rn => False
  | .hi => c = false ∧ z = false
  | .ls => c = true ∨ z = true
  | .cc => c = false
  | .cs => c = true
  | .ne => z = false
  | .eq => z = true
  | .vc => v = false
  | .vs => v = true
  | .pl => n = false
  | .mi => n = true
  | .ge => n = v
  | .lt => n ≠ v
  | .gt => z = false ∧ n = v
  | .le => z = true ∨ n ≠ v

/-- The instructions that write CC as a whole (R28). -/
def writesCc : Instr → Prop
  | .andcc _ | .orcc _ | .cwai _ | .rti => True
  | .tfr _ dst => dst = .r8 .cc
  | .exg r q => r = .r8 .cc ∨ q = .r8 .cc
  | .puls mask | .pulu mask => mask.getLsbD 0 = true
  | _ => False

/-- The instructions that can write DP (R26). -/
def writesDp : Instr → Prop
  | .rti => True
  | .tfr _ dst => dst = .r8 .dp
  | .exg r q => r = .r8 .dp ∨ q = .r8 .dp
  | .puls mask | .pulu mask => mask.getLsbD 3 = true
  | _ => False

/-- The writes to S that arm NMI: LDS, LEAS, a TFR to S, a PULU of S (R34), and an EXG with S as either register, by the model's
deduction (log 23). -/
def armsNmi : Instr → Prop
  | .lds _ | .leas _ => True
  | .tfr _ dst => dst = .r16 .s
  | .exg r q => r = .r16 .s ∨ q = .r16 .s
  | .pulu mask => mask.getLsbD 6 = true
  | _ => False

/-- A two-digit number as packed decimal digits. -/
def packedDecimal (n : Nat) : Byte := BitVec.ofNat 8 (n / 10 * 16 + n % 10)

end Sys2Proof.Machine
end

