-- ==== Sys2Proof/Certificates/Slice0/Obligations.lean ====
section
/-! DEFINITION. The statements for the provers, in the terms of Sys2Proof/Safety.lean. Each says which rules of spec/ it comes from;
a clause that rests on a choice of the model names its log entry. -/

open Sys2Proof Sys2Proof.Machine

/-! ## Encoding -/

/-- Every well-formed instruction, with every operand at every value, is what its bytes decode to, whatever follows them. -/
def Obligations.DecodeOfEncode : Prop :=
  ∀ (i : Instr) (b : Nat → Byte), i.WellFormed → (∀ k (h : k < (encode i).length), b k = (encode i)[k]) →
    decode b = .ok (i, (encode i).length)

/-- What decodes is well formed, is one to five bytes long (R100, R121), and those bytes are its encoding: no bit is ignored and no
two byte sequences mean the same term. -/
def Obligations.EncodeOfDecode : Prop :=
  ∀ (b : Nat → Byte) (i : Instr) (n : Nat), decode b = .ok (i, n) →
    i.WellFormed ∧ 1 ≤ n ∧ n ≤ 5 ∧ encode i = (List.range n).map b

/-- Words of every family decode to what the opcode map says (R116, R117, R145, R340). -/
def Obligations.SampleWordsDecode : Prop :=
  decode (streamOf [0x86, 0x01]) = .ok (.lda (.imm 0x01), 2) ∧
    decode (streamOf [0x10, 0xAE, 0x89, 0x12, 0x34]) = .ok (.ldy (.mem (.idx (.off16 .x 0x1234 false))), 5) ∧
    decode (streamOf [0xE7, 0xA0]) = .ok (.stb (.idx (.postInc .y .one false)), 2) ∧
    decode (streamOf [0x32, 0x7F]) = .ok (.leas (.off5 .s 0x1F), 2) ∧
    decode (streamOf [0xB9, 0x30, 0x02]) = .ok (.adca (.mem (.ext 0x3002)), 3) ∧
    decode (streamOf [0x60, 0x9F, 0x20, 0x00]) = .ok (.neg (.idx (.extInd 0x2000)), 4) ∧
    decode (streamOf [0x94, 0x34]) = .ok (.anda (.mem (.dir 0x34)), 2) ∧
    decode (streamOf [0x69, 0xB3]) = .ok (.rol (.idx (.preDec .y .two true)), 2) ∧
    decode (streamOf [0x1F, 0x8B]) = .ok (.tfr (.r8 .a) (.r8 .dp), 2) ∧
    decode (streamOf [0x36, 0x41]) = .ok (.pshu 0x41, 2) ∧
    decode (streamOf [0x10, 0x26, 0xFF, 0xFA]) = .ok (.lbne 0xFFFA, 4) ∧
    decode (streamOf [0x11, 0x3F]) = .ok (.swi3, 2)

/-- The illegal opcodes are exactly those of R118: 33 on page 1, and what R117 does not list on pages 2 and 3. -/
def Obligations.IllegalOpcodes : Prop :=
  ∀ b : Nat → Byte, (∃ page op, decode b = .error (.illegalOpcode page op)) ↔
    b 0 ∈ ([0x01, 0x02, 0x05, 0x0B, 0x14, 0x15, 0x18, 0x1B, 0x38, 0x3E, 0x41, 0x42, 0x45, 0x4B, 0x4E, 0x51, 0x52, 0x55, 0x5B,
        0x5E, 0x61, 0x62, 0x65, 0x6B, 0x71, 0x72, 0x75, 0x7B, 0x87, 0x8F, 0xC7, 0xCD, 0xCF] : List Byte) ∨
      (b 0 = 0x10 ∧ b 1 ∉ ([0x21, 0x22, 0x23, 0x24, 0x25, 0x26, 0x27, 0x28, 0x29, 0x2A, 0x2B, 0x2C, 0x2D, 0x2E, 0x2F, 0x3F, 0x83,
        0x8C, 0x8E, 0x93, 0x9C, 0x9E, 0x9F, 0xA3, 0xAC, 0xAE, 0xAF, 0xB3, 0xBC, 0xBE, 0xBF, 0xCE, 0xDE, 0xDF, 0xEE, 0xEF, 0xFE,
        0xFF] : List Byte)) ∨
      (b 0 = 0x11 ∧ b 1 ∉ ([0x3F, 0x83, 0x8C, 0x93, 0x9C, 0xA3, 0xAC, 0xB3, 0xBC] : List Byte))

/-- The illegal postbytes are exactly those of R119: the 39 indexed ones of R154, shown at LDA indexed, and the TFR and EXG ones with a
code that names no register (R341). -/
def Obligations.IllegalPostbytes : Prop :=
  (∀ b : Nat → Byte, b 0 = 0xA6 → (decode b = .error (.illegalPostbyte (b 1)) ↔
    b 1 ∈ ([0x87, 0x8A, 0x8E, 0x97, 0x9A, 0x9E, 0xA7, 0xAA, 0xAE, 0xB7, 0xBA, 0xBE, 0xC7, 0xCA, 0xCE, 0xD7, 0xDA, 0xDE, 0xE7, 0xEA,
      0xEE, 0xF7, 0xFA, 0xFE, 0x90, 0x92, 0xB0, 0xB2, 0xD0, 0xD2, 0xF0, 0xF2, 0x8F, 0xAF, 0xCF, 0xEF, 0xBF, 0xDF, 0xFF]
      : List Byte))) ∧
    (∀ b : Nat → Byte, b 0 = 0x1E ∨ b 0 = 0x1F → (decode b = .error (.illegalPostbyte (b 1)) ↔
      (b 1).toNat / 16 ∈ [0x6, 0x7, 0xC, 0xD, 0xE, 0xF] ∨ (b 1).toNat % 16 ∈ [0x6, 0x7, 0xC, 0xD, 0xE, 0xF]))

/-! ## The step -/

/-- RUNNING, with no interrupt the check accepts, a step runs the instruction whose bytes stand at PC: its meaning, with PC past its
bytes, and then `last_pc` and `last_len` (R420, R422, R423). -/
def Obligations.StepRunsDecoded : Prop :=
  ∀ (i : Instr) (st : State), i.WellFormed → st.execState = .running → st.nmiLatch = false →
    (st.firqLine = true → st.flag .f = true) → (st.irqLine = true → st.flag .i = true) →
    (∀ k (h : k < (encode i).length), memRead8 (st.pc + BitVec.ofNat 16 k) st = (encode i)[k]) →
    step st = match exec i { st with pc := st.pc + BitVec.ofNat 16 (encode i).length } with
      | .next t => .next { t with lastPc := st.pc, lastLen := BitVec.ofNat 8 (encode i).length }
      | .fault f => .fault f
      | .refused r => .refused r

/-- RUNNING, with no interrupt the check accepts, an illegal encoding at PC is reported as its Fault; FAULT and `last_pc` are all it
changes; from then on every step changes nothing and reports the same Fault, and only `reset` and `init` leave FAULT (R440, by the
spec's decision D3). That the Fault is the outcome of `step` and the state left that of `tick` is the model's choice (log 10). -/
def Obligations.IllegalEncodingFaults : Prop :=
  (∀ (st : State) (r : Reject), st.execState = .running → st.nmiLatch = false →
    (st.firqLine = true → st.flag .f = true) → (st.irqLine = true → st.flag .i = true) →
    decode (fun k => memRead8 (st.pc + BitVec.ofNat 16 k) st) = .error r →
    ∃ f, f = (match r with
        | .illegalOpcode page op => Fault.illegalOpcode st.pc page op
        | .illegalPostbyte pb => Fault.illegalPostbyte st.pc pb) ∧
      step st = .fault f ∧ tick st = ({ st with execState := .fault f, lastPc := st.pc }, some f)) ∧
    (∀ (st : State) (f : Fault), st.execState = .fault f → step st = .fault f ∧ tick st = (st, some f) ∧
      ∀ op t, applyPort op st = some t → t.execState = .fault f ∨ (∃ first, op = .reset first) ∨ ∃ addr, op = .init addr)

/-- The interrupt check of RUNNING: NMI, then FIRQ, then IRQ, each accepted exactly when R425 says, is entered as R426, R427 and R428
say; NMI clears its latch and no line is cleared by the CPU. That FIRQ_VECTOR (R6, D2) is a field of State is the model's choice
(log 4). -/
def Obligations.HardwareInterruptsTaken : Prop :=
  ∀ st : State, st.execState = .running →
    (st.nmiLatch = true → ∃ t, step st = .next t ∧ t.nmiLatch = false ∧
      Entered true true true 0xFFFC { st with nmiLatch := false } t) ∧
    (st.nmiLatch = false → st.firqLine = true → st.flag .f = false → ∃ t, step st = .next t ∧
      Entered false true true (if st.params.firqVector = .fff6 then 0xFFF6 else 0xFFFA) st t) ∧
    (st.nmiLatch = false → (st.firqLine = true → st.flag .f = true) → st.irqLine = true → st.flag .i = false →
      ∃ t, step st = .next t ∧ Entered true true false 0xFFF8 st t)

/-- A step in CWAI_WAIT: an acceptable interrupt stacks nothing, sets its masks, loads its vector and ends the wait; a masked line does
not; NMI clears its latch (R435, by the spec's decision D19). That FIRQ_VECTOR (R6, D2) is a field of State is the model's choice
(log 4). -/
def Obligations.CwaiWaitEnds : Prop :=
  ∀ st : State, st.execState = .cwaiWait → ∃ t, step st = .next t ∧ SameBytes st t ∧
    (st.nmiLatch = true → KeepsExcept [.cc, .pc, .nmiLatch, .execState] st t ∧ t.cc = st.cc ||| 0x50 ∧
      t.pc = memRead16 0xFFFC st ∧ t.nmiLatch = false ∧ t.execState = .running) ∧
    (st.nmiLatch = false → st.firqLine = true → st.flag .f = false → KeepsExcept [.cc, .pc, .execState] st t ∧
      t.cc = st.cc ||| 0x50 ∧ t.pc = memRead16 (if st.params.firqVector = .fff6 then 0xFFF6 else 0xFFFA) st ∧
      t.execState = .running) ∧
    (st.nmiLatch = false → (st.firqLine = true → st.flag .f = true) → st.irqLine = true → st.flag .i = false →
      KeepsExcept [.cc, .pc, .execState] st t ∧ t.cc = st.cc ||| 0x10 ∧ t.pc = memRead16 0xFFF8 st ∧
      t.execState = .running) ∧
    (st.nmiLatch = false → (st.firqLine = true → st.flag .f = true) → (st.irqLine = true → st.flag .i = true) → t = st)

/-- A step in SYNC_WAIT: any active input, masked or not, makes the core RUNNING and does no more; with none nothing changes (R436). -/
def Obligations.SyncWaitEnds : Prop :=
  ∀ st : State, st.execState = .syncWait →
    ((st.nmiLatch = true ∨ st.firqLine = true ∨ st.irqLine = true) → step st = .next { st with execState := .running }) ∧
    (st.nmiLatch = false → st.firqLine = false → st.irqLine = false → step st = .next st)

/-! ## Reset and the ports -/

/-- `reset(is_first)` and the reset exit (R471, R472): CC, DP, the latch, the arming and the state; PC from 0xFFFE at the exit. -/
def Obligations.ResetAndExit : Prop :=
  (∀ (first : Bool) (st : State), ∃ t, applyPort (.reset first) st = some t ∧
    KeepsExcept [.cc, .dp, .nmiLatch, .nmiArmed, .execState] st t ∧ t.mem = st.mem ∧ t.dp = 0 ∧ t.nmiLatch = false ∧
    t.nmiArmed = false ∧ t.execState = .reset ∧ (first = true → t.cc = 0x50) ∧
    (first = false → ∀ k, t.flag k = (decide (k = .i ∨ k = .f) || st.flag k))) ∧
    ∀ st : State, st.execState = .reset → ∃ t, step st = .next t ∧ KeepsExcept [.pc, .execState] st t ∧ t.mem = st.mem ∧
      memRead8 0xFFFE st = hiByte t.pc ∧ memRead8 0xFFFF st = loByte t.pc ∧ t.execState = .running

/-- `init(run_address)` (R473): registers, CC and DP zero, PC the address, the latch, the arming and the snapshot fields cleared,
RUNNING; memory and the two lines as they were. -/
def Obligations.InitClears : Prop :=
  ∀ (addr : Word) (st : State), ∃ t, applyPort (.init addr) st = some t ∧
    t.a = 0 ∧ t.b = 0 ∧ t.x = 0 ∧ t.y = 0 ∧ t.u = 0 ∧ t.s = 0 ∧ t.dp = 0 ∧ t.cc = 0 ∧ t.pc = addr ∧ t.nmiLatch = false ∧
    t.nmiArmed = false ∧ t.lastPc = 0 ∧ t.lastLen = 0 ∧ t.execState = .running ∧ t.mem = st.mem ∧
    KeepsExcept [.a, .b, .x, .y, .u, .s, .dp, .cc, .pc, .nmiLatch, .nmiArmed, .lastPc, .lastLen, .execState] st t

/-- The interrupt port (R424): an edge is latched, unless the arming parameter is true and NMI is not armed (R34); a level is the line. -/
def Obligations.InterruptInputs : Prop :=
  ∀ st : State,
    (∃ t, applyPort .nmiTrigger st = some t ∧ KeepsExcept [.nmiLatch] st t ∧ t.mem = st.mem ∧
      t.nmiLatch = (if st.params.nmiArmOnSLoad = true ∧ st.nmiArmed = false then st.nmiLatch else true)) ∧
    ∀ level, (∃ t, applyPort (.firq level) st = some t ∧ KeepsExcept [.firqLine] st t ∧ t.mem = st.mem ∧ t.firqLine = level) ∧
      ∃ t, applyPort (.irq level) st = some t ∧ KeepsExcept [.irqLine] st t ∧ t.mem = st.mem ∧ t.irqLine = level

/-- The host's byte read and write (R66, R70): the range test; the CPU's read and write inside it; the status. -/
def Obligations.HostReadAndWrite : Prop :=
  ∀ (address : Int) (v : Byte) (st : State),
    (¬ (0 ≤ address ∧ address ≤ 65535) → hostRead address st = .error .addressOutOfRange ∧
      hostWrite address v st = (st, .addressOutOfRange)) ∧
    (∀ k : Word, address = k.toNat → hostRead address st = .ok (memRead8 k st) ∧
      ((st.attr k).isRom = true → hostWrite address v st = (st, .romViolation)) ∧
      ((st.attr k).isRom = false → hostWrite address v st = (memWrite8 k v st, .ok) ∧
        SameBytesOutside k 1 st (hostWrite address v st).1 ∧
        ((st.attr k).isIo = false → hostRead address (hostWrite address v st).1 = .ok v)))

/-- `define_rom` (R72): inside the range test the cells `start .. end-1` become ROM and nothing else changes; outside it nothing does. -/
def Obligations.DefineRomMarksRange : Prop :=
  ∀ (start finish : Int) (st : State), st.Inv →
    (0 ≤ start → start ≤ finish → finish ≤ 65536 → ∃ t, defineRom start finish st = (t, .ok) ∧ KeepsExcept [.attrs] st t ∧
      t.mem = st.mem ∧ ∀ k : Word, t.attr k = { st.attr k with
        isRom := (st.attr k).isRom || (decide (start ≤ k.toNat) && decide (k.toNat < finish)) }) ∧
    (¬ (0 ≤ start ∧ start ≤ finish ∧ finish ≤ 65536) → defineRom start finish st = (st, .addressOutOfRange))

/-- `define_io` (R73): inside the range test the cells `start .. end-1` become I/O and dispatch to the handler; their data and ROM flag
are kept, every other cell is as it was and every other I/O cell dispatches as before; an empty range does nothing (D15). Up to 256 handlers (U24; the slots are the model's, log 11). -/
def Obligations.DefineIoRegistersHandler : Prop :=
  ∀ (start finish : Int) (h : Config.Handler) (st : State), st.Inv →
    (0 ≤ start → start ≤ finish → finish ≤ 65536 → h ∈ st.ioTable ∨ st.ioTable.length < 256 →
      ∃ t, defineIo start finish h st = some (t, .ok) ∧ KeepsExcept [.attrs, .ioTable] st t ∧ t.mem = st.mem ∧
        ∀ k : Word, (t.attr k).isRom = (st.attr k).isRom ∧
          (start ≤ k.toNat ∧ (k.toNat : Int) < finish → (t.attr k).isIo = true ∧ t.handler (t.attr k).ioIndex = h) ∧
          (¬ (start ≤ k.toNat ∧ (k.toNat : Int) < finish) → t.attr k = st.attr k ∧
            ((st.attr k).isIo = true → t.handler (t.attr k).ioIndex = st.handler (st.attr k).ioIndex))) ∧
    (0 ≤ start → start = finish → finish ≤ 65536 → defineIo start finish h st = some (st, .ok)) ∧
    (¬ (0 ≤ start ∧ start ≤ finish ∧ finish ≤ 65536) → defineIo start finish h st = some (st, .addressOutOfRange))

/-- `load` (R74): inside the range test the first `length` bytes of the buffer are stored and both flags of every touched cell are
cleared, with no handler called; every other cell is as it was; outside it, a negative length included, nothing changes. That a
length past the end of the buffer has no meaning is the model's choice (log 18). -/
def Obligations.LoadStoresImage : Prop :=
  ∀ (start : Int) (buffer : List Byte) (length : Int) (st : State), st.Inv →
    (0 ≤ start → 0 ≤ length → start + length ≤ 65536 → length ≤ buffer.length →
      ∃ t, load start buffer length st = some (t, .ok) ∧ KeepsExcept [.attrs] st t ∧
        (∀ j (h : j < buffer.length) (k : Word), (j : Int) < length → start + j = k.toNat → memRead8 k t = buffer[j] ∧
          (t.attr k).isRom = false ∧ (t.attr k).isIo = false) ∧
        ∀ k : Word, (k.toNat : Int) < start ∨ start + length ≤ k.toNat →
          memRead8 k t = memRead8 k st ∧ t.attr k = st.attr k) ∧
    (¬ (0 ≤ start ∧ 0 ≤ length ∧ start + length ≤ 65536) → load start buffer length st = some (st, .addressOutOfRange))

/-! ## Memory and operands -/

/-- The byte write (R69; ROM before I/O is the spec's own inference, D18): a ROM cell drops it, with or without the I/O flag; a plain
cell takes it; an I/O cell calls its handler once with (address, data, Write) and holds the answer, which for the no-op handler is
the data (R62). Every other cell is left alone, and a 16-bit write is two byte writes, the high byte first (R78). The handler's
answer is free (log 7), the list of calls the model's own (log 8). -/
def Obligations.ByteWrite : Prop :=
  ∀ (k : Word) (v : Byte) (st : State),
    SameBytesOutside k 1 st (memWrite8 k v st) ∧ KeepsExcept portParts st (memWrite8 k v st) ∧
    ((st.attr k).isRom = true → memWrite8 k v st = st) ∧
    (PlainCell k st → KeepsExcept [] st (memWrite8 k v st) ∧ memRead8 k (memWrite8 k v st) = v) ∧
    ((st.attr k).isRom = false → (st.attr k).isIo = true → ∃ call : Config.IoCall,
      call = { handler := st.handler (st.attr k).ioIndex, address := k, data := v, operation := .write } ∧
      (memWrite8 k v st).ioCalls = call :: st.ioCalls ∧
      (call.handler = .noOp → memRead8 k (memWrite8 k v st) = v ∧ KeepsExcept [.ioCalls] st (memWrite8 k v st)) ∧
      (∀ id, call.handler = .env id → memRead8 k (memWrite8 k v st) = (Config.ioReply st.freeIndex call).data ∧
        (memWrite8 k v st).firqLine = (Config.ioReply st.freeIndex call).firqLine ∧
        (memWrite8 k v st).irqLine = (Config.ioReply st.freeIndex call).irqLine)) ∧
    ∀ w : Word, memWrite16 k w st = memWrite8 (k + 1) (loByte w) (memWrite8 k (hiByte w) st)

/-- The direct, extended and relative addresses (R143, R144, R155): DP is the high byte with no carry into it; the offset of a branch is
signed and added to the next instruction's address, modulo 65,536. -/
def Obligations.DirectExtendedRelative : Prop :=
  ∀ (o : Byte) (w : Word) (st : State),
    (ea (.dir o) st).1.toNat = 256 * st.dp.toNat + o.toNat ∧ (ea (.dir o) st).2 = st ∧ ea (.ext w) st = (w, st) ∧
    target8 o st = BitVec.ofInt 16 (st.pc.toNat + o.toInt) ∧ target16 w st = BitVec.ofNat 16 (st.pc.toNat + w.toNat)

/-- The address of every indexed sub-mode (R147 to R152): the offset is signed, the sum is modulo 65,536, auto modification is by the
postbyte's amount, after or before, and an indirect mode reads the big-endian Word at the address computed. -/
def Obligations.IndexedAddresses : Prop :=
  ∀ (r : IdxReg) (ind : Bool) (st : State),
    let base := st.idx r
    let through (ind : Bool) (k : Word) : Word := if ind then joinBytes (memRead8 k st) (memRead8 (k + 1) st) else k
    (∀ o : BitVec 5, (eaIdx (.off5 r o) st).1 = BitVec.ofInt 16 (base.toNat + o.toInt)) ∧
    (eaIdx (.zero r ind) st).1 = through ind base ∧
    (∀ o : Byte, (eaIdx (.off8 r o ind) st).1 = through ind (BitVec.ofInt 16 (base.toNat + o.toInt))) ∧
    (∀ o : Word, (eaIdx (.off16 r o ind) st).1 = through ind (BitVec.ofInt 16 (base.toNat + o.toInt))) ∧
    (eaIdx (.accA r ind) st).1 = through ind (BitVec.ofInt 16 (base.toNat + st.a.toInt)) ∧
    (eaIdx (.accB r ind) st).1 = through ind (BitVec.ofInt 16 (base.toNat + st.b.toInt)) ∧
    (eaIdx (.accD r ind) st).1 = through ind (BitVec.ofNat 16 (base.toNat + 256 * st.a.toNat + st.b.toNat)) ∧
    (∀ o : Byte, (eaIdx (.pcr8 r o ind) st).1 = through ind (BitVec.ofInt 16 (st.pc.toNat + o.toInt))) ∧
    (∀ o : Word, (eaIdx (.pcr16 r o ind) st).1 = through ind (BitVec.ofInt 16 (st.pc.toNat + o.toInt))) ∧
    (∀ a : Word, (eaIdx (.extInd a) st).1 = through true a) ∧
    (eaIdx (.postInc r .one false) st).1 = base ∧ (eaIdx (.postInc r .two ind) st).1 = through ind base ∧
    (eaIdx (.preDec r .one false) st).1 = base - 1 ∧ (eaIdx (.preDec r .two ind) st).1 = through ind (base - 2)

/-- The resolution of a memory operand changes nothing but the base register of `,R+ ,R++ ,-R ,--R`, by one or two (R148, R149, R150);
a source operand is the byte, or the big-endian Word, at the address (R141, R77). -/
def Obligations.OperandResolution : Prop :=
  ∀ (m : MemOp) (st : State),
    KeepsExcept (memAutoParts m) st (ea m st).2 ∧ (ea m st).2.mem = st.mem ∧
    (∀ r ind, m = .idx (.postInc r .one ind) → ((ea m st).2.idx r).toNat = ((st.idx r).toNat + 1) % 65536) ∧
    (∀ r ind, m = .idx (.postInc r .two ind) → ((ea m st).2.idx r).toNat = ((st.idx r).toNat + 2) % 65536) ∧
    (∀ r ind, m = .idx (.preDec r .one ind) → ((ea m st).2.idx r).toNat = ((st.idx r).toNat + 65535) % 65536) ∧
    (∀ r ind, m = .idx (.preDec r .two ind) → ((ea m st).2.idx r).toNat = ((st.idx r).toNat + 65534) % 65536) ∧
    (operand8 (.mem m) st).1 = memRead8 (ea m st).1 st ∧
    (operand16 (.mem m) st).1.toNat = 256 * (memRead8 (ea m st).1 st).toNat + (memRead8 ((ea m st).1 + 1) st).toNat

/-! ## Loads, stores, load effective address -/

/-- LDA, LDB (R201, R202). -/
def Obligations.LoadByte : Prop :=
  ∀ (acc : Acc) (src : Src8) (st : State), ∃ t, exec (acc.pick (.lda src) (.ldb src)) st = .next t ∧
    acc.val t = (operand8 src st).1 ∧
    FlagsAfter st t none (some (decide (128 ≤ (operand8 src st).1.toNat))) (some (decide ((operand8 src st).1 = 0)))
      (some false) none ∧
    Reads8 src [acc.part, .cc] st t

/-- LDD, LDX, LDY, LDU, LDS (R203 to R207); LDS arms NMI where the parameter says so (R34). -/
def Obligations.LoadWord : Prop :=
  ∀ (r : WordReg) (src : Src16) (st : State), ∃ t, exec (r.load src) st = .next t ∧
    r.val t = (operand16 src st).1 ∧
    FlagsAfter st t none (some (decide (32768 ≤ (operand16 src st).1.toNat))) (some (decide ((operand16 src st).1 = 0)))
      (some false) none ∧
    ArmedAfter (decide (r = .s)) st t ∧ Reads16 src (.cc :: r.parts) st t

/-- STA, STB (R208, R209): the flags come from the register, whatever the cell does with the byte. -/
def Obligations.StoreByte : Prop :=
  ∀ (acc : Acc) (dst : MemOp) (st : State), ∃ t, exec (acc.pick (.sta dst) (.stb dst)) st = .next t ∧
    FlagsAfter st t none (some (decide (128 ≤ (acc.val st).toNat))) (some (decide (acc.val st = 0))) (some false) none ∧
    StoresByte dst (acc.val st) st t

/-- STD, STX, STY, STU, STS (R210 to R214): the register is read after the address is resolved (the spec's own inference in R153). -/
def Obligations.StoreWord : Prop :=
  ∀ (r : WordReg) (dst : MemOp) (st : State), ∃ t, exec (r.store dst) st = .next t ∧
    FlagsAfter st t none (some (decide (32768 ≤ (r.val (ea dst st).2).toNat))) (some (decide (r.val (ea dst st).2 = 0)))
      (some false) none ∧
    StoresWord dst (r.val (ea dst st).2) st t

/-- LEAX, LEAY write Z alone; LEAS, LEAU write no flag, and LEAS arms NMI where the parameter says so (R215 to R218, R34). The address
is written after any change of the base register, and no byte is stored. -/
def Obligations.LoadEffectiveAddress : Prop :=
  ∀ (mode : Indexed) (st : State),
    let k := (eaIdx mode st).1
    let st1 := (eaIdx mode st).2
    (∃ t, exec (.leax mode) st = .next t ∧ t.x = k ∧ FlagsAfter st t none none (some (decide (k = 0))) none none ∧
      KeepsExcept [.x, .cc] st1 t ∧ KeepsExcept (autoParts mode ++ [.x, .cc]) st t ∧ SameBytes st t) ∧
    (∃ t, exec (.leay mode) st = .next t ∧ t.y = k ∧ FlagsAfter st t none none (some (decide (k = 0))) none none ∧
      KeepsExcept [.y, .cc] st1 t ∧ KeepsExcept (autoParts mode ++ [.y, .cc]) st t ∧ SameBytes st t) ∧
    (∃ t, exec (.leas mode) st = .next t ∧ t.s = k ∧ ArmedAfter true st t ∧
      KeepsExcept [.s, .nmiArmed] st1 t ∧ KeepsExcept (autoParts mode ++ [.s, .nmiArmed]) st t ∧ SameBytes st t) ∧
    (∃ t, exec (.leau mode) st = .next t ∧ t.u = k ∧
      KeepsExcept [.u] st1 t ∧ KeepsExcept (autoParts mode ++ [.u]) st t ∧ SameBytes st t)

/-! ## Arithmetic -/

/-- ADDA, ADDB, ADCA, ADCB (R237 to R240) by `add8` (R230): the sum modulo 256, H the carry from bit 3, C the carry from bit 7, V set
exactly when the signed sum is outside -128..127. -/
def Obligations.AddBytes : Prop :=
  ∀ (acc : Acc) (withCarry : Bool) (src : Src8) (st : State),
    let a := acc.val st
    let m := (operand8 src st).1
    let c := bitValue (withCarry && st.flag .c)
    ∃ t, exec (if withCarry then acc.pick (.adca src) (.adcb src) else acc.pick (.adda src) (.addb src)) st = .next t ∧
      (acc.val t).toNat = (a.toNat + m.toNat + c) % 256 ∧
      FlagsAfter st t (some (decide (15 < a.toNat % 16 + m.toNat % 16 + c))) (some (acc.val t).msb)
        (some (decide (acc.val t = 0)))
        (some (decide (a.toInt + m.toInt + c < -128 ∨ 127 < a.toInt + m.toInt + c)))
        (some (decide (255 < a.toNat + m.toNat + c))) ∧
      Reads8 src [acc.part, .cc] st t

/-- SUBA, SUBB, SBCA, SBCB (R242 to R245) by `sub8` (R231): the difference modulo 256, C the borrow, V set exactly when the signed
difference is outside -128..127, H unchanged. -/
def Obligations.SubtractBytes : Prop :=
  ∀ (acc : Acc) (withCarry : Bool) (src : Src8) (st : State),
    let a := acc.val st
    let m := (operand8 src st).1
    let c := bitValue (withCarry && st.flag .c)
    ∃ t, exec (if withCarry then acc.pick (.sbca src) (.sbcb src) else acc.pick (.suba src) (.subb src)) st = .next t ∧
      (acc.val t).toNat = (a.toNat + 512 - m.toNat - c) % 256 ∧
      FlagsAfter st t none (some (acc.val t).msb) (some (decide (acc.val t = 0)))
        (some (decide (a.toInt - m.toInt - c < -128 ∨ 127 < a.toInt - m.toInt - c)))
        (some (decide (a.toNat < m.toNat + c))) ∧
      Reads8 src [acc.part, .cc] st t

/-- CMPA, CMPB (R247, R248): the flags of the subtraction; no register is written. -/
def Obligations.CompareBytes : Prop :=
  ∀ (acc : Acc) (src : Src8) (st : State),
    let a := acc.val st
    let m := (operand8 src st).1
    ∃ t, exec (acc.pick (.cmpa src) (.cmpb src)) st = .next t ∧
      FlagsAfter st t none (some (decide (128 ≤ (a.toNat + 256 - m.toNat) % 256))) (some (decide (a = m)))
        (some (decide (a.toInt - m.toInt < -128 ∨ 127 < a.toInt - m.toInt))) (some (decide (a.toNat < m.toNat))) ∧
      Reads8 src [.cc] st t

/-- ADDD, SUBD (R241, R246) by `add16`, `sub16` (R232, R233). -/
def Obligations.AddSubtractWord : Prop :=
  ∀ (src : Src16) (st : State),
    let d := st.d
    let m := (operand16 src st).1
    (∃ t, exec (.addd src) st = .next t ∧ t.d.toNat = (d.toNat + m.toNat) % 65536 ∧
      FlagsAfter st t none (some t.d.msb) (some (decide (t.d = 0)))
        (some (decide (d.toInt + m.toInt < -32768 ∨ 32767 < d.toInt + m.toInt)))
        (some (decide (65535 < d.toNat + m.toNat))) ∧ Reads16 src [.a, .b, .cc] st t) ∧
    (∃ t, exec (.subd src) st = .next t ∧ t.d.toNat = (d.toNat + 65536 - m.toNat) % 65536 ∧
      FlagsAfter st t none (some t.d.msb) (some (decide (t.d = 0)))
        (some (decide (d.toInt - m.toInt < -32768 ∨ 32767 < d.toInt - m.toInt)))
        (some (decide (d.toNat < m.toNat))) ∧ Reads16 src [.a, .b, .cc] st t)

/-- CMPD, CMPX, CMPY, CMPU, CMPS (R249 to R253): the register is compared after the operand is resolved (the spec's own inference
in R153). -/
def Obligations.CompareWords : Prop :=
  ∀ (r : WordReg) (src : Src16) (st : State),
    let a := r.val (operand16 src st).2
    let m := (operand16 src st).1
    ∃ t, exec (r.compare src) st = .next t ∧
      FlagsAfter st t none (some (decide (32768 ≤ (a.toNat + 65536 - m.toNat) % 65536))) (some (decide (a = m)))
        (some (decide (a.toInt - m.toInt < -32768 ∨ 32767 < a.toInt - m.toInt))) (some (decide (a.toNat < m.toNat))) ∧
      Reads16 src [.cc] st t

/-- NEGA, INCA, DECA, COMA, CLRA and their forms on B (R255, R256, R258, R259, R261, R262, R292, R293, R295, R296), with the results
and flags over the integers. -/
def Obligations.OneOperandOnAccumulator : Prop :=
  ∀ (op : OneOp) (acc : Acc) (st : State), op ∈ [OneOp.neg, .inc, .dec, .com, .clr] →
    ∃ t, exec (op.onAcc acc) st = .next t ∧ (acc.val t).toNat = op.result (acc.val st).toNat (st.flag .c) ∧
      op.Flags (acc.val st).toNat st t ∧ KeepsExcept [acc.part, .cc] st t ∧ SameBytes st t

/-- NEG, INC, DEC, COM, CLR on memory (R254, R257, R260, R291, R294): one byte write of the result to the address of the operand. -/
def Obligations.OneOperandOnMemory : Prop :=
  ∀ (op : OneOp) (dst : MemOp) (st : State), op ∈ [OneOp.neg, .inc, .dec, .com, .clr] →
    ∃ (t : State) (v : Byte), exec (op.onMem dst) st = .next t ∧
      v.toNat = op.result (memRead8 (ea dst st).1 st).toNat (st.flag .c) ∧
      op.Flags (memRead8 (ea dst st).1 st).toNat st t ∧ StoresByte dst v st t

/-- ASLA, ASRA, LSRA, ROLA, RORA and their forms on B (R301, R302, R304, R305, R307, R308, R310, R311, R313, R314). -/
def Obligations.ShiftOnAccumulator : Prop :=
  ∀ (op : OneOp) (acc : Acc) (st : State), op ∈ [OneOp.asl, .asr, .lsr, .rol, .ror] →
    ∃ t, exec (op.onAcc acc) st = .next t ∧ (acc.val t).toNat = op.result (acc.val st).toNat (st.flag .c) ∧
      op.Flags (acc.val st).toNat st t ∧ KeepsExcept [acc.part, .cc] st t ∧ SameBytes st t

/-- ASL, ASR, LSR, ROL, ROR on memory (R300, R303, R306, R309, R312). -/
def Obligations.ShiftOnMemory : Prop :=
  ∀ (op : OneOp) (dst : MemOp) (st : State), op ∈ [OneOp.asl, .asr, .lsr, .rol, .ror] →
    ∃ (t : State) (v : Byte), exec (op.onMem dst) st = .next t ∧
      v.toNat = op.result (memRead8 (ea dst st).1 st).toNat (st.flag .c) ∧
      op.Flags (memRead8 (ea dst st).1 st).toNat st t ∧ StoresByte dst v st t

/-- TST, TSTA, TSTB (R297 to R299): N and Z from the byte, V cleared, nothing written. -/
def Obligations.TestByte : Prop :=
  ∀ (acc : Acc) (src : MemOp) (st : State),
    (∃ t, exec (acc.pick .tsta .tstb) st = .next t ∧
      FlagsAfter st t none (some (decide (128 ≤ (acc.val st).toNat))) (some (decide (acc.val st = 0))) (some false) none ∧
      KeepsExcept [.cc] st t ∧ SameBytes st t) ∧
    (∃ t, exec (.tst src) st = .next t ∧
      FlagsAfter st t none (some (decide (128 ≤ (memRead8 (ea src st).1 st).toNat)))
        (some (decide (memRead8 (ea src st).1 st = 0))) (some false) none ∧
      Reads8 (.mem src) [.cc] st t)

/-- DAA (R264): the correction, N and Z from the new A, C never cleared; V takes the free value `DAA_V`, whatever it is (log 5); the
counter of the free values is the model's (log 9). -/
def Obligations.DecimalAdjust : Prop :=
  ∀ st : State,
    let lsn := st.a.toNat % 16
    let msn := st.a.toNat / 16
    let cf := (if st.flag .h = true ∨ 9 < lsn then 6 else 0) +
      (if st.flag .c = true ∨ 9 < msn ∨ (8 < msn ∧ 9 < lsn) then 96 else 0)
    ∃ t, exec .daa st = .next t ∧ t.a.toNat = (st.a.toNat + cf) % 256 ∧
      FlagsAfter st t none (some t.a.msb) (some (decide (t.a = 0))) (some (Config.daaV st.freeIndex st.a st.cc))
        (some (st.flag .c || decide (255 < st.a.toNat + cf))) ∧
      KeepsExcept [.a, .cc, .freeIndex] st t ∧ SameBytes st t

/-- ADCA then DAA adds two-digit decimal numbers with the carry in and out (R239, R264). -/
def Obligations.DecimalAddition : Prop :=
  ∀ (p q : Nat) (st : State), p < 100 → q < 100 → st.a = packedDecimal p →
    ∃ t u, exec (.adca (.imm (packedDecimal q))) st = .next t ∧ exec .daa t = .next u ∧
      u.a = packedDecimal ((p + q + bitValue (st.flag .c)) % 100) ∧
      u.flag .c = decide (100 ≤ p + q + bitValue (st.flag .c))

/-- MUL: the unsigned product in D, Z from it, C its bit 7 (R263); ABX adds B unsigned and writes no flag (R265); SEX extends the sign
of B into A, N and Z from D, V kept (R266, D21). -/
def Obligations.MultiplyAbxSex : Prop :=
  ∀ st : State,
    (∃ t, exec .mul st = .next t ∧ t.d.toNat = st.a.toNat * st.b.toNat ∧
      FlagsAfter st t none none (some (decide (st.a.toNat * st.b.toNat = 0))) none
        (some (decide (st.a.toNat * st.b.toNat / 128 % 2 = 1))) ∧
      KeepsExcept [.a, .b, .cc] st t ∧ SameBytes st t) ∧
    (∃ t, exec .abx st = .next t ∧ t.x.toNat = (st.x.toNat + st.b.toNat) % 65536 ∧ KeepsExcept [.x] st t ∧ SameBytes st t) ∧
    (∃ t, exec .sex st = .next t ∧ t.d.toInt = st.b.toInt ∧
      FlagsAfter st t none (some (decide (st.b.toInt < 0))) (some (decide (st.b = 0))) none none ∧
      KeepsExcept [.a, .cc] st t ∧ SameBytes st t)

/-! ## Logic -/

/-- ANDA, ORA, EORA and their forms on B (R281 to R286), bit by bit; BITA, BITB give the flags of the AND and write no register
(R287, R288). -/
def Obligations.LogicOnAccumulator : Prop :=
  ∀ (acc : Acc) (src : Src8) (st : State),
    let m := (operand8 src st).1
    (∀ op : LogicOp, ∃ (t : State) (v : Byte), exec (op.instr acc src) st = .next t ∧
      (∀ k, k < 8 → v.getLsbD k = op.bit ((acc.val st).getLsbD k) (m.getLsbD k)) ∧ acc.val t = v ∧
      FlagsAfter st t none (some v.msb) (some (decide (v = 0))) (some false) none ∧ Reads8 src [acc.part, .cc] st t) ∧
    (∃ (t : State) (v : Byte), exec (acc.pick (.bita src) (.bitb src)) st = .next t ∧
      (∀ k, k < 8 → v.getLsbD k = ((acc.val st).getLsbD k && m.getLsbD k)) ∧
      FlagsAfter st t none (some v.msb) (some (decide (v = 0))) (some false) none ∧ Reads8 src [.cc] st t)

/-- ANDCC and ORCC reach all eight bits of CC (R289, R290). -/
def Obligations.ConditionCodeMasks : Prop :=
  ∀ (mask : Byte) (st : State),
    (∃ t, exec (.andcc mask) st = .next t ∧ (∀ k, t.flag k = (st.flag k && flag k mask)) ∧ KeepsExcept [.cc] st t ∧
      SameBytes st t) ∧
    (∃ t, exec (.orcc mask) st = .next t ∧ (∀ k, t.flag k = (st.flag k || flag k mask)) ∧ KeepsExcept [.cc] st t ∧
      SameBytes st t)

/-! ## Transfer, push, pull -/

/-- TFR (R342): between registers of one width the value; between widths the free function of the two codes and the value, whatever it
is (R343, log 6). CC and PC are written whole, a write to S arms NMI (R340, R34); that TFR S,S arms too is the model's choice
(log 26). -/
def Obligations.TransferRegister : Prop :=
  ∀ st : State,
    (∀ r q : Reg16, ∃ t, exec (.tfr (.r16 r) (.r16 q)) st = .next t ∧ t.reg16 q = st.reg16 r ∧ ArmedAfter (decide (q = .s)) st t ∧
      KeepsExcept (reg16Parts q) st t ∧ SameBytes st t) ∧
    (∀ r q : Reg8, ∃ t, exec (.tfr (.r8 r) (.r8 q)) st = .next t ∧ t.reg8 q = st.reg8 r ∧ KeepsExcept [reg8Part q] st t ∧
      SameBytes st t) ∧
    (∀ (r : Reg16) (q : Reg8), ∃ t, exec (.tfr (.r16 r) (.r8 q)) st = .next t ∧
      t.reg8 q = Config.mixedTo8 r.code q.code (st.reg16 r) ∧ KeepsExcept [reg8Part q] st t ∧ SameBytes st t) ∧
    (∀ (r : Reg8) (q : Reg16), ∃ t, exec (.tfr (.r8 r) (.r16 q)) st = .next t ∧
      t.reg16 q = Config.mixedTo16 r.code q.code (st.reg8 r) ∧ ArmedAfter (decide (q = .s)) st t ∧
      KeepsExcept (reg16Parts q) st t ∧ SameBytes st t)

/-- EXG (R344): registers of one width swap; between widths each takes the free function of the other's old value, the second written
last (R343, read so by log 6), so that D holds the value moved to it unless the other is A or B and is written after it; then the
other byte of D is the moved value's. That S as either register arms NMI is the model's deduction from R34 (log 23), and that EXG
S,S does is its choice (log 26). -/
def Obligations.ExchangeRegisters : Prop :=
  ∀ st : State,
    (∀ r q : Reg16, ∃ t, exec (.exg (.r16 r) (.r16 q)) st = .next t ∧ t.reg16 r = st.reg16 q ∧ t.reg16 q = st.reg16 r ∧
      ArmedAfter (decide (r = .s) || decide (q = .s)) st t ∧ KeepsExcept (reg16Parts r ++ reg16Parts q) st t ∧ SameBytes st t) ∧
    (∀ r q : Reg8, ∃ t, exec (.exg (.r8 r) (.r8 q)) st = .next t ∧ t.reg8 r = st.reg8 q ∧ t.reg8 q = st.reg8 r ∧
      KeepsExcept [reg8Part r, reg8Part q] st t ∧ SameBytes st t) ∧
    (∀ (r : Reg8) (q : Reg16),
      (∃ t, exec (.exg (.r8 r) (.r16 q)) st = .next t ∧ t.reg16 q = Config.mixedTo16 r.code q.code (st.reg8 r) ∧
        (reg8Part r ∉ reg16Parts q → t.reg8 r = Config.mixedTo8 q.code r.code (st.reg16 q)) ∧
        ArmedAfter (decide (q = .s)) st t ∧ KeepsExcept (reg8Part r :: reg16Parts q) st t ∧ SameBytes st t) ∧
      (∃ t, exec (.exg (.r16 q) (.r8 r)) st = .next t ∧ t.reg8 r = Config.mixedTo8 q.code r.code (st.reg16 q) ∧
        (reg8Part r ∉ reg16Parts q → t.reg16 q = Config.mixedTo16 r.code q.code (st.reg8 r)) ∧
        (q = .d → r = .a → t.b = loByte (Config.mixedTo16 r.code q.code (st.reg8 r))) ∧
        (q = .d → r = .b → t.a = hiByte (Config.mixedTo16 r.code q.code (st.reg8 r))) ∧
        ArmedAfter (decide (q = .s)) st t ∧ KeepsExcept (reg8Part r :: reg16Parts q) st t ∧ SameBytes st t))

/-- PSHS, PSHU (R346 to R348, R351): the pointer moves by the byte count of the mask; the registers named lie from the new pointer
upward in the order CC, A, B, DP, X, Y, U or S, PC; nothing else changes, but for the handler port where a cell is I/O. -/
def Obligations.PushRegisters : Prop :=
  ∀ (mask : Byte) (st : State) (r : StackReg), ∃ t,
    exec (match r with
      | .s => .pshs mask
      | .u => .pshu mask) st = .next t ∧
    (stackedBytes r mask st).length = maskBytes mask ∧ Stacked r (stackedBytes r mask st) st t ∧
    KeepsExcept (spPart r :: portParts) st t ∧ (NoIoBelow r (maskBytes mask) st → KeepsExcept [spPart r] st t)

/-- PULS, PULU (R346, R349, R350, R352): each register named takes the byte or Word at its place above the pointer, the place of a
register being the byte count of the lower mask bits; PULU of S arms NMI (R34, R352); memory is not changed. That the move of S by
PULS itself does not arm is the model's deduction from R34 (log 23). -/
def Obligations.PullRegisters : Prop :=
  ∀ (mask : Byte) (st : State) (r : StackReg), ∃ t,
    exec (match r with
      | .s => .puls mask
      | .u => .pulu mask) st = .next t ∧
    (let place (bit : Nat) : Word := st.sp r + BitVec.ofNat 16 (maskBytes (mask &&& BitVec.ofNat 8 (2 ^ bit - 1)))
    t.sp r = st.sp r + BitVec.ofNat 16 (maskBytes mask) ∧
    t.cc = (if mask.getLsbD 0 then memRead8 (place 0) st else st.cc) ∧
    t.a = (if mask.getLsbD 1 then memRead8 (place 1) st else st.a) ∧
    t.b = (if mask.getLsbD 2 then memRead8 (place 2) st else st.b) ∧
    t.dp = (if mask.getLsbD 3 then memRead8 (place 3) st else st.dp) ∧
    t.x = (if mask.getLsbD 4 then memRead16 (place 4) st else st.x) ∧
    t.y = (if mask.getLsbD 5 then memRead16 (place 5) st else st.y) ∧
    t.sp r.other = (if mask.getLsbD 6 then memRead16 (place 6) st else st.sp r.other) ∧
    t.pc = (if mask.getLsbD 7 then memRead16 (place 7) st else st.pc)) ∧
    ArmedAfter (decide (r = .u) && mask.getLsbD 6) st t ∧
    KeepsExcept [.cc, .a, .b, .dp, .x, .y, .u, .s, .pc, .nmiArmed] st t ∧ SameBytes st t

/-- A push directly followed by the matching pull restores every register, provided the cells are plain (the
spec's own inference in R353). -/
def Obligations.PullUndoesPush : Prop :=
  ∀ (mask : Byte) (st : State) (r : StackReg), PlainBelow r (maskBytes mask) st →
    ∃ t u, exec (match r with
        | .s => .pshs mask
        | .u => .pshu mask) st = .next t ∧
      exec (match r with
        | .s => .puls mask
        | .u => .pulu mask) t = .next u ∧
      KeepsExcept [.nmiArmed] st u ∧ SameBytesOutside (t.sp r) (maskBytes mask) st u

/-! ## Branches, calls, jumps -/

/-- The thirty-two branches (R360 to R377, R379 to R394): taken exactly when the table of R360 says, to the next instruction's address
plus the offset; PC is all they change. -/
def Obligations.Branches : Prop :=
  ∀ (k : Cond) (st : State),
    let taken : Prop := Taken k (st.flag .n) (st.flag .z) (st.flag .v) (st.flag .c)
    (∀ o : Byte, ∃ t, exec (shortBranch k o) st = .next t ∧ KeepsExcept [.pc] st t ∧ SameBytes st t ∧
      (taken → t.pc = BitVec.ofInt 16 (st.pc.toNat + o.toInt)) ∧ (¬ taken → t.pc = st.pc)) ∧
    (∀ o : Word, ∃ t, exec (longBranch k o) st = .next t ∧ KeepsExcept [.pc] st t ∧ SameBytes st t ∧
      (taken → t.pc = BitVec.ofNat 16 (st.pc.toNat + o.toNat)) ∧ (¬ taken → t.pc = st.pc))

/-- After a comparison the unsigned and signed conditions say what their names say (R247, R360). -/
def Obligations.CompareThenBranch : Prop :=
  ∀ (acc : Acc) (src : Src8) (st : State) (k : Cond) (o : Byte),
    let a := acc.val st
    let m := (operand8 src st).1
    ∃ t u, exec (acc.pick (.cmpa src) (.cmpb src)) st = .next t ∧ exec (shortBranch k o) t = .next u ∧
      (k = .hi → u.pc = if m.toNat < a.toNat then target8 o t else t.pc) ∧
      (k = .ls → u.pc = if a.toNat ≤ m.toNat then target8 o t else t.pc) ∧
      (k = .cs → u.pc = if a.toNat < m.toNat then target8 o t else t.pc) ∧
      (k = .eq → u.pc = if a = m then target8 o t else t.pc) ∧
      (k = .ge → u.pc = if m.toInt ≤ a.toInt then target8 o t else t.pc) ∧
      (k = .lt → u.pc = if a.toInt < m.toInt then target8 o t else t.pc) ∧
      (k = .gt → u.pc = if m.toInt < a.toInt then target8 o t else t.pc) ∧
      (k = .le → u.pc = if a.toInt ≤ m.toInt then target8 o t else t.pc)

/-- BSR, LBSR, JSR (R378, R395, R397): the address of the next instruction is pushed on S, high byte at the lower address, and PC takes
the target; a JSR resolves its operand first and pushes through the S that leaves (the spec's own
inference in R153). -/
def Obligations.Calls : Prop :=
  ∀ st : State,
    (∀ (i : Instr) (k : Word), (∃ o, i = .bsr o ∧ k = BitVec.ofInt 16 (st.pc.toNat + o.toInt)) ∨
        (∃ o, i = .lbsr o ∧ k = BitVec.ofNat 16 (st.pc.toNat + o.toNat)) →
      ∃ t, exec i st = .next t ∧ t.pc = k ∧ Stacked .s [hiByte st.pc, loByte st.pc] st t ∧
        KeepsExcept (.pc :: .s :: portParts) st t ∧ (NoIoBelow .s 2 st → KeepsExcept [.pc, .s] st t)) ∧
    (∀ m : MemOp, let st1 := (ea m st).2
      ∃ t, exec (.jsr m) st = .next t ∧ t.pc = (ea m st).1 ∧ Stacked .s [hiByte st.pc, loByte st.pc] st1 t ∧
        KeepsExcept (.pc :: .s :: portParts) st1 t ∧ KeepsExcept (memAutoParts m ++ .pc :: .s :: portParts) st t ∧
        (NoIoBelow .s 2 st1 → KeepsExcept [.pc, .s] st1 t))

/-- JMP takes the address itself and makes no data access (R396); RTS pulls PC from S, high byte first (R398); NOP changes nothing (R410);
SYNC changes the execution state alone (R416). -/
def Obligations.JumpReturnNopSync : Prop :=
  ∀ st : State,
    (∀ m : MemOp, ∃ t, exec (.jmp m) st = .next t ∧ t.pc = (ea m st).1 ∧ KeepsExcept [.pc] (ea m st).2 t ∧
      KeepsExcept (memAutoParts m ++ [.pc]) st t ∧ SameBytes st t) ∧
    (∃ t, exec .rts st = .next t ∧ hiByte t.pc = memRead8 st.s st ∧ loByte t.pc = memRead8 (st.s + 1) st ∧
      t.s.toNat = (st.s.toNat + 2) % 65536 ∧ KeepsExcept [.pc, .s] st t ∧ SameBytes st t) ∧
    exec .nop st = .next st ∧
    (∃ t, exec .sync st = .next t ∧ t.execState = .syncWait ∧ KeepsExcept [.execState] st t ∧ SameBytes st t)

/-! ## System -/

/-- SWI, SWI2, SWI3 (R411, R412, R413): each takes its trap, whatever the masks. -/
def Obligations.SoftwareInterrupts : Prop :=
  ∀ st : State,
    (∃ t, exec .swi st = .next t ∧ Entered true true true 0xFFFA st t) ∧
    (∃ t, exec .swi2 st = .next t ∧ Entered true false false 0xFFF4 st t) ∧
    (∃ t, exec .swi3 st = .next t ∧ Entered true false false 0xFFF2 st t)

/-- CWAI (R415): CC is masked and E set, that CC and the whole register file are stacked, and the wait begins. -/
def Obligations.CwaiStacksAndWaits : Prop :=
  ∀ (mask : Byte) (st : State), ∃ t, exec (.cwai mask) st = .next t ∧
    (∀ k, t.flag k = (decide (k = .e) || (st.flag k && flag k mask))) ∧
    Stacked .s (frameBytes true t.cc st) st t ∧ t.execState = .cwaiWait ∧
    KeepsExcept (.cc :: .s :: .execState :: portParts) st t ∧
    (NoIoBelow .s 12 st → KeepsExcept [.cc, .s, .execState] st t)

/-- RTI (R414): the E of the CC pulled decides between the full restore of twelve bytes and CC and PC alone. -/
def Obligations.ReturnFromInterrupt : Prop :=
  ∀ st : State, ∃ t, exec .rti st = .next t ∧ t.cc = memRead8 st.s st ∧ SameBytes st t ∧
    (flag .e (memRead8 st.s st) = true → t.a = memRead8 (st.s + 1) st ∧ t.b = memRead8 (st.s + 2) st ∧
      t.dp = memRead8 (st.s + 3) st ∧ t.x = memRead16 (st.s + 4) st ∧ t.y = memRead16 (st.s + 6) st ∧
      t.u = memRead16 (st.s + 8) st ∧ t.pc = memRead16 (st.s + 10) st ∧ t.s = st.s + 12 ∧
      KeepsExcept [.cc, .a, .b, .dp, .x, .y, .u, .s, .pc] st t) ∧
    (flag .e (memRead8 st.s st) = false → t.pc = memRead16 (st.s + 1) st ∧ t.s = st.s + 3 ∧
      KeepsExcept [.cc, .s, .pc] st t)

/-- Taking any interrupt or trap and returning from it restores every register, the masks and PC, and leaves E as the entry wrote it,
provided the frame's cells are plain; `pc` is wherever the handler's RTI stands (R433; the spec's
own inference in R451). -/
def Obligations.InterruptRoundTrip : Prop :=
  ∀ (k : EntryKind) (pc : Word) (st : State), PlainBelow .s (if k = .firq then 3 else 12) st →
    ∃ u, exec .rti { takeInterrupt k st with pc := pc } = .next u ∧ KeepsExcept [.cc] st u ∧
      ∀ j, u.flag j = if j = .e then decide (k ≠ .firq) else st.flag j

/-! ## Rules of the whole machine -/

/-- Every step keeps the invariant. -/
def Obligations.StepKeepsInvariant : Prop := ∀ st t : State, st.Inv → step st = .next t → t.Inv

/-- The invariant holds at reset. CC, DP, the latch, the arming, the execution state and memory are what R38, R64 and R471 give; the
clause on `last_len` rests on the value the model names for it (log 1), and what `State.reset` is on log 2. -/
def Obligations.ResetSatisfiesInvariant : Prop := State.reset.Inv

/-- Every operation of the ports keeps the invariant. -/
def Obligations.PortsKeepInvariant : Prop := ∀ (op : PortOp) (st t : State), st.Inv → applyPort op st = some t → t.Inv

/-- No step changes the data of a ROM cell, a cell's attributes, the dispatch table or a parameter (R69, R83, R6;
the parameters are held in State, log 4). -/
def Obligations.StepLeavesRomAndSetup : Prop :=
  ∀ st t : State, step st = .next t →
    (∀ k : Word, (st.attr k).isRom = true → memRead8 k t = memRead8 k st) ∧
    t.attrs = st.attrs ∧ t.ioTable = st.ioTable ∧ t.params = st.params

/-- A handler is called by a step only for a byte written to an I/O cell that is not ROM, with the handler of the cell's slot and the
operation Write (R67, R69); the CPU itself never writes the two lines and never sets the NMI latch (R33). The list of calls is the
model's own (log 8). -/
def Obligations.StepCallsHandlersOnlyByWrites : Prop :=
  ∀ st t : State, step st = .next t →
    (∃ new, t.ioCalls = new ++ st.ioCalls ∧ ∀ c ∈ new, c.operation = .write ∧ (st.attr c.address).isIo = true ∧
      (st.attr c.address).isRom = false ∧ c.handler = st.handler (st.attr c.address).ioIndex) ∧
    (t.ioCalls = st.ioCalls → t.firqLine = st.firqLine ∧ t.irqLine = st.irqLine) ∧
    (t.nmiLatch = true → st.nmiLatch = true)

/-- Which instructions can change H, I, F, E, DP, `nmi_armed` and the execution state (R26, R28, R29, R31, R34, D10). That an EXG with
S as either register arms NMI and that the writes to S which R34 does not name leave it is the model's deduction (log 23). -/
def Obligations.WritersOfControlState : Prop :=
  ∀ (i : Instr) (st t : State), exec i st = .next t →
    (t.flag .h ≠ st.flag .h → writesCc i ∨ ∃ src, i = .adda src ∨ i = .addb src ∨ i = .adca src ∨ i = .adcb src) ∧
    (t.flag .i ≠ st.flag .i ∨ t.flag .f ≠ st.flag .f → writesCc i ∨ i = .swi) ∧
    (t.flag .e ≠ st.flag .e → writesCc i ∨ i = .swi ∨ i = .swi2 ∨ i = .swi3) ∧
    (t.dp ≠ st.dp → writesDp i) ∧
    (t.nmiArmed ≠ st.nmiArmed → armsNmi i ∧ st.params.nmiArmOnSLoad = true ∧ t.nmiArmed = true) ∧
    (t.execState ≠ st.execState → (∃ mask, i = .cwai mask ∧ t.execState = .cwaiWait) ∨ (i = .sync ∧ t.execState = .syncWait))
end

