-- ==== Sys2Proof/Laws/Memory.lean ====
section
/-! SUPPORT. The laws of the memory and of the attribute list: what a read answers after a write, the canonical form, and that two
canonical memories with the same bytes are the same data. -/

namespace Sys2Proof.Machine

/-! ## Reads after writes: for every list, canonical or not -/

theorem Memory.read_erase_self (m : List Host.Cell) (a : Nat) : Memory.read (Memory.erase m a) a = unlistedByte := by
  induction m with
  | nil => rfl
  | cons c rest ih => by_cases h : c.1 = a <;> simp [Memory.erase, Memory.read, h, ih]

theorem Memory.read_erase_other {a b : Nat} (m : List Host.Cell) (h : b ≠ a) :
    Memory.read (Memory.erase m a) b = Memory.read m b := by
  induction m with
  | nil => rfl
  | cons c rest ih =>
    obtain ⟨k, w⟩ := c
    by_cases h1 : k = a
    · subst h1; simp [Memory.erase, Memory.read, ih, Ne.symm h]
    · simp [Memory.erase, Memory.read, h1, ih]

theorem Memory.read_insert_self (m : List Host.Cell) (a : Nat) (v : Byte) : Memory.read (Memory.insert m a v) a = v := by
  induction m with
  | nil => simp [Memory.insert, Memory.read]
  | cons c rest ih =>
    obtain ⟨k, w⟩ := c
    simp only [Memory.insert]
    split
    · simp [Memory.read]
    · split
      · simp [Memory.read]
      · rename_i h; simp [Memory.read, ih, Ne.symm h]

theorem Memory.read_insert_other {a b : Nat} (m : List Host.Cell) (v : Byte) (h : b ≠ a) :
    Memory.read (Memory.insert m a v) b = Memory.read m b := by
  have h' : ¬ a = b := fun e => h e.symm
  induction m with
  | nil => simp [Memory.insert, Memory.read, h']
  | cons c rest ih =>
    simp only [Memory.insert]
    split
    · simp [Memory.read, h']
    · split
      · rename_i e; simp [Memory.read, h', ← e]
      · simp [Memory.read, ih]

/-- A read of the address written gives the byte written. -/
theorem Memory.read_write_self (m : List Host.Cell) (a : Nat) (v : Byte) : Memory.read (Memory.write m a v) a = v := by
  unfold Memory.write
  split
  · rename_i h; rw [h, Memory.read_erase_self]
  · exact Memory.read_insert_self m a v

/-- A write leaves every other address alone. -/
theorem Memory.read_write_other {a b : Nat} (m : List Host.Cell) (v : Byte) (h : b ≠ a) :
    Memory.read (Memory.write m a v) b = Memory.read m b := by
  unfold Memory.write
  split
  · exact Memory.read_erase_other m h
  · exact Memory.read_insert_other m v h

/-! ## The canonical form -/

theorem Memory.wfFrom_cons {low k : Nat} {w : Byte} {rest : List Host.Cell} :
    Memory.wfFrom low ((k, w) :: rest) = true ↔
      low ≤ k ∧ k < 65536 ∧ w ≠ unlistedByte ∧ Memory.wfFrom (k + 1) rest = true := by
  simp [Memory.wfFrom, and_assoc]

theorem Memory.wfFrom_mono {low low' : Nat} {m : List Host.Cell} (h : low ≤ low') (hm : Memory.wfFrom low' m = true) :
    Memory.wfFrom low m = true := by
  cases m with
  | nil => rfl
  | cons c rest => rw [Memory.wfFrom_cons] at *; exact ⟨by omega, hm.2⟩

theorem Memory.wfFrom_erase {m : List Host.Cell} {low : Nat} (a : Nat) (h : Memory.wfFrom low m = true) :
    Memory.wfFrom low (Memory.erase m a) = true := by
  induction m generalizing low with
  | nil => rfl
  | cons c rest ih =>
    rw [Memory.wfFrom_cons] at h
    simp only [Memory.erase]
    split
    · exact ih (Memory.wfFrom_mono (by omega) h.2.2.2)
    · exact Memory.wfFrom_cons.2 ⟨h.1, h.2.1, h.2.2.1, ih h.2.2.2⟩

theorem Memory.wfFrom_insert {m : List Host.Cell} {low a : Nat} {v : Byte} (h : Memory.wfFrom low m = true)
    (ha : low ≤ a) (ha' : a < 65536) (hv : v ≠ unlistedByte) : Memory.wfFrom low (Memory.insert m a v) = true := by
  induction m generalizing low with
  | nil => exact Memory.wfFrom_cons.2 ⟨ha, ha', hv, rfl⟩
  | cons c rest ih =>
    rw [Memory.wfFrom_cons] at h
    simp only [Memory.insert]
    split
    · exact Memory.wfFrom_cons.2 ⟨ha, ha', hv, Memory.wfFrom_cons.2 ⟨by omega, h.2⟩⟩
    · split
      · rename_i e; subst e; exact Memory.wfFrom_cons.2 ⟨ha, ha', hv, h.2.2.2⟩
      · exact Memory.wfFrom_cons.2 ⟨h.1, h.2.1, h.2.2.1, ih h.2.2.2 (by omega)⟩

/-- A write keeps the canonical form. -/
theorem Memory.wf_write {m : List Host.Cell} {a : Nat} (v : Byte) (h : Memory.wf m = true) (ha : a < 65536) :
    Memory.wf (Memory.write m a v) = true := by
  unfold Memory.write
  split
  · exact Memory.wfFrom_erase a h
  · rename_i hv; exact Memory.wfFrom_insert h (Nat.zero_le a) ha hv

theorem Memory.read_below {m : List Host.Cell} {low a : Nat} (h : Memory.wfFrom low m = true) (ha : a < low) :
    Memory.read m a = unlistedByte := by
  induction m generalizing low with
  | nil => rfl
  | cons c rest ih =>
    rw [Memory.wfFrom_cons] at h
    simp only [Memory.read]
    split
    · omega
    · exact ih h.2.2.2 (by omega)

theorem Memory.ext_from {m n : List Host.Cell} {low : Nat} (hm : Memory.wfFrom low m = true)
    (hn : Memory.wfFrom low n = true) (h : ∀ a, Memory.read m a = Memory.read n a) : m = n := by
  induction m generalizing low n with
  | nil =>
    cases n with
    | nil => rfl
    | cons d ns =>
      rw [Memory.wfFrom_cons] at hn
      have := h d.1
      simp [Memory.read] at this
      exact absurd this.symm hn.2.2.1
  | cons c ms ih =>
    have hm' := hm
    rw [Memory.wfFrom_cons] at hm
    cases n with
    | nil =>
      have := h c.1
      simp [Memory.read] at this
      exact absurd this hm.2.2.1
    | cons d ns =>
      have hn' := hn
      rw [Memory.wfFrom_cons] at hn
      obtain ⟨k, w⟩ := c
      obtain ⟨l, x⟩ := d
      have hk : k = l := by
        rcases Nat.lt_trichotomy k l with hlt | heq | hgt
        · have h1 := h k
          rw [Memory.read_below (low := l) (Memory.wfFrom_cons.2 ⟨Nat.le_refl l, hn.2⟩) hlt] at h1
          simp [Memory.read] at h1
          exact absurd h1 hm.2.2.1
        · exact heq
        · have h1 := h l
          rw [Memory.read_below (low := k) (Memory.wfFrom_cons.2 ⟨Nat.le_refl k, hm.2⟩) hgt] at h1
          simp [Memory.read] at h1
          exact absurd h1.symm hn.2.2.1
      subst hk
      have hw : w = x := by have := h k; simpa [Memory.read] using this
      subst hw
      have : ms = ns := by
        refine ih hm.2.2.2 hn.2.2.2 fun a => ?_
        by_cases e : k = a
        · subst e
          rw [Memory.read_below hm.2.2.2 (Nat.lt_succ_self k), Memory.read_below hn.2.2.2 (Nat.lt_succ_self k)]
        · have := h a; simpa [Memory.read, e] using this
      rw [this]

/-- Two canonical memories that read the same everywhere are the same data. -/
theorem Memory.ext_of_wf {m n : List Host.Cell} (hm : Memory.wf m = true) (hn : Memory.wf n = true)
    (h : ∀ a, Memory.read m a = Memory.read n a) : m = n := Memory.ext_from hm hn h

end Sys2Proof.Machine
end

