-- ==== Sys2Proof/Laws/State.lean ====
section
/-! SUPPORT. What each field of the state is after each register update: one lemma per field per update, true by definition, so that
no proof unfolds a record update. The same for the reads of cells and attributes, which no register update touches. -/

namespace Sys2Proof.Machine

/-! ### `setA` -/

section
variable (v : Byte) (st : State)
@[simp] theorem setA_a : (st.setA v).a = v := rfl
@[simp] theorem setA_b : (st.setA v).b = st.b := rfl
@[simp] theorem setA_dp : (st.setA v).dp = st.dp := rfl
@[simp] theorem setA_cc : (st.setA v).cc = st.cc := rfl
@[simp] theorem setA_x : (st.setA v).x = st.x := rfl
@[simp] theorem setA_y : (st.setA v).y = st.y := rfl
@[simp] theorem setA_u : (st.setA v).u = st.u := rfl
@[simp] theorem setA_s : (st.setA v).s = st.s := rfl
@[simp] theorem setA_pc : (st.setA v).pc = st.pc := rfl
@[simp] theorem setA_execState : (st.setA v).execState = st.execState := rfl
@[simp] theorem setA_nmiLatch : (st.setA v).nmiLatch = st.nmiLatch := rfl
@[simp] theorem setA_firqLine : (st.setA v).firqLine = st.firqLine := rfl
@[simp] theorem setA_irqLine : (st.setA v).irqLine = st.irqLine := rfl
@[simp] theorem setA_nmiArmed : (st.setA v).nmiArmed = st.nmiArmed := rfl
@[simp] theorem setA_lastPc : (st.setA v).lastPc = st.lastPc := rfl
@[simp] theorem setA_lastLen : (st.setA v).lastLen = st.lastLen := rfl
@[simp] theorem setA_mem : (st.setA v).mem = st.mem := rfl
@[simp] theorem setA_attrs : (st.setA v).attrs = st.attrs := rfl
@[simp] theorem setA_ioTable : (st.setA v).ioTable = st.ioTable := rfl
@[simp] theorem setA_params : (st.setA v).params = st.params := rfl
@[simp] theorem setA_ioCalls : (st.setA v).ioCalls = st.ioCalls := rfl
@[simp] theorem setA_freeIndex : (st.setA v).freeIndex = st.freeIndex := rfl
@[simp] theorem setA_attr (k : Word) : (st.setA v).attr k = st.attr k := rfl
@[simp] theorem setA_handler (k : Byte) : (st.setA v).handler k = st.handler k := rfl
@[simp] theorem setA_memRead8 (k : Word) : memRead8 k (st.setA v) = memRead8 k st := rfl
@[simp] theorem setA_memRead16 (k : Word) : memRead16 k (st.setA v) = memRead16 k st := rfl
end

/-! ### `setB` -/

section
variable (v : Byte) (st : State)
@[simp] theorem setB_a : (st.setB v).a = st.a := rfl
@[simp] theorem setB_b : (st.setB v).b = v := rfl
@[simp] theorem setB_dp : (st.setB v).dp = st.dp := rfl
@[simp] theorem setB_cc : (st.setB v).cc = st.cc := rfl
@[simp] theorem setB_x : (st.setB v).x = st.x := rfl
@[simp] theorem setB_y : (st.setB v).y = st.y := rfl
@[simp] theorem setB_u : (st.setB v).u = st.u := rfl
@[simp] theorem setB_s : (st.setB v).s = st.s := rfl
@[simp] theorem setB_pc : (st.setB v).pc = st.pc := rfl
@[simp] theorem setB_execState : (st.setB v).execState = st.execState := rfl
@[simp] theorem setB_nmiLatch : (st.setB v).nmiLatch = st.nmiLatch := rfl
@[simp] theorem setB_firqLine : (st.setB v).firqLine = st.firqLine := rfl
@[simp] theorem setB_irqLine : (st.setB v).irqLine = st.irqLine := rfl
@[simp] theorem setB_nmiArmed : (st.setB v).nmiArmed = st.nmiArmed := rfl
@[simp] theorem setB_lastPc : (st.setB v).lastPc = st.lastPc := rfl
@[simp] theorem setB_lastLen : (st.setB v).lastLen = st.lastLen := rfl
@[simp] theorem setB_mem : (st.setB v).mem = st.mem := rfl
@[simp] theorem setB_attrs : (st.setB v).attrs = st.attrs := rfl
@[simp] theorem setB_ioTable : (st.setB v).ioTable = st.ioTable := rfl
@[simp] theorem setB_params : (st.setB v).params = st.params := rfl
@[simp] theorem setB_ioCalls : (st.setB v).ioCalls = st.ioCalls := rfl
@[simp] theorem setB_freeIndex : (st.setB v).freeIndex = st.freeIndex := rfl
@[simp] theorem setB_attr (k : Word) : (st.setB v).attr k = st.attr k := rfl
@[simp] theorem setB_handler (k : Byte) : (st.setB v).handler k = st.handler k := rfl
@[simp] theorem setB_memRead8 (k : Word) : memRead8 k (st.setB v) = memRead8 k st := rfl
@[simp] theorem setB_memRead16 (k : Word) : memRead16 k (st.setB v) = memRead16 k st := rfl
end

/-! ### `setDp` -/

section
variable (v : Byte) (st : State)
@[simp] theorem setDp_a : (st.setDp v).a = st.a := rfl
@[simp] theorem setDp_b : (st.setDp v).b = st.b := rfl
@[simp] theorem setDp_dp : (st.setDp v).dp = v := rfl
@[simp] theorem setDp_cc : (st.setDp v).cc = st.cc := rfl
@[simp] theorem setDp_x : (st.setDp v).x = st.x := rfl
@[simp] theorem setDp_y : (st.setDp v).y = st.y := rfl
@[simp] theorem setDp_u : (st.setDp v).u = st.u := rfl
@[simp] theorem setDp_s : (st.setDp v).s = st.s := rfl
@[simp] theorem setDp_pc : (st.setDp v).pc = st.pc := rfl
@[simp] theorem setDp_execState : (st.setDp v).execState = st.execState := rfl
@[simp] theorem setDp_nmiLatch : (st.setDp v).nmiLatch = st.nmiLatch := rfl
@[simp] theorem setDp_firqLine : (st.setDp v).firqLine = st.firqLine := rfl
@[simp] theorem setDp_irqLine : (st.setDp v).irqLine = st.irqLine := rfl
@[simp] theorem setDp_nmiArmed : (st.setDp v).nmiArmed = st.nmiArmed := rfl
@[simp] theorem setDp_lastPc : (st.setDp v).lastPc = st.lastPc := rfl
@[simp] theorem setDp_lastLen : (st.setDp v).lastLen = st.lastLen := rfl
@[simp] theorem setDp_mem : (st.setDp v).mem = st.mem := rfl
@[simp] theorem setDp_attrs : (st.setDp v).attrs = st.attrs := rfl
@[simp] theorem setDp_ioTable : (st.setDp v).ioTable = st.ioTable := rfl
@[simp] theorem setDp_params : (st.setDp v).params = st.params := rfl
@[simp] theorem setDp_ioCalls : (st.setDp v).ioCalls = st.ioCalls := rfl
@[simp] theorem setDp_freeIndex : (st.setDp v).freeIndex = st.freeIndex := rfl
@[simp] theorem setDp_attr (k : Word) : (st.setDp v).attr k = st.attr k := rfl
@[simp] theorem setDp_handler (k : Byte) : (st.setDp v).handler k = st.handler k := rfl
@[simp] theorem setDp_memRead8 (k : Word) : memRead8 k (st.setDp v) = memRead8 k st := rfl
@[simp] theorem setDp_memRead16 (k : Word) : memRead16 k (st.setDp v) = memRead16 k st := rfl
end

/-! ### `setCc` -/

section
variable (v : Byte) (st : State)
@[simp] theorem setCc_a : (st.setCc v).a = st.a := rfl
@[simp] theorem setCc_b : (st.setCc v).b = st.b := rfl
@[simp] theorem setCc_dp : (st.setCc v).dp = st.dp := rfl
@[simp] theorem setCc_cc : (st.setCc v).cc = v := rfl
@[simp] theorem setCc_x : (st.setCc v).x = st.x := rfl
@[simp] theorem setCc_y : (st.setCc v).y = st.y := rfl
@[simp] theorem setCc_u : (st.setCc v).u = st.u := rfl
@[simp] theorem setCc_s : (st.setCc v).s = st.s := rfl
@[simp] theorem setCc_pc : (st.setCc v).pc = st.pc := rfl
@[simp] theorem setCc_execState : (st.setCc v).execState = st.execState := rfl
@[simp] theorem setCc_nmiLatch : (st.setCc v).nmiLatch = st.nmiLatch := rfl
@[simp] theorem setCc_firqLine : (st.setCc v).firqLine = st.firqLine := rfl
@[simp] theorem setCc_irqLine : (st.setCc v).irqLine = st.irqLine := rfl
@[simp] theorem setCc_nmiArmed : (st.setCc v).nmiArmed = st.nmiArmed := rfl
@[simp] theorem setCc_lastPc : (st.setCc v).lastPc = st.lastPc := rfl
@[simp] theorem setCc_lastLen : (st.setCc v).lastLen = st.lastLen := rfl
@[simp] theorem setCc_mem : (st.setCc v).mem = st.mem := rfl
@[simp] theorem setCc_attrs : (st.setCc v).attrs = st.attrs := rfl
@[simp] theorem setCc_ioTable : (st.setCc v).ioTable = st.ioTable := rfl
@[simp] theorem setCc_params : (st.setCc v).params = st.params := rfl
@[simp] theorem setCc_ioCalls : (st.setCc v).ioCalls = st.ioCalls := rfl
@[simp] theorem setCc_freeIndex : (st.setCc v).freeIndex = st.freeIndex := rfl
@[simp] theorem setCc_attr (k : Word) : (st.setCc v).attr k = st.attr k := rfl
@[simp] theorem setCc_handler (k : Byte) : (st.setCc v).handler k = st.handler k := rfl
@[simp] theorem setCc_memRead8 (k : Word) : memRead8 k (st.setCc v) = memRead8 k st := rfl
@[simp] theorem setCc_memRead16 (k : Word) : memRead16 k (st.setCc v) = memRead16 k st := rfl
end

/-! ### `setX` -/

section
variable (v : Word) (st : State)
@[simp] theorem setX_a : (st.setX v).a = st.a := rfl
@[simp] theorem setX_b : (st.setX v).b = st.b := rfl
@[simp] theorem setX_dp : (st.setX v).dp = st.dp := rfl
@[simp] theorem setX_cc : (st.setX v).cc = st.cc := rfl
@[simp] theorem setX_x : (st.setX v).x = v := rfl
@[simp] theorem setX_y : (st.setX v).y = st.y := rfl
@[simp] theorem setX_u : (st.setX v).u = st.u := rfl
@[simp] theorem setX_s : (st.setX v).s = st.s := rfl
@[simp] theorem setX_pc : (st.setX v).pc = st.pc := rfl
@[simp] theorem setX_execState : (st.setX v).execState = st.execState := rfl
@[simp] theorem setX_nmiLatch : (st.setX v).nmiLatch = st.nmiLatch := rfl
@[simp] theorem setX_firqLine : (st.setX v).firqLine = st.firqLine := rfl
@[simp] theorem setX_irqLine : (st.setX v).irqLine = st.irqLine := rfl
@[simp] theorem setX_nmiArmed : (st.setX v).nmiArmed = st.nmiArmed := rfl
@[simp] theorem setX_lastPc : (st.setX v).lastPc = st.lastPc := rfl
@[simp] theorem setX_lastLen : (st.setX v).lastLen = st.lastLen := rfl
@[simp] theorem setX_mem : (st.setX v).mem = st.mem := rfl
@[simp] theorem setX_attrs : (st.setX v).attrs = st.attrs := rfl
@[simp] theorem setX_ioTable : (st.setX v).ioTable = st.ioTable := rfl
@[simp] theorem setX_params : (st.setX v).params = st.params := rfl
@[simp] theorem setX_ioCalls : (st.setX v).ioCalls = st.ioCalls := rfl
@[simp] theorem setX_freeIndex : (st.setX v).freeIndex = st.freeIndex := rfl
@[simp] theorem setX_attr (k : Word) : (st.setX v).attr k = st.attr k := rfl
@[simp] theorem setX_handler (k : Byte) : (st.setX v).handler k = st.handler k := rfl
@[simp] theorem setX_memRead8 (k : Word) : memRead8 k (st.setX v) = memRead8 k st := rfl
@[simp] theorem setX_memRead16 (k : Word) : memRead16 k (st.setX v) = memRead16 k st := rfl
end

/-! ### `setY` -/

section
variable (v : Word) (st : State)
@[simp] theorem setY_a : (st.setY v).a = st.a := rfl
@[simp] theorem setY_b : (st.setY v).b = st.b := rfl
@[simp] theorem setY_dp : (st.setY v).dp = st.dp := rfl
@[simp] theorem setY_cc : (st.setY v).cc = st.cc := rfl
@[simp] theorem setY_x : (st.setY v).x = st.x := rfl
@[simp] theorem setY_y : (st.setY v).y = v := rfl
@[simp] theorem setY_u : (st.setY v).u = st.u := rfl
@[simp] theorem setY_s : (st.setY v).s = st.s := rfl
@[simp] theorem setY_pc : (st.setY v).pc = st.pc := rfl
@[simp] theorem setY_execState : (st.setY v).execState = st.execState := rfl
@[simp] theorem setY_nmiLatch : (st.setY v).nmiLatch = st.nmiLatch := rfl
@[simp] theorem setY_firqLine : (st.setY v).firqLine = st.firqLine := rfl
@[simp] theorem setY_irqLine : (st.setY v).irqLine = st.irqLine := rfl
@[simp] theorem setY_nmiArmed : (st.setY v).nmiArmed = st.nmiArmed := rfl
@[simp] theorem setY_lastPc : (st.setY v).lastPc = st.lastPc := rfl
@[simp] theorem setY_lastLen : (st.setY v).lastLen = st.lastLen := rfl
@[simp] theorem setY_mem : (st.setY v).mem = st.mem := rfl
@[simp] theorem setY_attrs : (st.setY v).attrs = st.attrs := rfl
@[simp] theorem setY_ioTable : (st.setY v).ioTable = st.ioTable := rfl
@[simp] theorem setY_params : (st.setY v).params = st.params := rfl
@[simp] theorem setY_ioCalls : (st.setY v).ioCalls = st.ioCalls := rfl
@[simp] theorem setY_freeIndex : (st.setY v).freeIndex = st.freeIndex := rfl
@[simp] theorem setY_attr (k : Word) : (st.setY v).attr k = st.attr k := rfl
@[simp] theorem setY_handler (k : Byte) : (st.setY v).handler k = st.handler k := rfl
@[simp] theorem setY_memRead8 (k : Word) : memRead8 k (st.setY v) = memRead8 k st := rfl
@[simp] theorem setY_memRead16 (k : Word) : memRead16 k (st.setY v) = memRead16 k st := rfl
end

/-! ### `setU` -/

section
variable (v : Word) (st : State)
@[simp] theorem setU_a : (st.setU v).a = st.a := rfl
@[simp] theorem setU_b : (st.setU v).b = st.b := rfl
@[simp] theorem setU_dp : (st.setU v).dp = st.dp := rfl
@[simp] theorem setU_cc : (st.setU v).cc = st.cc := rfl
@[simp] theorem setU_x : (st.setU v).x = st.x := rfl
@[simp] theorem setU_y : (st.setU v).y = st.y := rfl
@[simp] theorem setU_u : (st.setU v).u = v := rfl
@[simp] theorem setU_s : (st.setU v).s = st.s := rfl
@[simp] theorem setU_pc : (st.setU v).pc = st.pc := rfl
@[simp] theorem setU_execState : (st.setU v).execState = st.execState := rfl
@[simp] theorem setU_nmiLatch : (st.setU v).nmiLatch = st.nmiLatch := rfl
@[simp] theorem setU_firqLine : (st.setU v).firqLine = st.firqLine := rfl
@[simp] theorem setU_irqLine : (st.setU v).irqLine = st.irqLine := rfl
@[simp] theorem setU_nmiArmed : (st.setU v).nmiArmed = st.nmiArmed := rfl
@[simp] theorem setU_lastPc : (st.setU v).lastPc = st.lastPc := rfl
@[simp] theorem setU_lastLen : (st.setU v).lastLen = st.lastLen := rfl
@[simp] theorem setU_mem : (st.setU v).mem = st.mem := rfl
@[simp] theorem setU_attrs : (st.setU v).attrs = st.attrs := rfl
@[simp] theorem setU_ioTable : (st.setU v).ioTable = st.ioTable := rfl
@[simp] theorem setU_params : (st.setU v).params = st.params := rfl
@[simp] theorem setU_ioCalls : (st.setU v).ioCalls = st.ioCalls := rfl
@[simp] theorem setU_freeIndex : (st.setU v).freeIndex = st.freeIndex := rfl
@[simp] theorem setU_attr (k : Word) : (st.setU v).attr k = st.attr k := rfl
@[simp] theorem setU_handler (k : Byte) : (st.setU v).handler k = st.handler k := rfl
@[simp] theorem setU_memRead8 (k : Word) : memRead8 k (st.setU v) = memRead8 k st := rfl
@[simp] theorem setU_memRead16 (k : Word) : memRead16 k (st.setU v) = memRead16 k st := rfl
end

/-! ### `setS` -/

section
variable (v : Word) (st : State)
@[simp] theorem setS_a : (st.setS v).a = st.a := rfl
@[simp] theorem setS_b : (st.setS v).b = st.b := rfl
@[simp] theorem setS_dp : (st.setS v).dp = st.dp := rfl
@[simp] theorem setS_cc : (st.setS v).cc = st.cc := rfl
@[simp] theorem setS_x : (st.setS v).x = st.x := rfl
@[simp] theorem setS_y : (st.setS v).y = st.y := rfl
@[simp] theorem setS_u : (st.setS v).u = st.u := rfl
@[simp] theorem setS_s : (st.setS v).s = v := rfl
@[simp] theorem setS_pc : (st.setS v).pc = st.pc := rfl
@[simp] theorem setS_execState : (st.setS v).execState = st.execState := rfl
@[simp] theorem setS_nmiLatch : (st.setS v).nmiLatch = st.nmiLatch := rfl
@[simp] theorem setS_firqLine : (st.setS v).firqLine = st.firqLine := rfl
@[simp] theorem setS_irqLine : (st.setS v).irqLine = st.irqLine := rfl
@[simp] theorem setS_nmiArmed : (st.setS v).nmiArmed = st.nmiArmed := rfl
@[simp] theorem setS_lastPc : (st.setS v).lastPc = st.lastPc := rfl
@[simp] theorem setS_lastLen : (st.setS v).lastLen = st.lastLen := rfl
@[simp] theorem setS_mem : (st.setS v).mem = st.mem := rfl
@[simp] theorem setS_attrs : (st.setS v).attrs = st.attrs := rfl
@[simp] theorem setS_ioTable : (st.setS v).ioTable = st.ioTable := rfl
@[simp] theorem setS_params : (st.setS v).params = st.params := rfl
@[simp] theorem setS_ioCalls : (st.setS v).ioCalls = st.ioCalls := rfl
@[simp] theorem setS_freeIndex : (st.setS v).freeIndex = st.freeIndex := rfl
@[simp] theorem setS_attr (k : Word) : (st.setS v).attr k = st.attr k := rfl
@[simp] theorem setS_handler (k : Byte) : (st.setS v).handler k = st.handler k := rfl
@[simp] theorem setS_memRead8 (k : Word) : memRead8 k (st.setS v) = memRead8 k st := rfl
@[simp] theorem setS_memRead16 (k : Word) : memRead16 k (st.setS v) = memRead16 k st := rfl
end

/-! ### `setPc` -/

section
variable (v : Word) (st : State)
@[simp] theorem setPc_a : (st.setPc v).a = st.a := rfl
@[simp] theorem setPc_b : (st.setPc v).b = st.b := rfl
@[simp] theorem setPc_dp : (st.setPc v).dp = st.dp := rfl
@[simp] theorem setPc_cc : (st.setPc v).cc = st.cc := rfl
@[simp] theorem setPc_x : (st.setPc v).x = st.x := rfl
@[simp] theorem setPc_y : (st.setPc v).y = st.y := rfl
@[simp] theorem setPc_u : (st.setPc v).u = st.u := rfl
@[simp] theorem setPc_s : (st.setPc v).s = st.s := rfl
@[simp] theorem setPc_pc : (st.setPc v).pc = v := rfl
@[simp] theorem setPc_execState : (st.setPc v).execState = st.execState := rfl
@[simp] theorem setPc_nmiLatch : (st.setPc v).nmiLatch = st.nmiLatch := rfl
@[simp] theorem setPc_firqLine : (st.setPc v).firqLine = st.firqLine := rfl
@[simp] theorem setPc_irqLine : (st.setPc v).irqLine = st.irqLine := rfl
@[simp] theorem setPc_nmiArmed : (st.setPc v).nmiArmed = st.nmiArmed := rfl
@[simp] theorem setPc_lastPc : (st.setPc v).lastPc = st.lastPc := rfl
@[simp] theorem setPc_lastLen : (st.setPc v).lastLen = st.lastLen := rfl
@[simp] theorem setPc_mem : (st.setPc v).mem = st.mem := rfl
@[simp] theorem setPc_attrs : (st.setPc v).attrs = st.attrs := rfl
@[simp] theorem setPc_ioTable : (st.setPc v).ioTable = st.ioTable := rfl
@[simp] theorem setPc_params : (st.setPc v).params = st.params := rfl
@[simp] theorem setPc_ioCalls : (st.setPc v).ioCalls = st.ioCalls := rfl
@[simp] theorem setPc_freeIndex : (st.setPc v).freeIndex = st.freeIndex := rfl
@[simp] theorem setPc_attr (k : Word) : (st.setPc v).attr k = st.attr k := rfl
@[simp] theorem setPc_handler (k : Byte) : (st.setPc v).handler k = st.handler k := rfl
@[simp] theorem setPc_memRead8 (k : Word) : memRead8 k (st.setPc v) = memRead8 k st := rfl
@[simp] theorem setPc_memRead16 (k : Word) : memRead16 k (st.setPc v) = memRead16 k st := rfl
end

/-! ### `setExecState` -/

section
variable (v : ExecState) (st : State)
@[simp] theorem setExecState_a : (st.setExecState v).a = st.a := rfl
@[simp] theorem setExecState_b : (st.setExecState v).b = st.b := rfl
@[simp] theorem setExecState_dp : (st.setExecState v).dp = st.dp := rfl
@[simp] theorem setExecState_cc : (st.setExecState v).cc = st.cc := rfl
@[simp] theorem setExecState_x : (st.setExecState v).x = st.x := rfl
@[simp] theorem setExecState_y : (st.setExecState v).y = st.y := rfl
@[simp] theorem setExecState_u : (st.setExecState v).u = st.u := rfl
@[simp] theorem setExecState_s : (st.setExecState v).s = st.s := rfl
@[simp] theorem setExecState_pc : (st.setExecState v).pc = st.pc := rfl
@[simp] theorem setExecState_execState : (st.setExecState v).execState = v := rfl
@[simp] theorem setExecState_nmiLatch : (st.setExecState v).nmiLatch = st.nmiLatch := rfl
@[simp] theorem setExecState_firqLine : (st.setExecState v).firqLine = st.firqLine := rfl
@[simp] theorem setExecState_irqLine : (st.setExecState v).irqLine = st.irqLine := rfl
@[simp] theorem setExecState_nmiArmed : (st.setExecState v).nmiArmed = st.nmiArmed := rfl
@[simp] theorem setExecState_lastPc : (st.setExecState v).lastPc = st.lastPc := rfl
@[simp] theorem setExecState_lastLen : (st.setExecState v).lastLen = st.lastLen := rfl
@[simp] theorem setExecState_mem : (st.setExecState v).mem = st.mem := rfl
@[simp] theorem setExecState_attrs : (st.setExecState v).attrs = st.attrs := rfl
@[simp] theorem setExecState_ioTable : (st.setExecState v).ioTable = st.ioTable := rfl
@[simp] theorem setExecState_params : (st.setExecState v).params = st.params := rfl
@[simp] theorem setExecState_ioCalls : (st.setExecState v).ioCalls = st.ioCalls := rfl
@[simp] theorem setExecState_freeIndex : (st.setExecState v).freeIndex = st.freeIndex := rfl
@[simp] theorem setExecState_attr (k : Word) : (st.setExecState v).attr k = st.attr k := rfl
@[simp] theorem setExecState_handler (k : Byte) : (st.setExecState v).handler k = st.handler k := rfl
@[simp] theorem setExecState_memRead8 (k : Word) : memRead8 k (st.setExecState v) = memRead8 k st := rfl
@[simp] theorem setExecState_memRead16 (k : Word) : memRead16 k (st.setExecState v) = memRead16 k st := rfl
end

/-! ### `setD` -/

section
variable (v : Word) (st : State)
@[simp] theorem setD_a : (st.setD v).a = hiByte v := rfl
@[simp] theorem setD_b : (st.setD v).b = loByte v := rfl
@[simp] theorem setD_dp : (st.setD v).dp = st.dp := rfl
@[simp] theorem setD_cc : (st.setD v).cc = st.cc := rfl
@[simp] theorem setD_x : (st.setD v).x = st.x := rfl
@[simp] theorem setD_y : (st.setD v).y = st.y := rfl
@[simp] theorem setD_u : (st.setD v).u = st.u := rfl
@[simp] theorem setD_s : (st.setD v).s = st.s := rfl
@[simp] theorem setD_pc : (st.setD v).pc = st.pc := rfl
@[simp] theorem setD_execState : (st.setD v).execState = st.execState := rfl
@[simp] theorem setD_nmiLatch : (st.setD v).nmiLatch = st.nmiLatch := rfl
@[simp] theorem setD_firqLine : (st.setD v).firqLine = st.firqLine := rfl
@[simp] theorem setD_irqLine : (st.setD v).irqLine = st.irqLine := rfl
@[simp] theorem setD_nmiArmed : (st.setD v).nmiArmed = st.nmiArmed := rfl
@[simp] theorem setD_lastPc : (st.setD v).lastPc = st.lastPc := rfl
@[simp] theorem setD_lastLen : (st.setD v).lastLen = st.lastLen := rfl
@[simp] theorem setD_mem : (st.setD v).mem = st.mem := rfl
@[simp] theorem setD_attrs : (st.setD v).attrs = st.attrs := rfl
@[simp] theorem setD_ioTable : (st.setD v).ioTable = st.ioTable := rfl
@[simp] theorem setD_params : (st.setD v).params = st.params := rfl
@[simp] theorem setD_ioCalls : (st.setD v).ioCalls = st.ioCalls := rfl
@[simp] theorem setD_freeIndex : (st.setD v).freeIndex = st.freeIndex := rfl
@[simp] theorem setD_attr (k : Word) : (st.setD v).attr k = st.attr k := rfl
@[simp] theorem setD_handler (k : Byte) : (st.setD v).handler k = st.handler k := rfl
@[simp] theorem setD_memRead8 (k : Word) : memRead8 k (st.setD v) = memRead8 k st := rfl
@[simp] theorem setD_memRead16 (k : Word) : memRead16 k (st.setD v) = memRead16 k st := rfl
end

/-! ### `loadS` -/

section
variable (v : Word) (st : State)
@[simp] theorem loadS_a : (st.loadS v).a = st.a := rfl
@[simp] theorem loadS_b : (st.loadS v).b = st.b := rfl
@[simp] theorem loadS_dp : (st.loadS v).dp = st.dp := rfl
@[simp] theorem loadS_cc : (st.loadS v).cc = st.cc := rfl
@[simp] theorem loadS_x : (st.loadS v).x = st.x := rfl
@[simp] theorem loadS_y : (st.loadS v).y = st.y := rfl
@[simp] theorem loadS_u : (st.loadS v).u = st.u := rfl
@[simp] theorem loadS_s : (st.loadS v).s = v := rfl
@[simp] theorem loadS_pc : (st.loadS v).pc = st.pc := rfl
@[simp] theorem loadS_execState : (st.loadS v).execState = st.execState := rfl
@[simp] theorem loadS_nmiLatch : (st.loadS v).nmiLatch = st.nmiLatch := rfl
@[simp] theorem loadS_firqLine : (st.loadS v).firqLine = st.firqLine := rfl
@[simp] theorem loadS_irqLine : (st.loadS v).irqLine = st.irqLine := rfl
@[simp] theorem loadS_nmiArmed : (st.loadS v).nmiArmed = (st.nmiArmed || st.params.nmiArmOnSLoad) := rfl
@[simp] theorem loadS_lastPc : (st.loadS v).lastPc = st.lastPc := rfl
@[simp] theorem loadS_lastLen : (st.loadS v).lastLen = st.lastLen := rfl
@[simp] theorem loadS_mem : (st.loadS v).mem = st.mem := rfl
@[simp] theorem loadS_attrs : (st.loadS v).attrs = st.attrs := rfl
@[simp] theorem loadS_ioTable : (st.loadS v).ioTable = st.ioTable := rfl
@[simp] theorem loadS_params : (st.loadS v).params = st.params := rfl
@[simp] theorem loadS_ioCalls : (st.loadS v).ioCalls = st.ioCalls := rfl
@[simp] theorem loadS_freeIndex : (st.loadS v).freeIndex = st.freeIndex := rfl
@[simp] theorem loadS_attr (k : Word) : (st.loadS v).attr k = st.attr k := rfl
@[simp] theorem loadS_handler (k : Byte) : (st.loadS v).handler k = st.handler k := rfl
@[simp] theorem loadS_memRead8 (k : Word) : memRead8 k (st.loadS v) = memRead8 k st := rfl
@[simp] theorem loadS_memRead16 (k : Word) : memRead16 k (st.loadS v) = memRead16 k st := rfl
end

end Sys2Proof.Machine
end

