-- ==== Sys2Proof/Laws/Access.lean ====
section
/-! SUPPORT. What the shared memory and stack operations do, said once: a byte write touches one cell and, at an I/O cell, the handler
port; a push is a list of byte writes below the stack pointer. -/

namespace Sys2Proof.Machine

/-! ## The byte write -/

/-- A byte write changes the memory and the handler port, nothing else. -/
theorem memWrite8_eq (k : Word) (v : Byte) (st : State) :
    memWrite8 k v st = { st with
      mem := (memWrite8 k v st).mem
      firqLine := (memWrite8 k v st).firqLine
      irqLine := (memWrite8 k v st).irqLine
      ioCalls := (memWrite8 k v st).ioCalls
      freeIndex := (memWrite8 k v st).freeIndex } := by
  unfold memWrite8
  split
  · rfl
  · split
    · cases st.handler (st.attr k).ioIndex <;> rfl
    · rfl

section
variable (k : Word) (v : Byte) (st : State)
@[simp] theorem memWrite8_a : (memWrite8 k v st).a = st.a := by rw [memWrite8_eq]
@[simp] theorem memWrite8_b : (memWrite8 k v st).b = st.b := by rw [memWrite8_eq]
@[simp] theorem memWrite8_dp : (memWrite8 k v st).dp = st.dp := by rw [memWrite8_eq]
@[simp] theorem memWrite8_cc : (memWrite8 k v st).cc = st.cc := by rw [memWrite8_eq]
@[simp] theorem memWrite8_x : (memWrite8 k v st).x = st.x := by rw [memWrite8_eq]
@[simp] theorem memWrite8_y : (memWrite8 k v st).y = st.y := by rw [memWrite8_eq]
@[simp] theorem memWrite8_u : (memWrite8 k v st).u = st.u := by rw [memWrite8_eq]
@[simp] theorem memWrite8_s : (memWrite8 k v st).s = st.s := by rw [memWrite8_eq]
@[simp] theorem memWrite8_pc : (memWrite8 k v st).pc = st.pc := by rw [memWrite8_eq]
@[simp] theorem memWrite8_execState : (memWrite8 k v st).execState = st.execState := by rw [memWrite8_eq]
@[simp] theorem memWrite8_nmiLatch : (memWrite8 k v st).nmiLatch = st.nmiLatch := by rw [memWrite8_eq]
@[simp] theorem memWrite8_nmiArmed : (memWrite8 k v st).nmiArmed = st.nmiArmed := by rw [memWrite8_eq]
@[simp] theorem memWrite8_lastPc : (memWrite8 k v st).lastPc = st.lastPc := by rw [memWrite8_eq]
@[simp] theorem memWrite8_lastLen : (memWrite8 k v st).lastLen = st.lastLen := by rw [memWrite8_eq]
@[simp] theorem memWrite8_attrs : (memWrite8 k v st).attrs = st.attrs := by rw [memWrite8_eq]
@[simp] theorem memWrite8_ioTable : (memWrite8 k v st).ioTable = st.ioTable := by rw [memWrite8_eq]
@[simp] theorem memWrite8_params : (memWrite8 k v st).params = st.params := by rw [memWrite8_eq]
@[simp] theorem memWrite8_attr (a : Word) : (memWrite8 k v st).attr a = st.attr a := by simp [State.attr]
@[simp] theorem memWrite8_handler (i : Byte) : (memWrite8 k v st).handler i = st.handler i := by simp [State.handler]
end

section
variable (k : Word) (w : Word) (st : State)
@[simp] theorem memWrite16_a : (memWrite16 k w st).a = st.a := by simp [memWrite16]
@[simp] theorem memWrite16_b : (memWrite16 k w st).b = st.b := by simp [memWrite16]
@[simp] theorem memWrite16_dp : (memWrite16 k w st).dp = st.dp := by simp [memWrite16]
@[simp] theorem memWrite16_cc : (memWrite16 k w st).cc = st.cc := by simp [memWrite16]
@[simp] theorem memWrite16_x : (memWrite16 k w st).x = st.x := by simp [memWrite16]
@[simp] theorem memWrite16_y : (memWrite16 k w st).y = st.y := by simp [memWrite16]
@[simp] theorem memWrite16_u : (memWrite16 k w st).u = st.u := by simp [memWrite16]
@[simp] theorem memWrite16_s : (memWrite16 k w st).s = st.s := by simp [memWrite16]
@[simp] theorem memWrite16_pc : (memWrite16 k w st).pc = st.pc := by simp [memWrite16]
@[simp] theorem memWrite16_execState : (memWrite16 k w st).execState = st.execState := by simp [memWrite16]
@[simp] theorem memWrite16_nmiLatch : (memWrite16 k w st).nmiLatch = st.nmiLatch := by simp [memWrite16]
@[simp] theorem memWrite16_nmiArmed : (memWrite16 k w st).nmiArmed = st.nmiArmed := by simp [memWrite16]
@[simp] theorem memWrite16_lastPc : (memWrite16 k w st).lastPc = st.lastPc := by simp [memWrite16]
@[simp] theorem memWrite16_lastLen : (memWrite16 k w st).lastLen = st.lastLen := by simp [memWrite16]
@[simp] theorem memWrite16_attrs : (memWrite16 k w st).attrs = st.attrs := by simp [memWrite16]
@[simp] theorem memWrite16_ioTable : (memWrite16 k w st).ioTable = st.ioTable := by simp [memWrite16]
@[simp] theorem memWrite16_params : (memWrite16 k w st).params = st.params := by simp [memWrite16]
@[simp] theorem memWrite16_attr (a : Word) : (memWrite16 k w st).attr a = st.attr a := by simp [memWrite16]
end

theorem storeByte_read_self (k : Word) (v : Byte) (st : State) : memRead8 k (st.storeByte k v) = v :=
  Memory.read_write_self _ _ _

theorem storeByte_read_other {k b : Word} (v : Byte) (st : State) (h : b ≠ k) :
    memRead8 b (st.storeByte k v) = memRead8 b st :=
  Memory.read_write_other _ _ fun e => h (BitVec.eq_of_toNat_eq e)

/-- A write to a ROM cell changes nothing (R69, R71). -/
theorem memWrite8_rom {k : Word} {st : State} (v : Byte) (h : (st.attr k).isRom = true) : memWrite8 k v st = st := by
  simp [memWrite8, h]

/-- A cell that is neither ROM nor I/O. -/
theorem memWrite8_plain {k : Word} {st : State} (v : Byte) (h : (st.attr k).isRom = false) (h' : (st.attr k).isIo = false) :
    memWrite8 k v st = st.storeByte k v := by
  simp [memWrite8, h, h']

/-- A write to an I/O cell that is not ROM is one exchange at the handler port (R69). -/
theorem memWrite8_io {k : Word} {st : State} (v : Byte) (h : (st.attr k).isRom = false) (h' : (st.attr k).isIo = true) :
    memWrite8 k v st = callHandler (st.handler (st.attr k).ioIndex) k v st := by
  simp [memWrite8, h, h']

/-- A byte write leaves every other cell alone. -/
theorem memWrite8_read_other {k b : Word} (v : Byte) (st : State) (h : b ≠ k) :
    memRead8 b (memWrite8 k v st) = memRead8 b st := by
  unfold memWrite8
  split
  · rfl
  · split
    · cases st.handler (st.attr k).ioIndex <;> exact storeByte_read_other _ st h
    · exact storeByte_read_other _ st h

theorem memWrite8_read_plain {k : Word} {st : State} (v : Byte) (h : (st.attr k).isRom = false)
    (h' : (st.attr k).isIo = false) : memRead8 k (memWrite8 k v st) = v := by
  rw [memWrite8_plain v h h', storeByte_read_self]

theorem memWrite8_read_rom {k b : Word} {st : State} (v : Byte) (h : (st.attr b).isRom = true) :
    memRead8 b (memWrite8 k v st) = memRead8 b st := by
  by_cases e : b = k
  · subst e; rw [memWrite8_rom v h]
  · exact memWrite8_read_other v st e

/-- A byte write to a cell that is not I/O leaves the handler port alone. -/
theorem memWrite8_port {k : Word} {st : State} (v : Byte) (h : (st.attr k).isIo = false) :
    (memWrite8 k v st).firqLine = st.firqLine ∧ (memWrite8 k v st).irqLine = st.irqLine ∧
      (memWrite8 k v st).ioCalls = st.ioCalls ∧ (memWrite8 k v st).freeIndex = st.freeIndex := by
  unfold memWrite8
  split
  · exact ⟨rfl, rfl, rfl, rfl⟩
  · simp [h, State.storeByte]

theorem memWrite8_wf {k : Word} {v : Byte} {st : State} (h : Memory.wf st.mem = true) :
    Memory.wf (memWrite8 k v st).mem = true := by
  have hs (w : Byte) : Memory.wf (Memory.write st.mem k.toNat w) = true := Memory.wf_write w h k.isLt
  unfold memWrite8
  split
  · exact h
  · split
    · cases st.handler (st.attr k).ioIndex <;> exact hs _
    · exact hs _

/-! ## The stack pointers -/

@[simp] theorem sp_s (st : State) : st.sp .s = st.s := rfl
@[simp] theorem sp_u (st : State) : st.sp .u = st.u := rfl
@[simp] theorem setSp_s (v : Word) (st : State) : st.setSp .s v = st.setS v := rfl
@[simp] theorem setSp_u (v : Word) (st : State) : st.setSp .u v = st.setU v := rfl
@[simp] theorem loadSp_s (v : Word) (st : State) : st.loadSp .s v = st.loadS v := rfl
@[simp] theorem loadSp_u (v : Word) (st : State) : st.loadSp .u v = st.setU v := rfl
@[simp] theorem other_s : StackReg.s.other = .u := rfl
@[simp] theorem other_u : StackReg.u.other = .s := rfl

/-! ## Pushes as one list of bytes -/

/-- The bytes pushed one after the other. -/
def pushList (r : StackReg) : List Byte → State → State
  | [], st => st
  | v :: rest, st => pushList r rest (push8 r v st)

@[simp] theorem pushList_nil (r : StackReg) (st : State) : pushList r [] st = st := rfl
@[simp] theorem pushList_cons (r : StackReg) (v : Byte) (l : List Byte) (st : State) :
    pushList r (v :: l) st = pushList r l (push8 r v st) := rfl

theorem pushList_append (r : StackReg) (l m : List Byte) (st : State) :
    pushList r (l ++ m) st = pushList r m (pushList r l st) := by
  induction l generalizing st with
  | nil => rfl
  | cons v l ih => exact ih _

theorem push16_eq (r : StackReg) (w : Word) (st : State) : push16 r w st = pushList r [loByte w, hiByte w] st := rfl

section
variable (r : StackReg) (v : Byte) (l : List Byte) (st : State)
@[simp] theorem push8_a : (push8 r v st).a = st.a := by cases r <;> simp [push8]
@[simp] theorem push8_b : (push8 r v st).b = st.b := by cases r <;> simp [push8]
@[simp] theorem push8_dp : (push8 r v st).dp = st.dp := by cases r <;> simp [push8]
@[simp] theorem push8_cc : (push8 r v st).cc = st.cc := by cases r <;> simp [push8]
@[simp] theorem push8_x : (push8 r v st).x = st.x := by cases r <;> simp [push8]
@[simp] theorem push8_y : (push8 r v st).y = st.y := by cases r <;> simp [push8]
@[simp] theorem push8_pc : (push8 r v st).pc = st.pc := by cases r <;> simp [push8]
@[simp] theorem push8_execState : (push8 r v st).execState = st.execState := by cases r <;> simp [push8]
@[simp] theorem push8_nmiLatch : (push8 r v st).nmiLatch = st.nmiLatch := by cases r <;> simp [push8]
@[simp] theorem push8_nmiArmed : (push8 r v st).nmiArmed = st.nmiArmed := by cases r <;> simp [push8]
@[simp] theorem push8_lastPc : (push8 r v st).lastPc = st.lastPc := by cases r <;> simp [push8]
@[simp] theorem push8_lastLen : (push8 r v st).lastLen = st.lastLen := by cases r <;> simp [push8]
@[simp] theorem push8_attrs : (push8 r v st).attrs = st.attrs := by cases r <;> simp [push8]
@[simp] theorem push8_ioTable : (push8 r v st).ioTable = st.ioTable := by cases r <;> simp [push8]
@[simp] theorem push8_params : (push8 r v st).params = st.params := by cases r <;> simp [push8]
@[simp] theorem push8_attr (a : Word) : (push8 r v st).attr a = st.attr a := by cases r <;> simp [push8]
@[simp] theorem push8_sp : (push8 r v st).sp r = st.sp r - 1 := by cases r <;> simp [push8]
@[simp] theorem push8_sp_other : (push8 r v st).sp r.other = st.sp r.other := by cases r <;> simp [push8]

@[simp] theorem pushList_a : (pushList r l st).a = st.a := by induction l generalizing st <;> simp [*]
@[simp] theorem pushList_b : (pushList r l st).b = st.b := by induction l generalizing st <;> simp [*]
@[simp] theorem pushList_dp : (pushList r l st).dp = st.dp := by induction l generalizing st <;> simp [*]
@[simp] theorem pushList_cc : (pushList r l st).cc = st.cc := by induction l generalizing st <;> simp [*]
@[simp] theorem pushList_x : (pushList r l st).x = st.x := by induction l generalizing st <;> simp [*]
@[simp] theorem pushList_y : (pushList r l st).y = st.y := by induction l generalizing st <;> simp [*]
@[simp] theorem pushList_pc : (pushList r l st).pc = st.pc := by induction l generalizing st <;> simp [*]
@[simp] theorem pushList_execState : (pushList r l st).execState = st.execState := by induction l generalizing st <;> simp [*]
@[simp] theorem pushList_nmiLatch : (pushList r l st).nmiLatch = st.nmiLatch := by induction l generalizing st <;> simp [*]
@[simp] theorem pushList_nmiArmed : (pushList r l st).nmiArmed = st.nmiArmed := by induction l generalizing st <;> simp [*]
@[simp] theorem pushList_lastPc : (pushList r l st).lastPc = st.lastPc := by induction l generalizing st <;> simp [*]
@[simp] theorem pushList_lastLen : (pushList r l st).lastLen = st.lastLen := by induction l generalizing st <;> simp [*]
@[simp] theorem pushList_attrs : (pushList r l st).attrs = st.attrs := by induction l generalizing st <;> simp [*]
@[simp] theorem pushList_ioTable : (pushList r l st).ioTable = st.ioTable := by induction l generalizing st <;> simp [*]
@[simp] theorem pushList_params : (pushList r l st).params = st.params := by induction l generalizing st <;> simp [*]
@[simp] theorem pushList_attr (a : Word) : (pushList r l st).attr a = st.attr a := by
  induction l generalizing st <;> simp [*]
@[simp] theorem pushList_sp_other : (pushList r l st).sp r.other = st.sp r.other := by
  induction l generalizing st <;> simp [*]
theorem pushList_sp : (pushList r l st).sp r = st.sp r - BitVec.ofNat 16 l.length := by
  induction l generalizing st with
  | nil => simp
  | cons v l ih =>
    simp only [pushList_cons, ih, push8_sp, List.length_cons]
    rw [sub_sub, Nat.add_comm, BitVec.ofNat_add]
    rfl
end

/-- The bytes lie below the old stack pointer, the first pushed highest; a cell further down or above is left alone. -/
theorem pushList_read_other {r : StackReg} {l : List Byte} {st : State} {b : Word}
    (h : ∀ k, k < l.length → b ≠ st.sp r - 1 - BitVec.ofNat 16 k) : memRead8 b (pushList r l st) = memRead8 b st := by
  induction l generalizing st with
  | nil => rfl
  | cons v l ih =>
    rw [pushList_cons, ih]
    · have h0 : b ≠ st.sp r - 1 := by simpa using h 0 (by simp)
      unfold push8
      rw [memWrite8_read_other _ _ h0]
      cases r <;> simp
    · intro k hk
      have := h (k + 1) (by simpa using hk)
      rw [push8_sp]
      rw [Nat.add_comm, BitVec.ofNat_add] at this
      rw [sub_sub _ 1 (BitVec.ofNat 16 k), sub_sub _ 1 (1 + BitVec.ofNat 16 k)] at *
      simpa [sub_sub] using this

/-- The k-th byte pushed is in its cell, where that cell is neither ROM nor I/O and the list is shorter than the address space. -/
theorem pushList_read {r : StackReg} {l : List Byte} {st : State} (hl : l.length ≤ 65536) {k : Nat} (hk : k < l.length)
    (hp : (st.attr (st.sp r - 1 - BitVec.ofNat 16 k)).isRom = false ∧ (st.attr (st.sp r - 1 - BitVec.ofNat 16 k)).isIo = false) :
    memRead8 (st.sp r - 1 - BitVec.ofNat 16 k) (pushList r l st) = l[k] := by
  induction l generalizing st k with
  | nil => simp at hk
  | cons v l ih =>
    rw [pushList_cons]
    cases k with
    | zero =>
      have e0 : st.sp r - 1 - BitVec.ofNat 16 0 = st.sp r - 1 := BitVec.sub_zero _
      rw [e0] at hp ⊢
      rw [List.getElem_cons_zero, pushList_read_other]
      · unfold push8
        rw [memWrite8_read_plain] <;> cases r <;> simp_all
      · intro j hj
        rw [push8_sp]
        simp only [List.length_cons] at hl
        intro e
        have := congrArg BitVec.toNat e
        simp [BitVec.toNat_sub] at this
        omega
    | succ k =>
      have hk' : k < l.length := by simpa using hk
      have e : st.sp r - 1 - BitVec.ofNat 16 (k + 1) = (push8 r v st).sp r - 1 - BitVec.ofNat 16 k := by
        rw [push8_sp, Nat.add_comm, BitVec.ofNat_add, ← sub_sub]
        rfl
      rw [e] at hp ⊢
      rw [ih (by simp at hl; omega) hk']
      · simp
      · simpa using hp

end Sys2Proof.Machine
end

