-- ==== Sys2Proof/Laws/Flags.lean ====
section
/-! SUPPORT. Reading a flag after each flag computation. With `flag_putFlag` the flag functions of Machine/Flags.lean reduce to their
bits. -/

namespace Sys2Proof.Machine

/-- Writing a flag changes that flag alone. -/
@[simp] theorem flag_putFlag (k j : Flag) (v : Bool) (cc : Byte) :
    flag k (putFlag j v cc) = if k = j then v else flag k cc := by
  cases k <;> cases j <;> cases v <;> simp [flag, putFlag, Flag.mask, Flag.bit]

@[simp] theorem flag_and (k : Flag) (p q : Byte) : flag k (p &&& q) = (flag k p && flag k q) := by simp [flag]
@[simp] theorem flag_or (k : Flag) (p q : Byte) : flag k (p ||| q) = (flag k p || flag k q) := by simp [flag]

@[simp] theorem flag_ccWithE (k : Flag) (v : Bool) (cc : Byte) :
    flag k (ccWithE v cc) = if k = .e then v else flag k cc := by
  cases k <;> cases v <;> simp [flag, ccWithE, Flag.bit]

@[simp] theorem flag_masks (k : Flag) (e : EntryKind) (cc : Byte) :
    flag k (e.masks cc) = if k = .i then (e.setsI || flag .i cc) else if k = .f then (e.setsF || flag .f cc) else flag k cc := by
  cases k <;> cases e <;> simp [flag, EntryKind.masks, EntryKind.setsI, EntryKind.setsF, Flag.bit]

/-- Two CC bytes with the same flags are equal. -/
theorem cc_ext {p q : Byte} (h : ∀ k, flag k p = flag k q) : p = q := by
  apply BitVec.eq_of_getLsbD_eq
  intro i hi
  have : i = 0 ∨ i = 1 ∨ i = 2 ∨ i = 3 ∨ i = 4 ∨ i = 5 ∨ i = 6 ∨ i = 7 := by omega
  rcases this with e | e | e | e | e | e | e | e <;> subst e
  · exact h .c
  · exact h .v
  · exact h .z
  · exact h .n
  · exact h .i
  · exact h .h
  · exact h .f
  · exact h .e

@[simp] theorem setCc_flag (v : Byte) (st : State) (k : Flag) : (st.setCc v).flag k = flag k v := rfl

end Sys2Proof.Machine
end

