-- ==== Sys2Proof/Laws/Arith.lean ====
section
/-! SUPPORT. The arithmetic of Machine/Flags.lean over the integers: results modulo the width, overflow as a signed result out of
range, and the one-operand results of Safety.lean. -/

namespace Sys2Proof.Machine

theorem msb8 (v : Byte) : v.msb = decide (128 ≤ v.toNat) := BitVec.msb_eq_decide v
theorem msb16 (v : Word) : v.msb = decide (32768 ≤ v.toNat) := BitVec.msb_eq_decide v
theorem beq_decide {n : Nat} (v w : BitVec n) : (v == w) = decide (v = w) := rfl

/-- A Byte as a signed number. -/
theorem toInt8 (v : Byte) : v.toInt = if 128 ≤ v.toNat then (v.toNat : Int) - 256 else v.toNat := by
  rw [BitVec.toInt_eq_toNat_cond]
  have := v.isLt
  split <;> split <;> omega

/-- A Word as a signed number. -/
theorem toInt16 (v : Word) : v.toInt = if 32768 ≤ v.toNat then (v.toNat : Int) - 65536 else v.toNat := by
  rw [BitVec.toInt_eq_toNat_cond]
  have := v.isLt
  split <;> split <;> omega

theorem bitValue_le (c : Bool) : bitValue c ≤ 1 := by cases c <;> simp [bitValue]

theorem add8_toNat (a b : Byte) (c : Bool) : (add8 a b c).toNat = (a.toNat + b.toNat + bitValue c) % 256 := by
  simp [add8]

theorem sub8_toNat (a b : Byte) (c : Bool) : (sub8 a b c).toNat = (a.toNat + 512 - b.toNat - bitValue c) % 256 := by
  have h1 := a.isLt
  have h2 := b.isLt
  have h3 := bitValue_le c
  simp only [sub8, BitVec.toNat_sub, BitVec.toNat_ofNat]
  omega

theorem add16_toNat (a b : Word) : (add16 a b).toNat = (a.toNat + b.toNat) % 65536 := by simp [add16]

theorem sub16_toNat (a b : Word) : (sub16 a b).toNat = (a.toNat + 65536 - b.toNat) % 65536 := by
  have h1 := a.isLt
  have h2 := b.isLt
  simp only [sub16, BitVec.toNat_sub]
  omega

/-- V of an 8-bit addition: the signed sum is out of range (R230). -/
theorem add8_overflow (a b : Byte) (c : Bool) : (a.msb == b.msb && (add8 a b c).msb != a.msb) =
    decide (a.toInt + b.toInt + bitValue c < -128 ∨ 127 < a.toInt + b.toInt + bitValue c) := by
  have h1 := a.isLt
  have h2 := b.isLt
  have h3 := bitValue_le c
  rw [Bool.eq_iff_iff]
  simp only [msb8, add8_toNat, toInt8, Bool.and_eq_true, beq_iff_eq, bne_iff_ne, decide_eq_decide, decide_eq_true_eq, ne_eq]
  split <;> split <;> omega

/-- V of an 8-bit subtraction (R231). -/
theorem sub8_overflow (a b : Byte) (c : Bool) : (a.msb != b.msb && (sub8 a b c).msb != a.msb) =
    decide (a.toInt - b.toInt - bitValue c < -128 ∨ 127 < a.toInt - b.toInt - bitValue c) := by
  have h1 := a.isLt
  have h2 := b.isLt
  have h3 := bitValue_le c
  rw [Bool.eq_iff_iff]
  simp only [msb8, sub8_toNat, toInt8, Bool.and_eq_true, bne_iff_ne, decide_eq_decide, decide_eq_true_eq, ne_eq]
  split <;> split <;> omega

/-- V of a 16-bit addition (R232). -/
theorem add16_overflow (a b : Word) : (a.msb == b.msb && (add16 a b).msb != a.msb) =
    decide (a.toInt + b.toInt < -32768 ∨ 32767 < a.toInt + b.toInt) := by
  have h1 := a.isLt
  have h2 := b.isLt
  rw [Bool.eq_iff_iff]
  simp only [msb16, add16_toNat, toInt16, Bool.and_eq_true, beq_iff_eq, bne_iff_ne, decide_eq_decide, decide_eq_true_eq, ne_eq]
  split <;> split <;> omega

/-- V of a 16-bit subtraction (R233). -/
theorem sub16_overflow (a b : Word) : (a.msb != b.msb && (sub16 a b).msb != a.msb) =
    decide (a.toInt - b.toInt < -32768 ∨ 32767 < a.toInt - b.toInt) := by
  have h1 := a.isLt
  have h2 := b.isLt
  rw [Bool.eq_iff_iff]
  simp only [msb16, sub16_toNat, toInt16, Bool.and_eq_true, bne_iff_ne, decide_eq_decide, decide_eq_true_eq, ne_eq]
  split <;> split <;> omega

/-! ## The one-operand operations -/

theorem negValue_toNat (m : Byte) (c : Bool) : (negValue m).toNat = OneOp.neg.result m.toNat c := by revert m c; decide
theorem incValue_toNat (m : Byte) (c : Bool) : (incValue m).toNat = OneOp.inc.result m.toNat c := by revert m c; decide
theorem decValue_toNat (m : Byte) (c : Bool) : (decValue m).toNat = OneOp.dec.result m.toNat c := by revert m c; decide
theorem comValue_toNat (m : Byte) (c : Bool) : (comValue m).toNat = OneOp.com.result m.toNat c := by revert m c; decide
theorem aslValue_toNat (m : Byte) (c : Bool) : (aslValue m).toNat = OneOp.asl.result m.toNat c := by revert m c; decide
theorem asrValue_toNat (m : Byte) (c : Bool) : (asrValue m).toNat = OneOp.asr.result m.toNat c := by revert m c; decide
theorem lsrValue_toNat (m : Byte) (c : Bool) : (lsrValue m).toNat = OneOp.lsr.result m.toNat c := by revert m c; decide
theorem rolValue_toNat (m cc : Byte) : (rolValue m cc).toNat = OneOp.rol.result m.toNat (flag .c cc) := by
  unfold rolValue
  generalize flag .c cc = c
  revert m c
  decide
theorem rorValue_toNat (m cc : Byte) : (rorValue m cc).toNat = OneOp.ror.result m.toNat (flag .c cc) := by
  unfold rorValue
  generalize flag .c cc = c
  revert m c
  decide

/-- V of a left shift: bits 7 and 6 differ (R300). -/
theorem shift_overflow (m : Byte) : (m[7] != m[6]) = decide (64 ≤ m.toNat ∧ m.toNat < 192) := by
  revert m; decide
theorem bit7 (m : Byte) : m[7] = decide (128 ≤ m.toNat) := by revert m; decide
theorem bit0 (m : Byte) : m[0] = decide (m.toNat % 2 = 1) := by revert m; decide

theorem zero_decide (v : Byte) : decide (v = 0#8) = decide (v.toNat = 0) := by
  rw [decide_eq_decide, ← BitVec.toNat_inj]
  simp
theorem beq_toNat (v w : Byte) : (v == w) = decide (v.toNat = w.toNat) := by
  rw [Bool.eq_iff_iff]
  simp [← BitVec.toNat_inj]

theorem toNat_eq_zero8 (v : Byte) : v.toNat = 0 ↔ v = 0#8 := by rw [← BitVec.toNat_inj]; simp

/-- The condition codes each one-operand operation leaves, in the terms of `OneOp`. -/
def OneOp.condition (op : OneOp) (m cc : Byte) : Byte :=
  match op with
  | .neg => ccNeg m cc
  | .inc => ccInc m cc
  | .dec => ccDec m cc
  | .com => ccCom m cc
  | .clr => ccClr cc
  | .asl => ccAsl m cc
  | .asr => ccAsr m cc
  | .lsr => ccLsr m cc
  | .rol => ccRol m cc
  | .ror => ccRor m cc

/-- The flags of a one-operand operation are those `OneOp` says over the integers. -/
theorem OneOp.flags_of_condition (op : OneOp) (m : Byte) (st t : State) (h : t.cc = op.condition m st.cc) :
    op.Flags m.toNat st t := by
  have hm := m.isLt
  simp only [OneOp.Flags, FlagsAfter, State.flag, h]
  cases op with
  | clr => simp [OneOp.condition, ccClr, OneOp.result, OneOp.overflow, OneOp.carry]
  | lsr =>
    simp only [← lsrValue_toNat, ← zero_decide, OneOp.condition, ccLsr, OneOp.overflow, OneOp.carry, flag_putFlag, beq_decide]
    rw [lsrValue_toNat _ false]
    simp only [OneOp.result, BitVec.getLsbD_eq_getElem, Nat.reduceLT, bit0]
    simp
    exact decide_eq_false (by omega)
  | neg =>
    simp only [← negValue_toNat, ← zero_decide, ← msb8, OneOp.condition, ccNeg, ccNz8, OneOp.overflow, OneOp.carry]
    simp [beq_toNat, bne, toNat_eq_zero8]
  | inc =>
    simp only [← incValue_toNat, ← zero_decide, ← msb8, OneOp.condition, ccInc, ccNz8, OneOp.overflow, OneOp.carry]
    simp [beq_toNat, toNat_eq_zero8]
  | dec =>
    simp only [← decValue_toNat, ← zero_decide, ← msb8, OneOp.condition, ccDec, ccNz8, OneOp.overflow, OneOp.carry]
    simp [beq_toNat, toNat_eq_zero8]
  | com =>
    simp only [← comValue_toNat, ← zero_decide, ← msb8, OneOp.condition, ccCom, ccNz8, OneOp.overflow, OneOp.carry]
    simp [beq_toNat, toNat_eq_zero8]
  | asl =>
    simp only [← aslValue_toNat, ← zero_decide, ← msb8, OneOp.condition, ccAsl, ccNz8, OneOp.overflow, OneOp.carry]
    simp only [BitVec.getLsbD_eq_getElem, Nat.reduceLT]
    rw [shift_overflow, bit7]
    simp [beq_toNat, toNat_eq_zero8]
    exact (msb8 m).symm
  | asr =>
    simp only [← asrValue_toNat, ← zero_decide, ← msb8, OneOp.condition, ccAsr, ccNz8, OneOp.overflow, OneOp.carry]
    simp [beq_toNat, bit0, toNat_eq_zero8]
  | rol =>
    simp only [← rolValue_toNat, ← zero_decide, ← msb8, OneOp.condition, ccRol, ccNz8, OneOp.overflow, OneOp.carry]
    simp only [BitVec.getLsbD_eq_getElem, Nat.reduceLT]
    rw [shift_overflow, bit7]
    simp [beq_toNat, toNat_eq_zero8]
    exact (msb8 m).symm
  | ror =>
    simp only [← rorValue_toNat, ← zero_decide, ← msb8, OneOp.condition, ccRor, ccNz8, OneOp.overflow, OneOp.carry]
    simp [beq_toNat, bit0, toNat_eq_zero8]

/-! ## Bytes of a Word -/

theorem joinBytes_toNat (h l : Byte) : (joinBytes h l).toNat = 256 * h.toNat + l.toNat := by
  have h1 := l.isLt
  simp only [joinBytes, BitVec.toNat_append]
  rw [← Nat.shiftLeft_add_eq_or_of_lt h1, Nat.shiftLeft_eq]
  omega

theorem hiByte_toNat (w : Word) : (hiByte w).toNat = w.toNat / 256 := by
  have := w.isLt
  simp only [hiByte, BitVec.extractLsb'_toNat, Nat.shiftRight_eq_div_pow]
  omega

theorem loByte_toNat (w : Word) : (loByte w).toNat = w.toNat % 256 := by
  simp [loByte, BitVec.extractLsb'_toNat]

@[simp] theorem joinBytes_hi_lo (w : Word) : joinBytes (hiByte w) (loByte w) = w := by
  apply BitVec.eq_of_toNat_eq
  rw [joinBytes_toNat, hiByte_toNat, loByte_toNat]
  omega

@[simp] theorem hiByte_joinBytes (h l : Byte) : hiByte (joinBytes h l) = h := by
  apply BitVec.eq_of_toNat_eq
  have := l.isLt
  rw [hiByte_toNat, joinBytes_toNat]
  omega

@[simp] theorem loByte_joinBytes (h l : Byte) : loByte (joinBytes h l) = l := by
  apply BitVec.eq_of_toNat_eq
  have := l.isLt
  rw [loByte_toNat, joinBytes_toNat]
  omega

end Sys2Proof.Machine
end

