-- ==== Sys2Proof/Laws/Operands.lean ====
section
/-! SUPPORT. What the resolution of an operand leaves alone: everything but the base register of an auto-modifying mode. -/

namespace Sys2Proof.Machine

theorem idxAddress_eq (m : Indexed) (st : State) : (idxAddress m st).2 = { st with
    x := (idxAddress m st).2.x
    y := (idxAddress m st).2.y
    u := (idxAddress m st).2.u
    s := (idxAddress m st).2.s } := by
  cases m with
  | postInc r n ind => cases r <;> rfl
  | preDec r n ind => cases r <;> rfl
  | _ => rfl

theorem eaIdx_eq (m : Indexed) (st : State) : (eaIdx m st).2 = { st with
    x := (eaIdx m st).2.x
    y := (eaIdx m st).2.y
    u := (eaIdx m st).2.u
    s := (eaIdx m st).2.s } := by
  unfold eaIdx
  split
  · exact idxAddress_eq m st
  · exact idxAddress_eq m st

theorem ea_eq (m : MemOp) (st : State) : (ea m st).2 = { st with
    x := (ea m st).2.x
    y := (ea m st).2.y
    u := (ea m st).2.u
    s := (ea m st).2.s } := by
  cases m with
  | idx mode => exact eaIdx_eq mode st
  | _ => rfl

theorem operand8_eq (src : Src8) (st : State) : (operand8 src st).2 = { st with
    x := (operand8 src st).2.x
    y := (operand8 src st).2.y
    u := (operand8 src st).2.u
    s := (operand8 src st).2.s } := by
  cases src with
  | mem m => exact ea_eq m st
  | imm v => rfl

theorem operand16_eq (src : Src16) (st : State) : (operand16 src st).2 = { st with
    x := (operand16 src st).2.x
    y := (operand16 src st).2.y
    u := (operand16 src st).2.u
    s := (operand16 src st).2.s } := by
  cases src with
  | mem m => exact ea_eq m st
  | imm v => rfl

section
variable (m : Indexed) (st : State)
@[simp] theorem eaIdx_a : (eaIdx m st).2.a = st.a := by rw [eaIdx_eq]
@[simp] theorem eaIdx_b : (eaIdx m st).2.b = st.b := by rw [eaIdx_eq]
@[simp] theorem eaIdx_dp : (eaIdx m st).2.dp = st.dp := by rw [eaIdx_eq]
@[simp] theorem eaIdx_cc : (eaIdx m st).2.cc = st.cc := by rw [eaIdx_eq]
@[simp] theorem eaIdx_pc : (eaIdx m st).2.pc = st.pc := by rw [eaIdx_eq]
@[simp] theorem eaIdx_execState : (eaIdx m st).2.execState = st.execState := by rw [eaIdx_eq]
@[simp] theorem eaIdx_nmiLatch : (eaIdx m st).2.nmiLatch = st.nmiLatch := by rw [eaIdx_eq]
@[simp] theorem eaIdx_firqLine : (eaIdx m st).2.firqLine = st.firqLine := by rw [eaIdx_eq]
@[simp] theorem eaIdx_irqLine : (eaIdx m st).2.irqLine = st.irqLine := by rw [eaIdx_eq]
@[simp] theorem eaIdx_nmiArmed : (eaIdx m st).2.nmiArmed = st.nmiArmed := by rw [eaIdx_eq]
@[simp] theorem eaIdx_lastPc : (eaIdx m st).2.lastPc = st.lastPc := by rw [eaIdx_eq]
@[simp] theorem eaIdx_lastLen : (eaIdx m st).2.lastLen = st.lastLen := by rw [eaIdx_eq]
@[simp] theorem eaIdx_mem : (eaIdx m st).2.mem = st.mem := by rw [eaIdx_eq]
@[simp] theorem eaIdx_attrs : (eaIdx m st).2.attrs = st.attrs := by rw [eaIdx_eq]
@[simp] theorem eaIdx_ioTable : (eaIdx m st).2.ioTable = st.ioTable := by rw [eaIdx_eq]
@[simp] theorem eaIdx_params : (eaIdx m st).2.params = st.params := by rw [eaIdx_eq]
@[simp] theorem eaIdx_ioCalls : (eaIdx m st).2.ioCalls = st.ioCalls := by rw [eaIdx_eq]
@[simp] theorem eaIdx_freeIndex : (eaIdx m st).2.freeIndex = st.freeIndex := by rw [eaIdx_eq]
@[simp] theorem eaIdx_attr (k : Word) : (eaIdx m st).2.attr k = st.attr k := by rw [eaIdx_eq]; rfl
@[simp] theorem eaIdx_d : (eaIdx m st).2.d = st.d := by rw [eaIdx_eq]; rfl
@[simp] theorem eaIdx_memRead8 (k : Word) : memRead8 k (eaIdx m st).2 = memRead8 k st := by rw [eaIdx_eq]; rfl
@[simp] theorem eaIdx_memRead16 (k : Word) : memRead16 k (eaIdx m st).2 = memRead16 k st := by rw [eaIdx_eq]; rfl
end

section
variable (m : MemOp) (st : State)
@[simp] theorem ea_a : (ea m st).2.a = st.a := by rw [ea_eq]
@[simp] theorem ea_b : (ea m st).2.b = st.b := by rw [ea_eq]
@[simp] theorem ea_dp : (ea m st).2.dp = st.dp := by rw [ea_eq]
@[simp] theorem ea_cc : (ea m st).2.cc = st.cc := by rw [ea_eq]
@[simp] theorem ea_pc : (ea m st).2.pc = st.pc := by rw [ea_eq]
@[simp] theorem ea_execState : (ea m st).2.execState = st.execState := by rw [ea_eq]
@[simp] theorem ea_nmiLatch : (ea m st).2.nmiLatch = st.nmiLatch := by rw [ea_eq]
@[simp] theorem ea_firqLine : (ea m st).2.firqLine = st.firqLine := by rw [ea_eq]
@[simp] theorem ea_irqLine : (ea m st).2.irqLine = st.irqLine := by rw [ea_eq]
@[simp] theorem ea_nmiArmed : (ea m st).2.nmiArmed = st.nmiArmed := by rw [ea_eq]
@[simp] theorem ea_lastPc : (ea m st).2.lastPc = st.lastPc := by rw [ea_eq]
@[simp] theorem ea_lastLen : (ea m st).2.lastLen = st.lastLen := by rw [ea_eq]
@[simp] theorem ea_mem : (ea m st).2.mem = st.mem := by rw [ea_eq]
@[simp] theorem ea_attrs : (ea m st).2.attrs = st.attrs := by rw [ea_eq]
@[simp] theorem ea_ioTable : (ea m st).2.ioTable = st.ioTable := by rw [ea_eq]
@[simp] theorem ea_params : (ea m st).2.params = st.params := by rw [ea_eq]
@[simp] theorem ea_ioCalls : (ea m st).2.ioCalls = st.ioCalls := by rw [ea_eq]
@[simp] theorem ea_freeIndex : (ea m st).2.freeIndex = st.freeIndex := by rw [ea_eq]
@[simp] theorem ea_attr (k : Word) : (ea m st).2.attr k = st.attr k := by rw [ea_eq]; rfl
@[simp] theorem ea_d : (ea m st).2.d = st.d := by rw [ea_eq]; rfl
@[simp] theorem ea_memRead8 (k : Word) : memRead8 k (ea m st).2 = memRead8 k st := by rw [ea_eq]; rfl
@[simp] theorem ea_memRead16 (k : Word) : memRead16 k (ea m st).2 = memRead16 k st := by rw [ea_eq]; rfl
end

section
variable (src : Src8) (st : State)
@[simp] theorem operand8_a : (operand8 src st).2.a = st.a := by rw [operand8_eq]
@[simp] theorem operand8_b : (operand8 src st).2.b = st.b := by rw [operand8_eq]
@[simp] theorem operand8_dp : (operand8 src st).2.dp = st.dp := by rw [operand8_eq]
@[simp] theorem operand8_cc : (operand8 src st).2.cc = st.cc := by rw [operand8_eq]
@[simp] theorem operand8_pc : (operand8 src st).2.pc = st.pc := by rw [operand8_eq]
@[simp] theorem operand8_execState : (operand8 src st).2.execState = st.execState := by rw [operand8_eq]
@[simp] theorem operand8_nmiLatch : (operand8 src st).2.nmiLatch = st.nmiLatch := by rw [operand8_eq]
@[simp] theorem operand8_firqLine : (operand8 src st).2.firqLine = st.firqLine := by rw [operand8_eq]
@[simp] theorem operand8_irqLine : (operand8 src st).2.irqLine = st.irqLine := by rw [operand8_eq]
@[simp] theorem operand8_nmiArmed : (operand8 src st).2.nmiArmed = st.nmiArmed := by rw [operand8_eq]
@[simp] theorem operand8_lastPc : (operand8 src st).2.lastPc = st.lastPc := by rw [operand8_eq]
@[simp] theorem operand8_lastLen : (operand8 src st).2.lastLen = st.lastLen := by rw [operand8_eq]
@[simp] theorem operand8_mem : (operand8 src st).2.mem = st.mem := by rw [operand8_eq]
@[simp] theorem operand8_attrs : (operand8 src st).2.attrs = st.attrs := by rw [operand8_eq]
@[simp] theorem operand8_ioTable : (operand8 src st).2.ioTable = st.ioTable := by rw [operand8_eq]
@[simp] theorem operand8_params : (operand8 src st).2.params = st.params := by rw [operand8_eq]
@[simp] theorem operand8_ioCalls : (operand8 src st).2.ioCalls = st.ioCalls := by rw [operand8_eq]
@[simp] theorem operand8_freeIndex : (operand8 src st).2.freeIndex = st.freeIndex := by rw [operand8_eq]
@[simp] theorem operand8_attr (k : Word) : (operand8 src st).2.attr k = st.attr k := by rw [operand8_eq]; rfl
@[simp] theorem operand8_d : (operand8 src st).2.d = st.d := by rw [operand8_eq]; rfl
@[simp] theorem operand8_memRead8 (k : Word) : memRead8 k (operand8 src st).2 = memRead8 k st := by rw [operand8_eq]; rfl
@[simp] theorem operand8_memRead16 (k : Word) : memRead16 k (operand8 src st).2 = memRead16 k st := by rw [operand8_eq]; rfl
end

section
variable (src : Src16) (st : State)
@[simp] theorem operand16_a : (operand16 src st).2.a = st.a := by rw [operand16_eq]
@[simp] theorem operand16_b : (operand16 src st).2.b = st.b := by rw [operand16_eq]
@[simp] theorem operand16_dp : (operand16 src st).2.dp = st.dp := by rw [operand16_eq]
@[simp] theorem operand16_cc : (operand16 src st).2.cc = st.cc := by rw [operand16_eq]
@[simp] theorem operand16_pc : (operand16 src st).2.pc = st.pc := by rw [operand16_eq]
@[simp] theorem operand16_execState : (operand16 src st).2.execState = st.execState := by rw [operand16_eq]
@[simp] theorem operand16_nmiLatch : (operand16 src st).2.nmiLatch = st.nmiLatch := by rw [operand16_eq]
@[simp] theorem operand16_firqLine : (operand16 src st).2.firqLine = st.firqLine := by rw [operand16_eq]
@[simp] theorem operand16_irqLine : (operand16 src st).2.irqLine = st.irqLine := by rw [operand16_eq]
@[simp] theorem operand16_nmiArmed : (operand16 src st).2.nmiArmed = st.nmiArmed := by rw [operand16_eq]
@[simp] theorem operand16_lastPc : (operand16 src st).2.lastPc = st.lastPc := by rw [operand16_eq]
@[simp] theorem operand16_lastLen : (operand16 src st).2.lastLen = st.lastLen := by rw [operand16_eq]
@[simp] theorem operand16_mem : (operand16 src st).2.mem = st.mem := by rw [operand16_eq]
@[simp] theorem operand16_attrs : (operand16 src st).2.attrs = st.attrs := by rw [operand16_eq]
@[simp] theorem operand16_ioTable : (operand16 src st).2.ioTable = st.ioTable := by rw [operand16_eq]
@[simp] theorem operand16_params : (operand16 src st).2.params = st.params := by rw [operand16_eq]
@[simp] theorem operand16_ioCalls : (operand16 src st).2.ioCalls = st.ioCalls := by rw [operand16_eq]
@[simp] theorem operand16_freeIndex : (operand16 src st).2.freeIndex = st.freeIndex := by rw [operand16_eq]
@[simp] theorem operand16_attr (k : Word) : (operand16 src st).2.attr k = st.attr k := by rw [operand16_eq]; rfl
@[simp] theorem operand16_d : (operand16 src st).2.d = st.d := by rw [operand16_eq]; rfl
@[simp] theorem operand16_memRead8 (k : Word) : memRead8 k (operand16 src st).2 = memRead8 k st := by rw [operand16_eq]; rfl
@[simp] theorem operand16_memRead16 (k : Word) : memRead16 k (operand16 src st).2 = memRead16 k st := by rw [operand16_eq]; rfl
end

/-- The state after an operand is resolved differs in the base register of an auto-modifying mode alone. -/
theorem eaIdx_keeps (m : Indexed) (st : State) : KeepsExcept (autoParts m) st (eaIdx m st).2 := by
  have h : (eaIdx m st).2 = (idxAddress m st).2 := by unfold eaIdx; split <;> rfl
  intro p hp
  rw [h]
  cases m with
  | postInc r n ind => cases r <;> cases p <;> first | rfl | exact absurd List.mem_cons_self hp
  | preDec r n ind => cases r <;> cases p <;> first | rfl | exact absurd List.mem_cons_self hp
  | _ => cases p <;> rfl

theorem ea_keeps (m : MemOp) (st : State) : KeepsExcept (memAutoParts m) st (ea m st).2 := by
  cases m with
  | idx mode => exact eaIdx_keeps mode st
  | _ => intro p _; cases p <;> rfl

theorem operand8_keeps (src : Src8) (st : State) : KeepsExcept (src8AutoParts src) st (operand8 src st).2 := by
  cases src with
  | mem m => exact ea_keeps m st
  | imm v => intro p _; cases p <;> rfl

theorem operand16_keeps (src : Src16) (st : State) : KeepsExcept (src16AutoParts src) st (operand16 src st).2 := by
  cases src with
  | mem m => exact ea_keeps m st
  | imm v => intro p _; cases p <;> rfl

theorem Same.trans {p : Part} {s1 s2 s3 : State} (h : Same p s1 s2) (h' : Same p s2 s3) : Same p s1 s3 := by
  cases p <;> exact Eq.trans h' h

/-- Two frames one after the other. -/
theorem KeepsExcept.trans {l m : List Part} {s1 s2 s3 : State} (h : KeepsExcept l s1 s2) (h' : KeepsExcept m s2 s3) :
    KeepsExcept (l ++ m) s1 s3 := fun p hp =>
  Same.trans (h p fun e => hp (List.mem_append_left m e)) (h' p fun e => hp (List.mem_append_right l e))

/-- A longer list of exceptions. -/
theorem KeepsExcept.mono {l m : List Part} {s1 s2 : State} (h : KeepsExcept l s1 s2) (hl : ∀ p ∈ l, p ∈ m) :
    KeepsExcept m s1 s2 := fun p hp => h p fun e => hp (hl p e)

end Sys2Proof.Machine
end

