-- ==== Sys2Proof/Laws/Attrs.lean ====
section
/-! SUPPORT. The attribute list under the operations of the host port: what every cell's attributes are after a range is changed, and
that the canonical form is kept. -/

namespace Sys2Proof.Machine

/-- Pairs at strictly rising addresses inside the address space, from an address up. -/
def Attrs.Rising : Nat → List (Nat × CellAttr) → Prop
  | _, [] => True
  | low, (k, _) :: rest => low ≤ k ∧ k < 65536 ∧ Attrs.Rising (k + 1) rest

/-- There is a pair at the address. -/
def Attrs.HasKey (p : Nat) (l : List (Nat × CellAttr)) : Prop := ∃ v, (p, v) ∈ l

theorem Attrs.hasKey_cons {p k : Nat} {v : CellAttr} {rest : List (Nat × CellAttr)} :
    Attrs.HasKey p ((k, v) :: rest) ↔ p = k ∨ Attrs.HasKey p rest := by
  simp only [Attrs.HasKey, List.mem_cons, Prod.mk.injEq]
  constructor
  · rintro ⟨w, ⟨h, -⟩ | h⟩
    · exact .inl h
    · exact .inr ⟨w, h⟩
  · rintro (h | ⟨w, h⟩)
    · exact ⟨v, .inl ⟨h, rfl⟩⟩
    · exact ⟨w, .inr h⟩

theorem Attrs.Rising.mono {low low' : Nat} {l : List (Nat × CellAttr)} (h : low ≤ low') (hl : Attrs.Rising low' l) :
    Attrs.Rising low l := by
  cases l with
  | nil => trivial
  | cons c rest => exact ⟨Nat.le_trans h hl.1, hl.2⟩

theorem Attrs.Rising.le_key {low p : Nat} {l : List (Nat × CellAttr)} (hl : Attrs.Rising low l) (h : Attrs.HasKey p l) :
    low ≤ p := by
  induction l generalizing low with
  | nil => obtain ⟨v, h⟩ := h; simp at h
  | cons c rest ih =>
    obtain ⟨k, v⟩ := c
    rcases Attrs.hasKey_cons.1 h with e | h
    · subst e; exact hl.1
    · have := ih hl.2.2 h
      have := hl.1
      omega

/-- The canonical form is rising. -/
theorem Attrs.rising_of_wfFrom {low : Nat} {c : CellAttr} {l : List (Nat × CellAttr)} (h : Attrs.wfFrom low c l = true) :
    Attrs.Rising low l := by
  induction l generalizing low c with
  | nil => trivial
  | cons d rest ih =>
    simp only [Attrs.wfFrom, Bool.and_eq_true, decide_eq_true_eq] at h
    exact ⟨h.1.1.1, h.1.1.2, ih h.2⟩

/-- Below the first pair the attributes are those before it. -/
theorem Attrs.get_below {low a : Nat} {c : CellAttr} {l : List (Nat × CellAttr)} (h : Attrs.Rising low l) (ha : a < low) :
    Attrs.get c l a = c := by
  cases l with
  | nil => rfl
  | cons d rest =>
    have := h.1
    simp only [Attrs.get]
    rw [if_pos (by omega)]

/-! ## A pair more -/

theorem Attrs.get_split (p a : Nat) (c : CellAttr) (l : List (Nat × CellAttr)) :
    Attrs.get c (Attrs.split p c l) a = Attrs.get c l a := by
  induction l generalizing c with
  | nil => simp [Attrs.split, Attrs.get]
  | cons d rest ih =>
    simp only [Attrs.split]
    split
    · simp only [Attrs.get]
      split
      · rw [if_pos (by omega)]
      · rfl
    · split
      · rfl
      · simp only [Attrs.get, ih]

theorem Attrs.rising_split {low p : Nat} (c : CellAttr) {l : List (Nat × CellAttr)} (h : Attrs.Rising low l) (hp : low ≤ p)
    (hp' : p < 65536) : Attrs.Rising low (Attrs.split p c l) := by
  induction l generalizing low c with
  | nil => exact ⟨hp, hp', trivial⟩
  | cons d rest ih =>
    simp only [Attrs.split]
    split
    · exact ⟨hp, hp', by omega, h.2⟩
    · split
      · exact h
      · exact ⟨h.1, h.2.1, ih _ h.2.2 (by omega)⟩

theorem Attrs.hasKey_split (p : Nat) (c : CellAttr) (l : List (Nat × CellAttr)) : Attrs.HasKey p (Attrs.split p c l) := by
  induction l generalizing c with
  | nil => exact ⟨c, List.mem_singleton.2 rfl⟩
  | cons d rest ih =>
    simp only [Attrs.split]
    split
    · exact Attrs.hasKey_cons.2 (.inl rfl)
    · split
      · rename_i h; exact Attrs.hasKey_cons.2 (.inl h)
      · exact Attrs.hasKey_cons.2 (.inr (ih _))

theorem Attrs.hasKey_split_of {p q : Nat} (c : CellAttr) {l : List (Nat × CellAttr)} (h : Attrs.HasKey q l) :
    Attrs.HasKey q (Attrs.split p c l) := by
  induction l generalizing c with
  | nil => obtain ⟨v, h⟩ := h; simp at h
  | cons d rest ih =>
    simp only [Attrs.split]
    split
    · exact Attrs.hasKey_cons.2 (.inr h)
    · split
      · exact h
      · rcases Attrs.hasKey_cons.1 h with e | h
        · exact Attrs.hasKey_cons.2 (.inl e)
        · exact Attrs.hasKey_cons.2 (.inr (ih _ h))

/-! ## A range changed -/

theorem Attrs.rising_mapRange {low : Nat} (f : CellAttr → CellAttr) (lo hi : Nat) {l : List (Nat × CellAttr)}
    (h : Attrs.Rising low l) : Attrs.Rising low (Attrs.mapRange f lo hi l) := by
  induction l generalizing low with
  | nil => trivial
  | cons d rest ih => exact ⟨h.1, h.2.1, ih h.2.2⟩

/-- The attributes after a range is changed, from an address `p` where `c` holds, when a pair stands at each end of the range that lies
past `p`. -/
theorem Attrs.get_mapRange (f : CellAttr → CellAttr) {lo hi p a : Nat} (c : CellAttr) {l : List (Nat × CellAttr)}
    (h : Attrs.Rising p l) (hlo : lo ≤ p ∨ Attrs.HasKey lo l) (hhi : hi ≤ p ∨ 65536 ≤ hi ∨ Attrs.HasKey hi l) (ha : p ≤ a)
    (ha' : a < 65536) :
    Attrs.get (if lo ≤ p ∧ p < hi then f c else c) (Attrs.mapRange f lo hi l) a =
      if lo ≤ a ∧ a < hi then f (Attrs.get c l a) else Attrs.get c l a := by
  induction l generalizing p c with
  | nil =>
    have hlo : lo ≤ p := hlo.elim id fun h => by obtain ⟨v, h⟩ := h; simp at h
    have hhi : hi ≤ p ∨ 65536 ≤ hi := hhi.imp id fun h => h.elim id fun h => by obtain ⟨v, h⟩ := h; simp at h
    simp only [Attrs.mapRange, Attrs.get]
    have e : (lo ≤ p ∧ p < hi) ↔ (lo ≤ a ∧ a < hi) := by omega
    simp only [e]
  | cons d rest ih =>
    obtain ⟨k, v⟩ := d
    rw [Attrs.hasKey_cons] at hlo hhi
    simp only [Attrs.mapRange, Attrs.get]
    have hk' := h.2.1
    by_cases hk : a < k
    · simp only [hk, if_true]
      have hl : lo ≤ p ∨ k ≤ lo := by
        rcases hlo with h1 | h1 | h1
        · exact .inl h1
        · exact .inr (by omega)
        · exact .inr (by have := h.2.2.le_key h1; omega)
      have hh : hi ≤ p ∨ k ≤ hi := by
        rcases hhi with h1 | h1 | h1 | h1
        · exact .inl h1
        · exact .inr (by omega)
        · exact .inr (by omega)
        · exact .inr (by have := h.2.2.le_key h1; omega)
      have e : (lo ≤ p ∧ p < hi) ↔ (lo ≤ a ∧ a < hi) := by omega
      simp only [e]
    · simp only [hk, if_false]
      have hr : Attrs.Rising k rest := h.2.2.mono (Nat.le_succ k)
      have := h.1
      refine ih v hr ?_ ?_ (by omega)
      · rcases hlo with h1 | h1 | h1
        · exact .inl (by omega)
        · exact .inl (by omega)
        · exact .inr h1
      · rcases hhi with h1 | h1 | h1 | h1
        · exact .inl (by omega)
        · exact .inr (.inl h1)
        · exact .inl (by omega)
        · exact .inr (.inr h1)

/-! ## Without repeated pairs -/

theorem Attrs.get_normalise {low a : Nat} (c : CellAttr) {l : List (Nat × CellAttr)} (h : Attrs.Rising low l) :
    Attrs.get c (Attrs.normalise c l) a = Attrs.get c l a := by
  induction l generalizing low c with
  | nil => rfl
  | cons d rest ih =>
    obtain ⟨k, v⟩ := d
    simp only [Attrs.normalise]
    split
    · rename_i e
      subst e
      rw [ih v h.2.2]
      simp only [Attrs.get]
      split
      · exact Attrs.get_below h.2.2 (by omega)
      · rfl
    · simp only [Attrs.get, ih v h.2.2]

theorem Attrs.wfFrom_mono {low low' : Nat} {c : CellAttr} {l : List (Nat × CellAttr)} (h : low ≤ low')
    (hl : Attrs.wfFrom low' c l = true) : Attrs.wfFrom low c l = true := by
  cases l with
  | nil => rfl
  | cons d rest =>
    simp only [Attrs.wfFrom, Bool.and_eq_true, decide_eq_true_eq] at *
    exact ⟨⟨⟨by omega, hl.1.1.2⟩, hl.1.2⟩, hl.2⟩

theorem Attrs.wfFrom_normalise {low : Nat} (c : CellAttr) {l : List (Nat × CellAttr)} (h : Attrs.Rising low l) :
    Attrs.wfFrom low c (Attrs.normalise c l) = true := by
  induction l generalizing low c with
  | nil => rfl
  | cons d rest ih =>
    obtain ⟨k, v⟩ := d
    simp only [Attrs.normalise]
    split
    · have := h.1
      exact Attrs.wfFrom_mono (by omega) (ih c h.2.2)
    · rename_i e
      simp only [Attrs.wfFrom, Bool.and_eq_true, decide_eq_true_eq]
      exact ⟨⟨⟨h.1, h.2.1⟩, e⟩, ih v h.2.2⟩

/-! ## The update of a range -/

theorem Attrs.rising_splitEnd {hi : Nat} {l : List (Nat × CellAttr)} (h : Attrs.Rising 0 l) :
    Attrs.Rising 0 (Attrs.splitEnd hi l) := by
  unfold Attrs.splitEnd
  split
  · rename_i h'; exact Attrs.rising_split _ h (Nat.zero_le _) h'
  · exact h

/-- After an update the attributes of the range are changed, and those of no other cell. -/
theorem Attrs.get_update (f : CellAttr → CellAttr) {lo hi a : Nat} {l : List (Nat × CellAttr)} (h : Attrs.wf l = true)
    (hhi : hi ≤ 65536) (ha : a < 65536) :
    Attrs.get CellAttr.none (Attrs.update f lo hi l) a =
      if lo ≤ a ∧ a < hi then f (Attrs.get CellAttr.none l a) else Attrs.get CellAttr.none l a := by
  unfold Attrs.update
  split
  · rename_i hlt
    have hr : Attrs.Rising 0 l := Attrs.rising_of_wfFrom h
    have hr1 := Attrs.rising_splitEnd (hi := hi) hr
    have hr2 := Attrs.rising_split CellAttr.none hr1 (Nat.zero_le lo) (by omega)
    have hk := Attrs.hasKey_split lo CellAttr.none (Attrs.splitEnd hi l)
    have hk' : 65536 ≤ hi ∨ Attrs.HasKey hi (Attrs.split lo CellAttr.none (Attrs.splitEnd hi l)) := by
      unfold Attrs.splitEnd
      split
      · exact .inr (Attrs.hasKey_split_of _ (Attrs.hasKey_split _ _ _))
      · exact .inl (by omega)
    have hg : Attrs.get CellAttr.none (Attrs.split lo CellAttr.none (Attrs.splitEnd hi l)) a =
        Attrs.get CellAttr.none l a := by
      rw [Attrs.get_split]
      unfold Attrs.splitEnd
      split
      · exact Attrs.get_split _ _ _ _
      · rfl
    rw [Attrs.get_normalise (low := 0) _ (Attrs.rising_mapRange f lo hi hr2), ← hg]
    revert hr2 hk hk'
    generalize Attrs.split lo CellAttr.none (Attrs.splitEnd hi l) = m
    intro hr2 hk hk'
    cases m with
    | nil => obtain ⟨v, hk⟩ := hk; simp at hk
    | cons d rest =>
      obtain ⟨k, v⟩ := d
      have hlo := (show Attrs.Rising k ((k, v) :: rest) from ⟨Nat.le_refl k, hr2.2⟩).le_key hk
      simp only [Attrs.mapRange, Attrs.get]
      by_cases hak : a < k
      · simp only [hak, if_true]
        rw [if_neg (by omega)]
      · simp only [hak, if_false]
        rw [Attrs.hasKey_cons] at hk hk'
        refine Attrs.get_mapRange f v (hr2.2.2.mono (Nat.le_succ k)) ?_ ?_ (by omega) ha
        · exact hk.imp (fun e => by omega) id
        · rcases hk' with h1 | h1 | h1
          · exact .inr (.inl h1)
          · exact .inl (by omega)
          · exact .inr (.inr h1)
  · rw [if_neg (by omega)]

/-- An update keeps the canonical form. -/
theorem Attrs.wf_update (f : CellAttr → CellAttr) {lo hi : Nat} {l : List (Nat × CellAttr)} (h : Attrs.wf l = true)
    (hhi : hi ≤ 65536) : Attrs.wf (Attrs.update f lo hi l) = true := by
  unfold Attrs.update
  split
  · exact Attrs.wfFrom_normalise _ (Attrs.rising_mapRange f lo hi
      (Attrs.rising_split CellAttr.none (Attrs.rising_splitEnd (Attrs.rising_of_wfFrom h)) (Nat.zero_le lo) (by omega)))
  · exact h

/-- The attributes of a cell after an update of the state's list. -/
theorem attr_update (f : CellAttr → CellAttr) {lo hi : Nat} {st : State} (h : Attrs.wf st.attrs = true) (hhi : hi ≤ 65536)
    (k : Word) : State.attr k { st with attrs := Attrs.update f lo hi st.attrs } =
      if lo ≤ k.toNat ∧ k.toNat < hi then f (st.attr k) else st.attr k :=
  Attrs.get_update f h hhi k.isLt

/-! ## The dispatch table -/

theorem slotOf_some {h : Config.Handler} {table : List Config.Handler} {n k : Nat} (e : slotOf h table n = some k) :
    n ≤ k ∧ k < n + table.length ∧ table.getD (k - n) .noOp = h := by
  induction table generalizing n with
  | nil => simp [slotOf] at e
  | cons d rest ih =>
    simp only [slotOf] at e
    split at e
    · rename_i hd
      cases e
      simp [hd]
    · obtain ⟨h1, h2, h3⟩ := ih e
      refine ⟨by omega, by simp only [List.length_cons]; omega, ?_⟩
      have : k - n = k - (n + 1) + 1 := by omega
      rw [this, List.getD_cons_succ]
      exact h3

theorem slotOf_none {h : Config.Handler} {table : List Config.Handler} {n : Nat} (e : slotOf h table n = none) : h ∉ table := by
  induction table generalizing n with
  | nil => simp
  | cons d rest ih =>
    simp only [slotOf] at e
    split at e
    · cases e
    · rename_i hd
      simp only [List.mem_cons, not_or]
      exact ⟨fun e' => hd e'.symm, ih e⟩

/-- The slot chosen for a handler: the table holds the handler there, old slots are as they were, and there are at most 256. -/
theorem allocate_some {h : Config.Handler} {table table' : List Config.Handler} {k : Nat}
    (e : allocate h table = some (k, table')) (hl : table.length ≤ 256) :
    k < table'.length ∧ table'.length ≤ 256 ∧ table.length ≤ table'.length ∧ table'.getD k .noOp = h ∧
      ∀ j, j < table.length → table'.getD j .noOp = table.getD j .noOp := by
  unfold allocate at e
  split at e
  · rename_i k' hs
    cases e
    obtain ⟨-, h2, h3⟩ := slotOf_some hs
    exact ⟨by simpa using h2, hl, Nat.le_refl _, by simpa using h3, fun _ _ => rfl⟩
  · split at e
    · rename_i hlt
      cases e
      refine ⟨by simp, by simp; omega, by simp, by simp [List.getD], fun j hj => ?_⟩
      simp [List.getD, List.getElem?_append_left hj]
    · cases e

theorem allocate_exists {h : Config.Handler} {table : List Config.Handler} (hh : h ∈ table ∨ table.length < 256) :
    ∃ k table', allocate h table = some (k, table') := by
  unfold allocate
  cases hs : slotOf h table 0 with
  | some k => exact ⟨k, table, rfl⟩
  | none =>
    rcases hh with h1 | h1
    · exact absurd h1 (slotOf_none hs)
    · exact ⟨_, _, if_pos h1⟩

/-! ## The bytes of an image -/

theorem storeBytes_eq (addr : Nat) (l : List Byte) (st : State) :
    storeBytes addr l st = { st with mem := (storeBytes addr l st).mem } := by
  induction l generalizing addr st with
  | nil => rfl
  | cons v rest ih => simp only [storeBytes]; rw [ih]; rfl

theorem storeBytes_wf (addr : Nat) (l : List Byte) (st : State) (h : Memory.wf st.mem = true) :
    Memory.wf (storeBytes addr l st).mem = true := by
  induction l generalizing addr st with
  | nil => exact h
  | cons v rest ih => exact ih _ _ (Memory.wf_write v h (BitVec.isLt _))

theorem storeBytes_read_other {addr : Nat} {l : List Byte} {st : State} {k : Word} (hl : addr + l.length ≤ 65536)
    (hk : k.toNat < addr ∨ addr + l.length ≤ k.toNat) : memRead8 k (storeBytes addr l st) = memRead8 k st := by
  induction l generalizing addr st with
  | nil => rfl
  | cons v rest ih =>
    simp only [List.length_cons] at hl hk
    rw [storeBytes, ih (by omega) (by omega), storeByte_read_other]
    rintro rfl
    rw [BitVec.toNat_ofNat, Nat.mod_eq_of_lt (by omega)] at hk
    omega

theorem storeBytes_read {addr : Nat} {l : List Byte} {st : State} (hl : addr + l.length ≤ 65536) {j : Nat}
    (hj : j < l.length) : memRead8 (BitVec.ofNat 16 (addr + j)) (storeBytes addr l st) = l[j] := by
  induction l generalizing addr st j with
  | nil => simp at hj
  | cons v rest ih =>
    simp only [List.length_cons] at hl hj
    cases j with
    | zero =>
      rw [storeBytes, storeBytes_read_other (by omega), Nat.add_zero, storeByte_read_self, List.getElem_cons_zero]
      rw [BitVec.toNat_ofNat, Nat.mod_eq_of_lt (by omega)]
      omega
    | succ j =>
      have := ih (addr := addr + 1) (st := st.storeByte (BitVec.ofNat 16 addr) v) (j := j) (by omega) (by omega)
      rw [storeBytes, show addr + (j + 1) = addr + 1 + j by omega, this, List.getElem_cons_succ]

/-- The placing of an image changes the data and the attributes of cells, and nothing else. -/
theorem loadImage_eq (addr : Nat) (image : List Byte) (st : State) :
    loadImage addr image st = { st with mem := (loadImage addr image st).mem, attrs := (loadImage addr image st).attrs } := by
  unfold loadImage
  rw [storeBytes_eq]

theorem loadImage_attrs (addr : Nat) (image : List Byte) (st : State) : (loadImage addr image st).attrs =
    Attrs.update (fun c => { c with isRom := false, isIo := false }) addr (addr + image.length) st.attrs := by
  unfold loadImage
  rw [storeBytes_eq]

theorem loadImage_wf (addr : Nat) (image : List Byte) {st : State} (h : Memory.wf st.mem = true) :
    Memory.wf (loadImage addr image st).mem = true :=
  storeBytes_wf addr image _ h

/-- The attributes of every cell after an image is placed: both flags of the touched cells cleared, their index kept. -/
theorem attr_loadImage {addr : Nat} {image : List Byte} {st : State} (h : Attrs.wf st.attrs = true)
    (hl : addr + image.length ≤ 65536) (k : Word) : (loadImage addr image st).attr k =
      if addr ≤ k.toNat ∧ k.toNat < addr + image.length then { st.attr k with isRom := false, isIo := false } else st.attr k := by
  have e : (loadImage addr image st).attr k = Attrs.get CellAttr.none (loadImage addr image st).attrs k.toNat := rfl
  rw [e, loadImage_attrs, Attrs.get_update _ h hl k.isLt]
  rfl

theorem loadImage_read_other {addr : Nat} {image : List Byte} {st : State} {k : Word} (hl : addr + image.length ≤ 65536)
    (hk : k.toNat < addr ∨ addr + image.length ≤ k.toNat) : memRead8 k (loadImage addr image st) = memRead8 k st :=
  storeBytes_read_other hl hk

theorem loadImage_read {addr : Nat} {image : List Byte} {st : State} (hl : addr + image.length ≤ 65536) {j : Nat}
    (hj : j < image.length) : memRead8 (BitVec.ofNat 16 (addr + j)) (loadImage addr image st) = image[j] :=
  storeBytes_read hl hj

end Sys2Proof.Machine
end

