-- ==== Sys2Proof/Laws/Decode.lean ====
section
/-! SUPPORT. The lengths of encodings, the fields of the postbytes, and what a decoded operand gives back when it is encoded. -/

namespace Sys2Proof

/-! ## Lengths -/

theorem encodeIndexed_length (m : Indexed) : 1 ≤ (encodeIndexed m).length ∧ (encodeIndexed m).length ≤ 3 := by
  cases m with
  | postInc r n ind => cases n <;> simp [encodeIndexed]
  | preDec r n ind => cases n <;> simp [encodeIndexed]
  | _ => simp [encodeIndexed, wordBytes]

theorem encodeMem_length (p q r : Byte) (m : MemOp) : 2 ≤ (encodeMem p q r m).length ∧ (encodeMem p q r m).length ≤ 4 := by
  cases m with
  | idx mode =>
    have := encodeIndexed_length mode
    simp only [encodeMem, List.length_cons]
    omega
  | _ => simp [encodeMem, wordBytes]

theorem encodeSrc8_length (base : Byte) (src : Src8) :
    2 ≤ (encodeSrc8 base src).length ∧ (encodeSrc8 base src).length ≤ 4 := by
  cases src with
  | imm v => simp [encodeSrc8]
  | mem m => exact encodeMem_length _ _ _ m

theorem encodeSrc16_length (base : Byte) (src : Src16) :
    2 ≤ (encodeSrc16 base src).length ∧ (encodeSrc16 base src).length ≤ 4 := by
  cases src with
  | imm v => simp [encodeSrc16, wordBytes]
  | mem m => exact encodeMem_length _ _ _ m

/-- A postbyte is at most followed by two bytes (R110). -/
theorem indexedOf_extra {pb b1 b2 : Byte} {m : Indexed} {n : Nat} (h : indexedOf pb b1 b2 = some (m, n)) : n ≤ 2 := by
  simp only [indexedOf] at h
  split at h
  · cases h; omega
  · split at h <;> first
      | (split at h <;> cases h <;> omega)
      | (cases h <;> omega)

/-- Opcode and prefix take one or two bytes, an operand at most three (R121). -/
theorem decode_length {b : Nat → Byte} {i : Instr} {n : Nat} (h : decode b = .ok (i, n)) : 1 ≤ n ∧ n ≤ 5 := by
  have he {e : Entry} {k : Nat} (hk : k = 1 ∨ k = 2) (h : decodeEntry e b k = .ok (i, n)) : 1 ≤ n ∧ n ≤ 5 := by
    cases e with
    | idx mk =>
      simp only [decodeEntry] at h
      split at h
      · rename_i m x hx
        have := indexedOf_extra hx
        cases h
        omega
      · cases h
    | lea mk =>
      simp only [decodeEntry] at h
      split at h
      · rename_i m x hx
        have := indexedOf_extra hx
        cases h
        omega
      · cases h
    | regpb mk =>
      simp only [decodeEntry] at h
      split at h <;> cases h
      omega
    | _ => cases h; omega
  have ho {page : Page} {op : Byte} {k : Nat} (hk : k = 1 ∨ k = 2) (h : decodeOn page op b k = .ok (i, n)) :
      1 ≤ n ∧ n ≤ 5 := by
    unfold decodeOn at h
    split at h
    · exact he hk h
    · cases h
  unfold decode at h
  split at h
  · exact ho (.inr rfl) h
  · split at h
    · exact ho (.inr rfl) h
    · exact ho (.inl rfl) h

/-! ## Fields of the postbytes -/

@[simp] theorem idxReg_ofCode_code (r : IdxReg) : IdxReg.ofCode r.code.toNat = r := by cases r <;> rfl

theorem reg_ofCode_code (r : Reg) : Reg.ofCode r.code.toNat = some r := by
  cases r with
  | r16 r => cases r <;> rfl
  | r8 r => cases r <;> rfl

/-- The two fields of the TFR/EXG postbyte (R113). -/
theorem regPostbyte_fields (r q : Reg) : (regPostbyte r q).toNat / 16 = r.code.toNat ∧
    (regPostbyte r q).toNat % 16 = q.code.toNat := by
  have hq := q.code.isLt
  simp only [regPostbyte, BitVec.toNat_append, Nat.shiftLeft_eq]
  rw [← Nat.shiftLeft_eq, ← Nat.shiftLeft_add_eq_or_of_lt hq, Nat.shiftLeft_eq]
  omega

/-- Three bytes of a stream that begin with a postbyte give the sub-mode back. -/
theorem indexedOf_encode (m : Indexed) (h : m.wf = true) (b : Nat → Byte)
    (hb : ∀ k (hk : k < (encodeIndexed m).length), b k = (encodeIndexed m)[k]) :
    indexedOf (b 0) (b 1) (b 2) = some (m, (encodeIndexed m).length - 1) := by
  have r0 {l : List Byte} {v : Byte} (e : encodeIndexed m = v :: l) : b 0 = v := by
    have := hb 0 (by rw [e]; simp)
    simpa only [e, List.getElem_cons_zero] using this
  have r1 {l : List Byte} {v w : Byte} (e : encodeIndexed m = v :: w :: l) : b 1 = w := by
    have := hb 1 (by rw [e]; simp)
    simpa only [e, List.getElem_cons_succ, List.getElem_cons_zero] using this
  have r2 {l : List Byte} {v w x : Byte} (e : encodeIndexed m = v :: w :: x :: l) : b 2 = x := by
    have := hb 2 (by rw [e]; simp)
    simpa only [e, List.getElem_cons_succ, List.getElem_cons_zero] using this
  cases m with
  | off5 r o =>
    rw [r0 rfl]
    clear hb r0 r1 r2 h
    have h1 : (0#1 ++ r.code ++ o : Byte).getLsbD 7 = false := by revert o; cases r <;> decide
    have h2 : (0#1 ++ r.code ++ o : Byte).toNat / 32 % 4 = r.code.toNat := by revert o; cases r <;> decide
    have h3 : (0#1 ++ r.code ++ o : Byte).extractLsb' 0 5 = o := by revert o; cases r <;> decide
    simp only [indexedOf, h1, if_true, h2, h3, idxReg_ofCode_code]
    rfl
  | postInc r n ind =>
    cases n with
    | one => cases ind <;> first | (cases h; done) | (rw [r0 rfl]; cases r <;> rfl)
    | two => rw [r0 rfl]; cases ind <;> cases r <;> rfl
  | preDec r n ind =>
    cases n with
    | one => cases ind <;> first | (cases h; done) | (rw [r0 rfl]; cases r <;> rfl)
    | two => rw [r0 rfl]; cases ind <;> cases r <;> rfl
  | zero r ind => rw [r0 rfl]; cases ind <;> cases r <;> rfl
  | accB r ind => rw [r0 rfl]; cases ind <;> cases r <;> rfl
  | accA r ind => rw [r0 rfl]; cases ind <;> cases r <;> rfl
  | accD r ind => rw [r0 rfl]; cases ind <;> cases r <;> rfl
  | off8 r o ind => rw [r0 rfl, r1 rfl]; cases ind <;> cases r <;> rfl
  | pcr8 r o ind => rw [r0 rfl, r1 rfl]; cases ind <;> cases r <;> rfl
  | off16 r o ind =>
    rw [r0 rfl, r1 rfl, r2 rfl]
    cases ind <;> cases r <;> exact congrArg (fun w => some (Indexed.off16 _ w _, 2)) (Machine.joinBytes_hi_lo o)
  | pcr16 r o ind =>
    rw [r0 rfl, r1 rfl, r2 rfl]
    cases ind <;> cases r <;> exact congrArg (fun w => some (Indexed.pcr16 _ w _, 2)) (Machine.joinBytes_hi_lo o)
  | extInd a =>
    rw [r0 rfl, r1 rfl, r2 rfl]
    exact congrArg (fun w => some (Indexed.extInd w, 2)) (Machine.joinBytes_hi_lo a)

end Sys2Proof
end

