-- ==== Sys2Proof/Laws/Effects.lean ====
section
/-! SUPPORT. How the effect of an instruction follows from the effect of the shared operation it ends in: a byte write, a Word write, a
read of an operand. -/

namespace Sys2Proof.Machine

/-- The state an instruction answers, read off without evaluating it: `cases` on such an equation would. -/
theorem next_eq {st t : State} (h : (Host.Outcome.next st : Result) = .next t) : t = st := by
  injection h with h
  exact h.symm

/-- The address space is longer than two bytes. -/
theorem ne_succ (k : Word) : k ≠ k + 1 := by
  intro e
  have h := congrArg BitVec.toNat e
  simp [BitVec.toNat_add] at h
  have := k.isLt
  omega

/-- A byte write changes memory and the handler port alone. -/
theorem memWrite8_keeps (k : Word) (v : Byte) (st : State) : KeepsExcept portParts st (memWrite8 k v st) := by
  intro p hp
  cases p with
  | firqLine | irqLine | ioCalls | freeIndex => exact absurd (by simp [portParts]) hp
  | _ => simp [Same]

/-- A byte write to a cell that is not I/O changes memory alone. -/
theorem memWrite8_keeps_plain {k : Word} (v : Byte) {st : State} (h : (st.attr k).isIo = false) :
    KeepsExcept [] st (memWrite8 k v st) := by
  have hp := memWrite8_port v h
  intro p _
  cases p with
  | firqLine => exact hp.1
  | irqLine => exact hp.2.1
  | ioCalls => exact hp.2.2.1
  | freeIndex => exact hp.2.2.2
  | _ => simp [Same]

theorem reads8_of {src : Src8} {l : List Part} {st t : State} (h : KeepsExcept l (operand8 src st).2 t)
    (hm : t.mem = (operand8 src st).2.mem) : Reads8 src l st t :=
  ⟨h, (operand8_keeps src st).trans h, fun k => by unfold memRead8; rw [hm]; simp⟩

theorem reads16_of {src : Src16} {l : List Part} {st t : State} (h : KeepsExcept l (operand16 src st).2 t)
    (hm : t.mem = (operand16 src st).2.mem) : Reads16 src l st t :=
  ⟨h, (operand16_keeps src st).trans h, fun k => by unfold memRead8; rw [hm]; simp⟩

/-- What is a byte write at the operand's address, and CC, is a byte stored. -/
theorem storesByte_of {dst : MemOp} {v : Byte} {st t : State}
    (h : KeepsExcept [.cc] (memWrite8 (ea dst st).1 v (ea dst st).2) t)
    (hm : t.mem = (memWrite8 (ea dst st).1 v (ea dst st).2).mem) : StoresByte dst v st t := by
  have hr : ∀ b, memRead8 b t = memRead8 b (memWrite8 (ea dst st).1 v (ea dst st).2) := fun b => by
    unfold memRead8; rw [hm]
  refine ⟨hm, h, ?_, fun hio => ?_, ?_, fun hp => ?_, fun hrom => ?_⟩
  · refine (((ea_keeps dst st).trans (memWrite8_keeps _ v _)).trans h).mono ?_
    intro p
    simp
    tauto
  · exact (((ea_keeps dst st).trans (memWrite8_keeps_plain v (by simpa using hio))).trans h).mono (by intro p; simp)
  · intro b hb
    have : b ≠ (ea dst st).1 := by simpa using hb 0 (by omega)
    rw [hr, memWrite8_read_other _ _ this]
    simp
  · rw [hr, memWrite8_read_plain] <;> simp [hp.1, hp.2]
  · rw [hr, memWrite8_rom _ (by simpa using hrom)]
    simp

/-- The same for a Word. -/
theorem storesWord_of {dst : MemOp} {v : Word} {st t : State}
    (h : KeepsExcept [.cc] (memWrite16 (ea dst st).1 v (ea dst st).2) t)
    (hm : t.mem = (memWrite16 (ea dst st).1 v (ea dst st).2).mem) : StoresWord dst v st t := by
  have hr : ∀ b, memRead8 b t = memRead8 b (memWrite16 (ea dst st).1 v (ea dst st).2) := fun b => by
    unfold memRead8; rw [hm]
  refine ⟨hm, h, ?_, fun hio hio' => ?_, ?_, fun hp => ?_, fun hp => ?_⟩
  · refine ((((ea_keeps dst st).trans (memWrite8_keeps _ _ _)).trans (memWrite8_keeps _ _ _)).trans h).mono ?_
    intro p
    simp
    tauto
  · exact ((((ea_keeps dst st).trans (memWrite8_keeps_plain _ (by simpa using hio))).trans
      (memWrite8_keeps_plain _ (by simpa using hio'))).trans h).mono (by intro p; simp)
  · intro b hb
    have h0 : b ≠ (ea dst st).1 := by simpa using hb 0 (by omega)
    have h1 : b ≠ (ea dst st).1 + 1 := by simpa using hb 1 (by omega)
    rw [hr, memWrite16, memWrite8_read_other _ _ h1, memWrite8_read_other _ _ h0]
    simp
  · rw [hr, memWrite16, memWrite8_read_other _ _ (ne_succ _), memWrite8_read_plain] <;> simp [hp.1, hp.2]
  · rw [hr, memWrite16, memWrite8_read_plain]
    · simpa using hp.1
    · simpa using hp.2

end Sys2Proof.Machine
end

