-- ==== Sys2Proof/Laws/Stack.lean ====
section
/-! SUPPORT. What pushes, frames and pulls do, said once: a push sequence is the list of its bytes pushed one after the other, highest
address first; a pull sequence reads and never writes memory. -/

namespace Sys2Proof.Machine

/-! ## Pushes -/

/-- `PushRegs` (R347) is the list of the stacked bytes, the last of them pushed first. -/
theorem pushRegs_eq (r : StackReg) (mask : Byte) (st : State) :
    pushRegs r mask st = pushList r (stackedBytes r mask st).reverse st := by
  have e8 (k : Nat) (f : State → Byte) (st : State) : onBit mask k (fun s' => push8 r (f s') s') st =
      pushList r (if mask.getLsbD k then [f st] else []) st := by unfold onBit; split <;> rfl
  have e16 (k : Nat) (f : State → Word) (st : State) : onBit mask k (fun s' => push16 r (f s') s') st =
      pushList r (if mask.getLsbD k then [loByte (f st), hiByte (f st)] else []) st := by unfold onBit; split <;> rfl
  have rv (c : Bool) (l : List Byte) : (if c = true then l else []).reverse = if c = true then l.reverse else [] := by
    cases c <;> rfl
  simp only [pushRegs, e8, e16, stackedBytes, List.reverse_append, rv, pushList_append, pushList_y, pushList_x, pushList_dp,
    pushList_b, pushList_a, pushList_cc, pushList_sp_other, List.reverse_cons, List.reverse_nil, List.nil_append,
    List.singleton_append]

/-- The stacking of an entry (R426 to R428, R430) is the list of the frame's bytes, the last of them pushed first. -/
theorem stackFrame_eq (entire : Bool) (st : State) :
    stackFrame entire st = pushList .s (frameBytes entire st.cc st).reverse st := by
  have sp_u' (l : List Byte) (st : State) : (pushList .s l st).u = st.u := pushList_sp_other .s l st
  cases entire
  · simp [stackFrame, frameBytes, push16_eq]
  · simp only [stackFrame, pushEntire, frameBytes, push16_eq, pushList_y, pushList_x, pushList_dp, pushList_b, pushList_a,
      pushList_cc, sp_u', push8_b, push8_a, push8_cc, if_true]
    rfl

theorem stackedBytes_length (r : StackReg) (mask : Byte) (st : State) :
    (stackedBytes r mask st).length = maskBytes mask := by
  have on (c : Bool) (l : List Byte) : (if c = true then l else []).length = if c = true then l.length else 0 := by
    cases c <;> rfl
  simp only [stackedBytes, maskBytes, List.length_append, on, List.length_cons, List.length_nil, Nat.zero_add, Nat.reduceAdd]
  ac_rfl

theorem maskBytes_le (mask : Byte) : maskBytes mask ≤ 12 := by revert mask; decide

/-- A list of bytes pushed highest address first is stacked. -/
theorem stacked_pushList (r : StackReg) (l : List Byte) (st : State) (h : l.length ≤ 65536) :
    Stacked r l st (pushList r l.reverse st) := by
  have hs : (pushList r l.reverse st).sp r = st.sp r - BitVec.ofNat 16 l.length := by
    rw [pushList_sp, List.length_reverse]
  have at_ (j : Nat) (hj : j < l.length) : st.sp r - BitVec.ofNat 16 l.length + BitVec.ofNat 16 j =
      st.sp r - 1 - BitVec.ofNat 16 (l.length - 1 - j) := by
    obtain ⟨m, hm⟩ : ∃ m, l.length = 1 + m + j := ⟨l.length - 1 - j, by omega⟩
    have h1 : l.length - 1 - j = m := by omega
    rw [h1, hm, BitVec.ofNat_add, BitVec.ofNat_add, ← sub_sub, sub_add_cancel, ← sub_sub]
    rfl
  refine ⟨hs, fun j hj hp => ?_, fun b hb => ?_⟩
  · rw [hs, at_ j hj] at hp ⊢
    rw [pushList_read (by simpa using h) (by rw [List.length_reverse]; omega) hp, List.getElem_reverse]
    simp only [show l.length - 1 - (l.length - 1 - j) = j by omega]
  · apply pushList_read_other
    intro k hk e
    rw [List.length_reverse] at hk
    refine hb (l.length - 1 - k) (by omega) ?_
    rw [e, hs, at_ _ (by omega), show l.length - 1 - (l.length - 1 - k) = k by omega]

/-- A push moves its stack pointer, memory and the handler port, nothing else. -/
theorem pushList_keeps (r : StackReg) (l : List Byte) (st : State) : KeepsExcept (spPart r :: portParts) st (pushList r l st) := by
  have ho := pushList_sp_other r l st
  intro p hp
  cases p with
  | firqLine | irqLine | ioCalls | freeIndex => exact absurd (by simp [portParts]) hp
  | s => cases r with
    | s => exact absurd (by simp [spPart]) hp
    | u => exact ho
  | u => cases r with
    | s => exact ho
    | u => exact absurd (by simp [spPart]) hp
  | _ => simp [Same]

/-- A push into cells that are not I/O leaves the handler port alone. -/
theorem pushList_port {r : StackReg} {l : List Byte} {st : State} (h : NoIoBelow r l.length st) :
    (pushList r l st).firqLine = st.firqLine ∧ (pushList r l st).irqLine = st.irqLine ∧
      (pushList r l st).ioCalls = st.ioCalls ∧ (pushList r l st).freeIndex = st.freeIndex := by
  induction l generalizing st with
  | nil => exact ⟨rfl, rfl, rfl, rfl⟩
  | cons v l ih =>
    have h0 : (st.attr (st.sp r - 1)).isIo = false := by simpa using h 0 (by simp)
    have h1 : NoIoBelow r l.length (push8 r v st) := by
      intro j hj
      have := h (j + 1) (by simpa using hj)
      rw [push8_sp, push8_attr]
      rwa [Nat.add_comm, BitVec.ofNat_add, ← sub_sub] at this
    have h2 := ih h1
    have h3 : (push8 r v st).firqLine = st.firqLine ∧ (push8 r v st).irqLine = st.irqLine ∧
        (push8 r v st).ioCalls = st.ioCalls ∧ (push8 r v st).freeIndex = st.freeIndex := by
      have := memWrite8_port (k := st.sp r - 1) (st := st.setSp r (st.sp r - 1)) v (by cases r <;> simpa using h0)
      cases r <;> simpa [push8] using this
    rw [pushList_cons, h2.1, h2.2.1, h2.2.2.1, h2.2.2.2]
    exact h3

theorem pushList_keeps_plain {r : StackReg} {l : List Byte} {st : State} (h : NoIoBelow r l.length st) :
    KeepsExcept [spPart r] st (pushList r l st) := by
  intro p hp
  have hk := pushList_keeps r l st p
  have := pushList_port h
  cases p <;> first
    | exact hk (by simpa [portParts] using hp)
    | exact this.1
    | exact this.2.1
    | exact this.2.2.1
    | exact this.2.2.2

/-! ## Pulls read and never write memory -/

@[simp] theorem pull8_mem (r : StackReg) (st : State) : (pull8 r st).2.mem = st.mem := by cases r <;> rfl
@[simp] theorem pull16_mem (r : StackReg) (st : State) : (pull16 r st).2.mem = st.mem := by cases r <;> rfl

theorem pullRegs_mem (r : StackReg) (mask : Byte) (st : State) : (pullRegs r mask st).mem = st.mem := by
  have e (k : Nat) (f : State → State) (hf : ∀ st, (f st).mem = st.mem) (st : State) : (onBit mask k f st).mem = st.mem := by
    unfold onBit; split
    · exact hf st
    · rfl
  simp only [pullRegs]
  rw [e, e, e, e, e, e, e, e] <;> intro st <;> cases r <;> rfl

end Sys2Proof.Machine
end

