-- ==== Sys2Proof/Laws/Evolves.lean ====
section
/-! SUPPORT. What an instruction, an entry and a step can do to the parts of the state that no single instruction is about: the setup of
the memory, the data of ROM cells, the exchanges at the handler port, the lines, the NMI arming. -/

namespace Sys2Proof.Machine

/-- An exchange that a write of the CPU can cause (R67, R69). -/
def LegalCall (st : State) (c : Config.IoCall) : Prop :=
  c.operation = .write ∧ (st.attr c.address).isIo = true ∧ (st.attr c.address).isRom = false ∧
    c.handler = st.handler (st.attr c.address).ioIndex

/-- What happens to those parts between two states of one step. -/
structure Evolves (st t : State) : Prop where
  attrs : t.attrs = st.attrs
  ioTable : t.ioTable = st.ioTable
  params : t.params = st.params
  nmiLatch : t.nmiLatch = st.nmiLatch
  lastPc : t.lastPc = st.lastPc
  lastLen : t.lastLen = st.lastLen
  wf : Memory.wf st.mem = true → Memory.wf t.mem = true
  rom : ∀ k : Word, (st.attr k).isRom = true → memRead8 k t = memRead8 k st
  calls : ∃ new, t.ioCalls = new ++ st.ioCalls ∧ ∀ c ∈ new, LegalCall st c
  lines : t.ioCalls = st.ioCalls → t.firqLine = st.firqLine ∧ t.irqLine = st.irqLine
  armed : st.nmiArmed = true → t.nmiArmed = true
  arming : t.nmiArmed = true → st.nmiArmed = true ∨ st.params.nmiArmOnSLoad = true

/-- The parts an update of registers leaves alone. -/
def State.setup (st : State) : List Host.Cell × List (Nat × CellAttr) × List Config.Handler × Config.Params × Bool × Word × Byte ×
    List Config.IoCall × Bool × Bool :=
  (st.mem, st.attrs, st.ioTable, st.params, st.nmiLatch, st.lastPc, st.lastLen, st.ioCalls, st.firqLine, st.irqLine)

theorem Evolves.quiet' {st t : State} (h : t.setup = st.setup)
    (ha : t.nmiArmed = (st.nmiArmed || st.params.nmiArmOnSLoad) ∨ t.nmiArmed = st.nmiArmed) : Evolves st t := by
  simp only [State.setup, Prod.mk.injEq] at h
  obtain ⟨h1, h2, h3, h4, h5, h6, h7, h8, h9, h10⟩ := h
  refine ⟨h2, h3, h4, h5, h6, h7, by rw [h1]; exact id, fun k _ => by rw [memRead8, h1]; rfl, ⟨[], h8, by simp⟩,
    fun _ => ⟨h9, h10⟩, fun e => ?_, fun e => ?_⟩
  · rcases ha with ha | ha <;> simp [ha, e]
  · rcases ha with ha | ha <;> rw [ha] at e
    · simpa using e
    · exact .inl e

/-- An update of registers. -/
theorem Evolves.quiet {st t : State} (h : t.setup = st.setup) (ha : t.nmiArmed = st.nmiArmed) : Evolves st t :=
  .quiet' h (.inr ha)

theorem Evolves.refl (st : State) : Evolves st st := .quiet rfl rfl

theorem Evolves.attr {st t : State} (h : Evolves st t) (k : Word) : t.attr k = st.attr k := by simp [State.attr, h.attrs]

theorem Evolves.handler {st t : State} (h : Evolves st t) (k : Byte) : t.handler k = st.handler k := by
  simp [State.handler, h.ioTable]

theorem Evolves.legal {st t : State} (h : Evolves st t) (c : Config.IoCall) : LegalCall t c ↔ LegalCall st c := by
  simp only [LegalCall, h.attr, h.handler]

theorem Evolves.trans {s1 s2 s3 : State} (h : Evolves s1 s2) (h' : Evolves s2 s3) : Evolves s1 s3 := by
  obtain ⟨n1, e1, l1⟩ := h.calls
  obtain ⟨n2, e2, l2⟩ := h'.calls
  refine ⟨h'.attrs.trans h.attrs, h'.ioTable.trans h.ioTable, h'.params.trans h.params, h'.nmiLatch.trans h.nmiLatch,
    h'.lastPc.trans h.lastPc, h'.lastLen.trans h.lastLen, h'.wf ∘ h.wf, fun k hk => ?_, ⟨n2 ++ n1, ?_, ?_⟩, fun e => ?_,
    h'.armed ∘ h.armed, fun e => ?_⟩
  · rw [h'.rom k (by rw [h.attr]; exact hk), h.rom k hk]
  · rw [e2, e1, List.append_assoc]
  · intro c hc
    rcases List.mem_append.1 hc with hc | hc
    · exact (h.legal c).1 (l2 c hc)
    · exact l1 c hc
  · rw [e2, e1, ← List.append_assoc] at e
    have e0 : n2 ++ n1 = [] := List.append_left_eq_self.1 e
    have hn := List.append_eq_nil_iff.1 e0
    have a := h.lines (by rw [e1, hn.2]; rfl)
    have b := h'.lines (by rw [e2, hn.1]; rfl)
    exact ⟨b.1.trans a.1, b.2.trans a.2⟩
  · rcases h'.arming e with e | e
    · exact h.arming e
    · rw [h.params] at e; exact .inr e

/-! ## The shared operations -/

theorem evolves_memWrite8 (k : Word) (v : Byte) (st : State) : Evolves st (memWrite8 k v st) := by
  refine ⟨memWrite8_attrs .., memWrite8_ioTable .., memWrite8_params .., memWrite8_nmiLatch .., memWrite8_lastPc ..,
    memWrite8_lastLen .., memWrite8_wf, fun b hb => memWrite8_read_rom v hb, ?_, fun h => ?_, by simp, by simp +contextual⟩
  · by_cases hr : (st.attr k).isRom = true
    · rw [memWrite8_rom v hr]
      exact ⟨[], rfl, by simp⟩
    · have hr : (st.attr k).isRom = false := by simpa using hr
      by_cases hi : (st.attr k).isIo = true
      · refine ⟨[⟨st.handler (st.attr k).ioIndex, k, v, .write⟩], ?_, ?_⟩
        · rw [memWrite8_io v hr hi]
          unfold callHandler
          split <;> simp [*]
        · intro c hc
          obtain rfl := List.mem_singleton.1 hc
          exact ⟨rfl, hi, hr, rfl⟩
      · exact ⟨[], (memWrite8_port v (by simpa using hi)).2.2.1, by simp⟩
  · by_cases hi : (st.attr k).isIo = true
    · by_cases hr : (st.attr k).isRom = true
      · rw [memWrite8_rom v hr]; exact ⟨rfl, rfl⟩
      · rw [memWrite8_io v (by simpa using hr) hi] at h
        unfold callHandler at h
        split at h <;> simp [State.storeByte] at h
    · have := memWrite8_port v (k := k) (st := st) (by simpa using hi)
      exact ⟨this.1, this.2.1⟩

theorem evolves_memWrite16 (k : Word) (v : Word) (st : State) : Evolves st (memWrite16 k v st) :=
  (evolves_memWrite8 ..).trans (evolves_memWrite8 ..)

theorem evolves_setA (v : Byte) (st : State) : Evolves st (st.setA v) := .quiet rfl rfl
theorem evolves_setB (v : Byte) (st : State) : Evolves st (st.setB v) := .quiet rfl rfl
theorem evolves_setDp (v : Byte) (st : State) : Evolves st (st.setDp v) := .quiet rfl rfl
theorem evolves_setCc (v : Byte) (st : State) : Evolves st (st.setCc v) := .quiet rfl rfl
theorem evolves_setX (v : Word) (st : State) : Evolves st (st.setX v) := .quiet rfl rfl
theorem evolves_setY (v : Word) (st : State) : Evolves st (st.setY v) := .quiet rfl rfl
theorem evolves_setU (v : Word) (st : State) : Evolves st (st.setU v) := .quiet rfl rfl
theorem evolves_setPc (v : Word) (st : State) : Evolves st (st.setPc v) := .quiet rfl rfl
theorem evolves_setD (v : Word) (st : State) : Evolves st (st.setD v) := .quiet rfl rfl
theorem evolves_setExecState (v : ExecState) (st : State) : Evolves st (st.setExecState v) := .quiet rfl rfl
theorem evolves_loadS (v : Word) (st : State) : Evolves st (st.loadS v) := .quiet' rfl (.inl rfl)
theorem evolves_setSp (r : StackReg) (v : Word) (st : State) : Evolves st (st.setSp r v) := by cases r <;> exact .quiet rfl rfl
theorem evolves_loadSp (r : StackReg) (v : Word) (st : State) : Evolves st (st.loadSp r v) := by
  cases r
  · exact evolves_loadS v st
  · exact .quiet rfl rfl
theorem evolves_setReg16 (r : Reg16) (v : Word) (st : State) : Evolves st (st.setReg16 r v) := by
  cases r with
  | s => exact evolves_loadS v st
  | _ => exact .quiet rfl rfl
theorem evolves_setReg8 (r : Reg8) (v : Byte) (st : State) : Evolves st (st.setReg8 r v) := by
  cases r <;> exact .quiet rfl rfl
theorem evolves_ea (m : MemOp) (st : State) : Evolves st (ea m st).2 := .quiet (by simp [State.setup]) (by simp)
theorem evolves_eaIdx (m : Indexed) (st : State) : Evolves st (eaIdx m st).2 := .quiet (by simp [State.setup]) (by simp)
theorem evolves_operand8 (m : Src8) (st : State) : Evolves st (operand8 m st).2 := .quiet (by simp [State.setup]) (by simp)
theorem evolves_operand16 (m : Src16) (st : State) : Evolves st (operand16 m st).2 := .quiet (by simp [State.setup]) (by simp)

theorem evolves_push8 (r : StackReg) (v : Byte) (st : State) : Evolves st (push8 r v st) :=
  (evolves_setSp ..).trans (evolves_memWrite8 ..)

theorem evolves_pushList (r : StackReg) (l : List Byte) (st : State) : Evolves st (pushList r l st) := by
  induction l generalizing st with
  | nil => exact .refl st
  | cons v l ih => exact (evolves_push8 r v st).trans (ih _)

theorem evolves_pushRegs (r : StackReg) (mask : Byte) (st : State) : Evolves st (pushRegs r mask st) := by
  rw [pushRegs_eq]; exact evolves_pushList ..

theorem evolves_pullInto8 {set : Byte → State → State} (hs : ∀ v st, Evolves st (set v st)) (r : StackReg) (st : State) :
    Evolves st (pullInto8 r set st) := (evolves_setSp r (st.sp r + 1) st).trans (hs _ _)

theorem evolves_pullInto16 {set : Word → State → State} (hs : ∀ v st, Evolves st (set v st)) (r : StackReg) (st : State) :
    Evolves st (pullInto16 r set st) := (evolves_setSp r (st.sp r + 2) st).trans (hs _ _)

theorem evolves_onBit {f : State → State} (hf : ∀ st, Evolves st (f st)) (mask : Byte) (k : Nat) (st : State) :
    Evolves st (onBit mask k f st) := by
  unfold onBit
  split
  · exact hf st
  · exact .refl st

theorem evolves_pullRegs (r : StackReg) (mask : Byte) (st : State) : Evolves st (pullRegs r mask st) :=
  (evolves_onBit (evolves_pullInto8 evolves_setCc r) mask 0 st).trans <|
  (evolves_onBit (evolves_pullInto8 evolves_setA r) mask 1 _).trans <|
  (evolves_onBit (evolves_pullInto8 evolves_setB r) mask 2 _).trans <|
  (evolves_onBit (evolves_pullInto8 evolves_setDp r) mask 3 _).trans <|
  (evolves_onBit (evolves_pullInto16 evolves_setX r) mask 4 _).trans <|
  (evolves_onBit (evolves_pullInto16 evolves_setY r) mask 5 _).trans <|
  (evolves_onBit (evolves_pullInto16 (evolves_loadSp r.other) r) mask 6 _).trans <|
  evolves_onBit (evolves_pullInto16 evolves_setPc r) mask 7 _

theorem evolves_stackFrame (entire : Bool) (st : State) : Evolves st (stackFrame entire st) := by
  rw [stackFrame_eq]; exact evolves_pushList ..

theorem evolves_waitEntry (cc : Byte) (e : ExecState) (st : State) :
    Evolves st ((stackFrame true (st.setCc cc)).setExecState e) :=
  ((evolves_setCc cc st).trans (evolves_stackFrame true (st.setCc cc))).trans
    (evolves_setExecState e (stackFrame true (st.setCc cc)))

theorem evolves_vectorTo (k : EntryKind) (st : State) : Evolves st (vectorTo k st) := .quiet rfl rfl

/-- Taking an interrupt. -/
theorem evolves_takeInterrupt (k : EntryKind) (st : State) : Evolves st (takeInterrupt k st) :=
  ((evolves_setCc ..).trans (evolves_stackFrame ..)).trans (evolves_vectorTo ..)

theorem evolves_returnFromInterrupt (st : State) : Evolves st (returnFromInterrupt st) := by
  have h := evolves_pullInto8 evolves_setCc .s st
  simp only [returnFromInterrupt]
  split
  · exact h.trans (evolves_pullRegs ..)
  · exact h.trans (evolves_pullInto16 evolves_setPc ..)

theorem evolves_transferTo (dst src : Reg) (old st : State) : Evolves st (transferTo dst src old st) := by
  unfold transferTo
  split
  · exact evolves_setReg16 ..
  · exact evolves_setReg8 ..
  · exact evolves_setReg8 ..
  · exact evolves_setReg16 ..

theorem evolves_branchTo (k : Cond) (target : Word) (st : State) : Evolves st (branchTo k target st) := by
  unfold branchTo
  split
  · exact evolves_setPc ..
  · exact .refl st

theorem evolves_callTo (target : Word) (st : State) : Evolves st (callTo target st) :=
  (evolves_pushList .s [loByte st.pc, hiByte st.pc] st).trans (evolves_setPc ..)

theorem evolves_load8 {set : Byte → State → State} (hs : ∀ v st, Evolves st (set v st)) (src : Src8) (st : State) :
    Evolves st (load8 set src st) := ((evolves_operand8 src st).trans (hs _ _)).trans (evolves_setCc ..)

theorem evolves_load16 {set : Word → State → State} (hs : ∀ v st, Evolves st (set v st)) (src : Src16) (st : State) :
    Evolves st (load16 set src st) := ((evolves_operand16 src st).trans (hs _ _)).trans (evolves_setCc ..)

theorem evolves_store8 (get : State → Byte) (dst : MemOp) (st : State) : Evolves st (store8 get dst st) :=
  ((evolves_ea dst st).trans (evolves_memWrite8 ..)).trans (evolves_setCc ..)

theorem evolves_store16 (get : State → Word) (dst : MemOp) (st : State) : Evolves st (store16 get dst st) :=
  ((evolves_ea dst st).trans (evolves_memWrite16 ..)).trans (evolves_setCc ..)

theorem evolves_leaIndex {set : Word → State → State} (hs : ∀ v st, Evolves st (set v st)) (mode : Indexed) (st : State) :
    Evolves st (leaIndex set mode st) := ((evolves_eaIdx mode st).trans (hs _ _)).trans (evolves_setCc ..)

theorem evolves_leaStack {set : Word → State → State} (hs : ∀ v st, Evolves st (set v st)) (mode : Indexed) (st : State) :
    Evolves st (leaStack set mode st) := (evolves_eaIdx mode st).trans (hs _ _)

theorem evolves_alu8 {get : State → Byte} {set : Byte → State → State} (hs : ∀ v st, Evolves st (set v st))
    (f fl : Byte → Byte → Byte → Byte) (src : Src8) (st : State) : Evolves st (alu8 get set f fl src st) :=
  ((evolves_operand8 src st).trans (hs _ _)).trans (evolves_setCc ..)

theorem evolves_test8 (get : State → Byte) (fl : Byte → Byte → Byte → Byte) (src : Src8) (st : State) :
    Evolves st (test8 get fl src st) := (evolves_operand8 src st).trans (evolves_setCc ..)

theorem evolves_aluD (f : Word → Word → Word) (fl : Word → Word → Byte → Byte) (src : Src16) (st : State) :
    Evolves st (aluD f fl src st) := ((evolves_operand16 src st).trans (evolves_setD ..)).trans (evolves_setCc ..)

theorem evolves_compare16 (get : State → Word) (src : Src16) (st : State) : Evolves st (compare16 get src st) :=
  (evolves_operand16 src st).trans (evolves_setCc ..)

theorem evolves_modifyMem (f fl : Byte → Byte → Byte) (dst : MemOp) (st : State) : Evolves st (modifyMem f fl dst st) :=
  ((evolves_ea dst st).trans (evolves_memWrite8 ..)).trans (evolves_setCc ..)

/-! ## Instructions and steps -/

/-- What any instruction can do to those parts of the state. -/
theorem exec_evolves {i : Instr} {st t : State} (h : exec i st = .next t) : Evolves st t := by
  cases i with
  | lda _ => obtain rfl := next_eq h; exact evolves_load8 evolves_setA ..
  | ldb _ => obtain rfl := next_eq h; exact evolves_load8 evolves_setB ..
  | ldd _ => obtain rfl := next_eq h; exact evolves_load16 evolves_setD ..
  | ldx _ => obtain rfl := next_eq h; exact evolves_load16 evolves_setX ..
  | ldy _ => obtain rfl := next_eq h; exact evolves_load16 evolves_setY ..
  | ldu _ => obtain rfl := next_eq h; exact evolves_load16 evolves_setU ..
  | lds _ => obtain rfl := next_eq h; exact evolves_load16 evolves_loadS ..
  | sta _ => obtain rfl := next_eq h; exact evolves_store8 ..
  | stb _ => obtain rfl := next_eq h; exact evolves_store8 ..
  | std _ => obtain rfl := next_eq h; exact evolves_store16 ..
  | stx _ => obtain rfl := next_eq h; exact evolves_store16 ..
  | sty _ => obtain rfl := next_eq h; exact evolves_store16 ..
  | stu _ => obtain rfl := next_eq h; exact evolves_store16 ..
  | sts _ => obtain rfl := next_eq h; exact evolves_store16 ..
  | leax _ => obtain rfl := next_eq h; exact evolves_leaIndex evolves_setX ..
  | leay _ => obtain rfl := next_eq h; exact evolves_leaIndex evolves_setY ..
  | leas _ => obtain rfl := next_eq h; exact evolves_leaStack evolves_loadS ..
  | leau _ => obtain rfl := next_eq h; exact evolves_leaStack evolves_setU ..
  | adda _ => obtain rfl := next_eq h; exact evolves_alu8 evolves_setA ..
  | addb _ => obtain rfl := next_eq h; exact evolves_alu8 evolves_setB ..
  | adca _ => obtain rfl := next_eq h; exact evolves_alu8 evolves_setA ..
  | adcb _ => obtain rfl := next_eq h; exact evolves_alu8 evolves_setB ..
  | addd _ => obtain rfl := next_eq h; exact evolves_aluD ..
  | suba _ => obtain rfl := next_eq h; exact evolves_alu8 evolves_setA ..
  | subb _ => obtain rfl := next_eq h; exact evolves_alu8 evolves_setB ..
  | sbca _ => obtain rfl := next_eq h; exact evolves_alu8 evolves_setA ..
  | sbcb _ => obtain rfl := next_eq h; exact evolves_alu8 evolves_setB ..
  | subd _ => obtain rfl := next_eq h; exact evolves_aluD ..
  | cmpa _ => obtain rfl := next_eq h; exact evolves_test8 ..
  | cmpb _ => obtain rfl := next_eq h; exact evolves_test8 ..
  | cmpd _ => obtain rfl := next_eq h; exact evolves_compare16 ..
  | cmpx _ => obtain rfl := next_eq h; exact evolves_compare16 ..
  | cmpy _ => obtain rfl := next_eq h; exact evolves_compare16 ..
  | cmpu _ => obtain rfl := next_eq h; exact evolves_compare16 ..
  | cmps _ => obtain rfl := next_eq h; exact evolves_compare16 ..
  | neg _ => obtain rfl := next_eq h; exact evolves_modifyMem ..
  | nega => obtain rfl := next_eq h; exact .quiet rfl rfl
  | negb => obtain rfl := next_eq h; exact .quiet rfl rfl
  | inc _ => obtain rfl := next_eq h; exact evolves_modifyMem ..
  | inca => obtain rfl := next_eq h; exact .quiet rfl rfl
  | incb => obtain rfl := next_eq h; exact .quiet rfl rfl
  | dec _ => obtain rfl := next_eq h; exact evolves_modifyMem ..
  | deca => obtain rfl := next_eq h; exact .quiet rfl rfl
  | decb => obtain rfl := next_eq h; exact .quiet rfl rfl
  | mul => obtain rfl := next_eq h; exact .quiet rfl rfl
  | daa => obtain rfl := next_eq h; exact .quiet rfl rfl
  | abx => obtain rfl := next_eq h; exact .quiet rfl rfl
  | sex => obtain rfl := next_eq h; exact .quiet rfl rfl
  | anda _ => obtain rfl := next_eq h; exact evolves_alu8 evolves_setA ..
  | andb _ => obtain rfl := next_eq h; exact evolves_alu8 evolves_setB ..
  | ora _ => obtain rfl := next_eq h; exact evolves_alu8 evolves_setA ..
  | orb _ => obtain rfl := next_eq h; exact evolves_alu8 evolves_setB ..
  | eora _ => obtain rfl := next_eq h; exact evolves_alu8 evolves_setA ..
  | eorb _ => obtain rfl := next_eq h; exact evolves_alu8 evolves_setB ..
  | bita _ => obtain rfl := next_eq h; exact evolves_test8 ..
  | bitb _ => obtain rfl := next_eq h; exact evolves_test8 ..
  | andcc _ => obtain rfl := next_eq h; exact .quiet rfl rfl
  | orcc _ => obtain rfl := next_eq h; exact .quiet rfl rfl
  | com _ => obtain rfl := next_eq h; exact evolves_modifyMem ..
  | coma => obtain rfl := next_eq h; exact .quiet rfl rfl
  | comb => obtain rfl := next_eq h; exact .quiet rfl rfl
  | clr _ => obtain rfl := next_eq h; exact ((evolves_ea ..).trans (evolves_memWrite8 ..)).trans (evolves_setCc ..)
  | clra => obtain rfl := next_eq h; exact .quiet rfl rfl
  | clrb => obtain rfl := next_eq h; exact .quiet rfl rfl
  | tst _ => obtain rfl := next_eq h; exact (evolves_ea ..).trans (evolves_setCc ..)
  | tsta => obtain rfl := next_eq h; exact .quiet rfl rfl
  | tstb => obtain rfl := next_eq h; exact .quiet rfl rfl
  | asl _ => obtain rfl := next_eq h; exact evolves_modifyMem ..
  | asla => obtain rfl := next_eq h; exact .quiet rfl rfl
  | aslb => obtain rfl := next_eq h; exact .quiet rfl rfl
  | asr _ => obtain rfl := next_eq h; exact evolves_modifyMem ..
  | asra => obtain rfl := next_eq h; exact .quiet rfl rfl
  | asrb => obtain rfl := next_eq h; exact .quiet rfl rfl
  | lsr _ => obtain rfl := next_eq h; exact evolves_modifyMem ..
  | lsra => obtain rfl := next_eq h; exact .quiet rfl rfl
  | lsrb => obtain rfl := next_eq h; exact .quiet rfl rfl
  | rol _ => obtain rfl := next_eq h; exact evolves_modifyMem ..
  | rola => obtain rfl := next_eq h; exact .quiet rfl rfl
  | rolb => obtain rfl := next_eq h; exact .quiet rfl rfl
  | ror _ => obtain rfl := next_eq h; exact evolves_modifyMem ..
  | rora => obtain rfl := next_eq h; exact .quiet rfl rfl
  | rorb => obtain rfl := next_eq h; exact .quiet rfl rfl
  | tfr _ _ => obtain rfl := next_eq h; exact evolves_transferTo ..
  | exg _ _ => obtain rfl := next_eq h; exact (evolves_transferTo ..).trans (evolves_transferTo ..)
  | pshs _ => obtain rfl := next_eq h; exact evolves_pushRegs ..
  | puls _ => obtain rfl := next_eq h; exact evolves_pullRegs ..
  | pshu _ => obtain rfl := next_eq h; exact evolves_pushRegs ..
  | pulu _ => obtain rfl := next_eq h; exact evolves_pullRegs ..
  | bra _ => obtain rfl := next_eq h; exact evolves_branchTo ..
  | brn _ => obtain rfl := next_eq h; exact .refl _
  | bhi _ => obtain rfl := next_eq h; exact evolves_branchTo ..
  | bls _ => obtain rfl := next_eq h; exact evolves_branchTo ..
  | bcc _ => obtain rfl := next_eq h; exact evolves_branchTo ..
  | bcs _ => obtain rfl := next_eq h; exact evolves_branchTo ..
  | bne _ => obtain rfl := next_eq h; exact evolves_branchTo ..
  | beq _ => obtain rfl := next_eq h; exact evolves_branchTo ..
  | bvc _ => obtain rfl := next_eq h; exact evolves_branchTo ..
  | bvs _ => obtain rfl := next_eq h; exact evolves_branchTo ..
  | bpl _ => obtain rfl := next_eq h; exact evolves_branchTo ..
  | bmi _ => obtain rfl := next_eq h; exact evolves_branchTo ..
  | bge _ => obtain rfl := next_eq h; exact evolves_branchTo ..
  | blt _ => obtain rfl := next_eq h; exact evolves_branchTo ..
  | bgt _ => obtain rfl := next_eq h; exact evolves_branchTo ..
  | ble _ => obtain rfl := next_eq h; exact evolves_branchTo ..
  | lbra _ => obtain rfl := next_eq h; exact evolves_branchTo ..
  | lbrn _ => obtain rfl := next_eq h; exact .refl _
  | lbhi _ => obtain rfl := next_eq h; exact evolves_branchTo ..
  | lbls _ => obtain rfl := next_eq h; exact evolves_branchTo ..
  | lbcc _ => obtain rfl := next_eq h; exact evolves_branchTo ..
  | lbcs _ => obtain rfl := next_eq h; exact evolves_branchTo ..
  | lbne _ => obtain rfl := next_eq h; exact evolves_branchTo ..
  | lbeq _ => obtain rfl := next_eq h; exact evolves_branchTo ..
  | lbvc _ => obtain rfl := next_eq h; exact evolves_branchTo ..
  | lbvs _ => obtain rfl := next_eq h; exact evolves_branchTo ..
  | lbpl _ => obtain rfl := next_eq h; exact evolves_branchTo ..
  | lbmi _ => obtain rfl := next_eq h; exact evolves_branchTo ..
  | lbge _ => obtain rfl := next_eq h; exact evolves_branchTo ..
  | lblt _ => obtain rfl := next_eq h; exact evolves_branchTo ..
  | lbgt _ => obtain rfl := next_eq h; exact evolves_branchTo ..
  | lble _ => obtain rfl := next_eq h; exact evolves_branchTo ..
  | bsr _ => obtain rfl := next_eq h; exact evolves_callTo ..
  | lbsr _ => obtain rfl := next_eq h; exact evolves_callTo ..
  | jmp _ => obtain rfl := next_eq h; exact (evolves_ea ..).trans (evolves_setPc ..)
  | jsr _ => obtain rfl := next_eq h; exact (evolves_ea ..).trans (evolves_callTo ..)
  | rts => obtain rfl := next_eq h; exact evolves_pullInto16 evolves_setPc ..
  | nop => obtain rfl := next_eq h; exact .quiet rfl rfl
  | swi => obtain rfl := next_eq h; exact evolves_takeInterrupt ..
  | swi2 => obtain rfl := next_eq h; exact evolves_takeInterrupt ..
  | swi3 => obtain rfl := next_eq h; exact evolves_takeInterrupt ..
  | rti => obtain rfl := next_eq h; exact evolves_returnFromInterrupt ..
  | cwai _ => obtain rfl := next_eq h; exact evolves_waitEntry ..
  | sync => obtain rfl := next_eq h; exact .quiet rfl rfl

/-- What the acknowledge of an interrupt does to the latch: nothing else changes. -/
theorem acknowledge_eq (k : EntryKind) (st : State) : acknowledge k st = { st with nmiLatch := (acknowledge k st).nmiLatch } := by
  cases k <;> rfl

theorem acknowledge_latch (k : EntryKind) (st : State) : (acknowledge k st).nmiLatch = true → st.nmiLatch = true := by
  cases k <;> simp [acknowledge]

end Sys2Proof.Machine
end

