-- ==== Sys2Proof/Laws/PerInstr.lean ====
section
/-! SUPPORT. Statements about every instruction as syntax, one lemma per constructor. -/

namespace Sys2Proof.Laws

/-- The encoding of an instruction is one to five bytes long (R100, R121). -/
def EncodeLength.Statement (i : Instr) : Prop := 1 ≤ (encode i).length ∧ (encode i).length ≤ 5

namespace EncodeLength

/-- One or two opcode bytes before an 8-bit operand. -/
theorem src8 (base : Byte) (src : Src8) : 1 ≤ (encodeSrc8 base src).length ∧ (encodeSrc8 base src).length ≤ 5 := by
  have := encodeSrc8_length base src
  omega

theorem src16 (base : Byte) (src : Src16) : 1 ≤ (encodeSrc16 base src).length ∧ (encodeSrc16 base src).length ≤ 5 := by
  have := encodeSrc16_length base src
  omega

theorem src16_page (page base : Byte) (src : Src16) :
    1 ≤ (page :: encodeSrc16 base src).length ∧ (page :: encodeSrc16 base src).length ≤ 5 := by
  have := encodeSrc16_length base src
  simp only [List.length_cons]
  omega

theorem mem (p q r : Byte) (m : MemOp) : 1 ≤ (encodeMem p q r m).length ∧ (encodeMem p q r m).length ≤ 5 := by
  have := encodeMem_length p q r m
  omega

theorem mem_page (page p q r : Byte) (m : MemOp) :
    1 ≤ (page :: encodeMem p q r m).length ∧ (page :: encodeMem p q r m).length ≤ 5 := by
  have := encodeMem_length p q r m
  simp only [List.length_cons]
  omega

theorem one (p : Byte) : 1 ≤ [p].length ∧ [p].length ≤ 5 := by simp

theorem two (p q : Byte) : 1 ≤ [p, q].length ∧ [p, q].length ≤ 5 := by simp

theorem word (p : Byte) (w : Word) : 1 ≤ (p :: wordBytes w).length ∧ (p :: wordBytes w).length ≤ 5 := by simp [wordBytes]

theorem word_page (p q : Byte) (w : Word) : 1 ≤ (p :: q :: wordBytes w).length ∧ (p :: q :: wordBytes w).length ≤ 5 := by
  simp [wordBytes]

theorem lea (op : Byte) (m : Indexed) : 1 ≤ (op :: encodeIndexed m).length ∧ (op :: encodeIndexed m).length ≤ 5 := by
  have := encodeIndexed_length m
  simp only [List.length_cons]
  omega

theorem lda (src : Src8) : Statement (.lda src) := src8 ..
theorem ldb (src : Src8) : Statement (.ldb src) := src8 ..
theorem ldd (src : Src16) : Statement (.ldd src) := src16 ..
theorem ldx (src : Src16) : Statement (.ldx src) := src16 ..
theorem ldy (src : Src16) : Statement (.ldy src) := src16_page ..
theorem ldu (src : Src16) : Statement (.ldu src) := src16 ..
theorem lds (src : Src16) : Statement (.lds src) := src16_page ..
theorem sta (dst : MemOp) : Statement (.sta dst) := mem ..
theorem stb (dst : MemOp) : Statement (.stb dst) := mem ..
theorem std (dst : MemOp) : Statement (.std dst) := mem ..
theorem stx (dst : MemOp) : Statement (.stx dst) := mem ..
theorem sty (dst : MemOp) : Statement (.sty dst) := mem_page ..
theorem stu (dst : MemOp) : Statement (.stu dst) := mem ..
theorem sts (dst : MemOp) : Statement (.sts dst) := mem_page ..
theorem leax (mode : Indexed) : Statement (.leax mode) := lea ..
theorem leay (mode : Indexed) : Statement (.leay mode) := lea ..
theorem leas (mode : Indexed) : Statement (.leas mode) := lea ..
theorem leau (mode : Indexed) : Statement (.leau mode) := lea ..
theorem adda (src : Src8) : Statement (.adda src) := src8 ..
theorem addb (src : Src8) : Statement (.addb src) := src8 ..
theorem adca (src : Src8) : Statement (.adca src) := src8 ..
theorem adcb (src : Src8) : Statement (.adcb src) := src8 ..
theorem addd (src : Src16) : Statement (.addd src) := src16 ..
theorem suba (src : Src8) : Statement (.suba src) := src8 ..
theorem subb (src : Src8) : Statement (.subb src) := src8 ..
theorem sbca (src : Src8) : Statement (.sbca src) := src8 ..
theorem sbcb (src : Src8) : Statement (.sbcb src) := src8 ..
theorem subd (src : Src16) : Statement (.subd src) := src16 ..
theorem cmpa (src : Src8) : Statement (.cmpa src) := src8 ..
theorem cmpb (src : Src8) : Statement (.cmpb src) := src8 ..
theorem cmpd (src : Src16) : Statement (.cmpd src) := src16_page ..
theorem cmpx (src : Src16) : Statement (.cmpx src) := src16 ..
theorem cmpy (src : Src16) : Statement (.cmpy src) := src16_page ..
theorem cmpu (src : Src16) : Statement (.cmpu src) := src16_page ..
theorem cmps (src : Src16) : Statement (.cmps src) := src16_page ..
theorem neg (dst : MemOp) : Statement (.neg dst) := mem ..
theorem nega : Statement (.nega) := one _
theorem negb : Statement (.negb) := one _
theorem inc (dst : MemOp) : Statement (.inc dst) := mem ..
theorem inca : Statement (.inca) := one _
theorem incb : Statement (.incb) := one _
theorem dec (dst : MemOp) : Statement (.dec dst) := mem ..
theorem deca : Statement (.deca) := one _
theorem decb : Statement (.decb) := one _
theorem mul : Statement (.mul) := one _
theorem daa : Statement (.daa) := one _
theorem abx : Statement (.abx) := one _
theorem sex : Statement (.sex) := one _
theorem anda (src : Src8) : Statement (.anda src) := src8 ..
theorem andb (src : Src8) : Statement (.andb src) := src8 ..
theorem ora (src : Src8) : Statement (.ora src) := src8 ..
theorem orb (src : Src8) : Statement (.orb src) := src8 ..
theorem eora (src : Src8) : Statement (.eora src) := src8 ..
theorem eorb (src : Src8) : Statement (.eorb src) := src8 ..
theorem bita (src : Src8) : Statement (.bita src) := src8 ..
theorem bitb (src : Src8) : Statement (.bitb src) := src8 ..
theorem andcc (mask : Byte) : Statement (.andcc mask) := two _ _
theorem orcc (mask : Byte) : Statement (.orcc mask) := two _ _
theorem com (dst : MemOp) : Statement (.com dst) := mem ..
theorem coma : Statement (.coma) := one _
theorem comb : Statement (.comb) := one _
theorem clr (dst : MemOp) : Statement (.clr dst) := mem ..
theorem clra : Statement (.clra) := one _
theorem clrb : Statement (.clrb) := one _
theorem tst (src : MemOp) : Statement (.tst src) := mem ..
theorem tsta : Statement (.tsta) := one _
theorem tstb : Statement (.tstb) := one _
theorem asl (dst : MemOp) : Statement (.asl dst) := mem ..
theorem asla : Statement (.asla) := one _
theorem aslb : Statement (.aslb) := one _
theorem asr (dst : MemOp) : Statement (.asr dst) := mem ..
theorem asra : Statement (.asra) := one _
theorem asrb : Statement (.asrb) := one _
theorem lsr (dst : MemOp) : Statement (.lsr dst) := mem ..
theorem lsra : Statement (.lsra) := one _
theorem lsrb : Statement (.lsrb) := one _
theorem rol (dst : MemOp) : Statement (.rol dst) := mem ..
theorem rola : Statement (.rola) := one _
theorem rolb : Statement (.rolb) := one _
theorem ror (dst : MemOp) : Statement (.ror dst) := mem ..
theorem rora : Statement (.rora) := one _
theorem rorb : Statement (.rorb) := one _
theorem tfr (src dst : Reg) : Statement (.tfr src dst) := two _ _
theorem exg (first second : Reg) : Statement (.exg first second) := two _ _
theorem pshs (mask : Byte) : Statement (.pshs mask) := two _ _
theorem puls (mask : Byte) : Statement (.puls mask) := two _ _
theorem pshu (mask : Byte) : Statement (.pshu mask) := two _ _
theorem pulu (mask : Byte) : Statement (.pulu mask) := two _ _
theorem bra (offset : Byte) : Statement (.bra offset) := two _ _
theorem brn (offset : Byte) : Statement (.brn offset) := two _ _
theorem bhi (offset : Byte) : Statement (.bhi offset) := two _ _
theorem bls (offset : Byte) : Statement (.bls offset) := two _ _
theorem bcc (offset : Byte) : Statement (.bcc offset) := two _ _
theorem bcs (offset : Byte) : Statement (.bcs offset) := two _ _
theorem bne (offset : Byte) : Statement (.bne offset) := two _ _
theorem beq (offset : Byte) : Statement (.beq offset) := two _ _
theorem bvc (offset : Byte) : Statement (.bvc offset) := two _ _
theorem bvs (offset : Byte) : Statement (.bvs offset) := two _ _
theorem bpl (offset : Byte) : Statement (.bpl offset) := two _ _
theorem bmi (offset : Byte) : Statement (.bmi offset) := two _ _
theorem bge (offset : Byte) : Statement (.bge offset) := two _ _
theorem blt (offset : Byte) : Statement (.blt offset) := two _ _
theorem bgt (offset : Byte) : Statement (.bgt offset) := two _ _
theorem ble (offset : Byte) : Statement (.ble offset) := two _ _
theorem lbra (offset : Word) : Statement (.lbra offset) := word _ _
theorem lbrn (offset : Word) : Statement (.lbrn offset) := word_page _ _ _
theorem lbhi (offset : Word) : Statement (.lbhi offset) := word_page _ _ _
theorem lbls (offset : Word) : Statement (.lbls offset) := word_page _ _ _
theorem lbcc (offset : Word) : Statement (.lbcc offset) := word_page _ _ _
theorem lbcs (offset : Word) : Statement (.lbcs offset) := word_page _ _ _
theorem lbne (offset : Word) : Statement (.lbne offset) := word_page _ _ _
theorem lbeq (offset : Word) : Statement (.lbeq offset) := word_page _ _ _
theorem lbvc (offset : Word) : Statement (.lbvc offset) := word_page _ _ _
theorem lbvs (offset : Word) : Statement (.lbvs offset) := word_page _ _ _
theorem lbpl (offset : Word) : Statement (.lbpl offset) := word_page _ _ _
theorem lbmi (offset : Word) : Statement (.lbmi offset) := word_page _ _ _
theorem lbge (offset : Word) : Statement (.lbge offset) := word_page _ _ _
theorem lblt (offset : Word) : Statement (.lblt offset) := word_page _ _ _
theorem lbgt (offset : Word) : Statement (.lbgt offset) := word_page _ _ _
theorem lble (offset : Word) : Statement (.lble offset) := word_page _ _ _
theorem bsr (offset : Byte) : Statement (.bsr offset) := two _ _
theorem lbsr (offset : Word) : Statement (.lbsr offset) := word _ _
theorem jmp (target : MemOp) : Statement (.jmp target) := mem ..
theorem jsr (target : MemOp) : Statement (.jsr target) := mem ..
theorem rts : Statement (.rts) := one _
theorem nop : Statement (.nop) := one _
theorem swi : Statement (.swi) := one _
theorem swi2 : Statement (.swi2) := two _ _
theorem swi3 : Statement (.swi3) := two _ _
theorem rti : Statement (.rti) := one _
theorem cwai (mask : Byte) : Statement (.cwai mask) := two _ _
theorem sync : Statement (.sync) := one _

end EncodeLength

end Sys2Proof.Laws
end

