-- ==== Sys2Proof/Laws/Step.lean ====
section
/-! SUPPORT. Everything a step that answers a next state can have done, said once (R420, R421). -/

namespace Sys2Proof.Machine

/-- A step that answers a next state is a reset exit, a look at a wait, an interrupt entry or an instruction. -/
theorem step_cases {st t : State} (h : step st = .next t) :
    (st.execState = .reset ∧ t = resetExit st) ∨ (st.execState = .cwaiWait ∧ t = cwaiWake st) ∨
    (st.execState = .syncWait ∧ t = syncWake st) ∨
    (st.execState = .running ∧ ∃ k, acceptable st = some k ∧ t = interruptEntry k st) ∨
    (st.execState = .running ∧ acceptable st = none ∧ ∃ i n u, decode (fetchStream st) = .ok (i, n) ∧
      exec i (advancePc n st) = .next u ∧ t = recordLast st.pc n u) := by
  unfold step at h
  split at h
  · cases h
  · rename_i e; exact .inl ⟨e, next_eq h⟩
  · rename_i e; exact .inr (.inl ⟨e, next_eq h⟩)
  · rename_i e; exact .inr (.inr (.inl ⟨e, next_eq h⟩))
  · rename_i e
    split at h
    · rename_i k hk; exact .inr (.inr (.inr (.inl ⟨e, k, hk, next_eq h⟩)))
    · rename_i hk
      refine .inr (.inr (.inr (.inr ⟨e, hk, ?_⟩)))
      unfold instructionStep at h
      split at h
      · rename_i i n hd
        unfold runDecoded at h
        split at h
        · rename_i u hu; exact ⟨i, n, u, hd, hu, next_eq h⟩
        · cases h
        · cases h
      · cases h

/-- What the acknowledge and the entry of an interrupt leave: as `Evolves` says, from the state with the latch acknowledged. -/
theorem evolves_interruptEntry (k : EntryKind) (st : State) : Evolves (acknowledge k st) (interruptEntry k st) :=
  evolves_takeInterrupt ..

theorem evolves_resetExit (st : State) : Evolves st (resetExit st) := .quiet rfl rfl

theorem evolves_syncWake (st : State) : Evolves st (syncWake st) := by
  unfold syncWake
  split
  · exact evolves_setExecState ..
  · exact .refl st

/-- What every step can do to the setup, the ROM, the handler port, the lines, the latch and the arming; the length it records is the
old one or that of a decoded instruction. -/
theorem step_evolves {st t : State} (h : step st = .next t) : ∃ st1 u, Evolves st1 u ∧
    st1 = { st with nmiLatch := st1.nmiLatch } ∧ (st1.nmiLatch = true → st.nmiLatch = true) ∧
    (t = u ∨ ∃ i n, decode (fetchStream st) = .ok (i, n) ∧ t = recordLast st.pc n u) := by
  rcases step_cases h with ⟨-, rfl⟩ | ⟨-, rfl⟩ | ⟨-, rfl⟩ | ⟨-, k, -, rfl⟩ | ⟨-, -, i, n, u, hd, hu, rfl⟩
  · exact ⟨st, _, evolves_resetExit st, rfl, id, .inl rfl⟩
  · unfold cwaiWake
    split
    · rename_i k _
      exact ⟨acknowledge k st, _, (evolves_vectorTo ..).trans (evolves_setExecState ..), acknowledge_eq k st,
        acknowledge_latch k st, .inl rfl⟩
    · exact ⟨st, _, .refl st, rfl, id, .inl rfl⟩
  · exact ⟨st, _, evolves_syncWake st, rfl, id, .inl rfl⟩
  · exact ⟨acknowledge k st, _, evolves_interruptEntry k st, acknowledge_eq k st, acknowledge_latch k st, .inl rfl⟩
  · exact ⟨st, u, (evolves_setPc ..).trans (exec_evolves hu), rfl, id, .inr ⟨i, n, hd, rfl⟩⟩

end Sys2Proof.Machine
end

