-- ==== Sys2Proof/Tests/Slice0.lean ====
section
/-! SUPPORT. The model's own tests. Every expected value is a row of spec/95_test_vectors.md or is worked out by hand from the rule named;
none was read off the model. The last part gives, for every statement with hypotheses, states and operands that meet them. -/

namespace Sys2Proof.Tests

open Sys2Proof.Machine

section Vectors

set_option Elab.async false

/-- The start of the rows of spec/95_test_vectors.md: RUNNING at 0x1000, every register 0. -/
def start : State := { State.reset with execState := .running, cc := 0, pc := 0x1000 }

/-- The start with bytes of memory. -/
def startMem (addr : Word) (bytes : List Byte) : State := placeBytes addr bytes start

/-- One step with the bytes at 0x1000; what is looked at in the state after. -/
def after {α : Type} (bytes : List Byte) (st : State) (look : State → α) : Option α :=
  match step (placeBytes 0x1000 bytes st) with
  | .next t => some (look t)
  | .fault _ | .refused _ => none

/-- The fault of one step with the bytes at 0x1000. -/
def faultOf (bytes : List Byte) (st : State) : Option Fault :=
  match step (placeBytes 0x1000 bytes st) with
  | .fault f => some f
  | .next _ | .refused _ => none

/-- `n` steps. -/
def steps : Nat → State → Option State
  | 0, st => some st
  | n + 1, st =>
    match step st with
    | .next t => steps n t
    | .fault _ | .refused _ => none

/-- What is looked at after an operation of a port. -/
def port {α : Type} (op : PortOp) (st : State) (look : State → α) : Option α := (applyPort op st).map look

/-! ## Well-formedness: each check refuses an ill-formed term -/

theorem test_wf_refuses_postInc_one_indirect : Instr.wf (.lda (.mem (.idx (.postInc .x .one true)))) = false := by decide
theorem test_wf_refuses_preDec_one_indirect : Instr.wf (.lda (.mem (.idx (.preDec .y .one true)))) = false := by decide
theorem test_wf_refuses_in_src16 : Instr.wf (.ldd (.mem (.idx (.postInc .u .one true)))) = false := by decide
theorem test_wf_refuses_in_destination : Instr.wf (.sta (.idx (.preDec .s .one true))) = false := by decide
theorem test_wf_refuses_in_lea : Instr.wf (.leax (.postInc .x .one true)) = false := by decide
theorem test_wf_accepts : Instr.wf (.ldd (.mem (.idx (.postInc .x .two true)))) = true := by decide

/-! ## Decoding: words written out from the encodings of the spec (R116, R117, R145, R340; section 2.1) -/

/-- The opcode 86 is LDA immediate: row 8, column 6, format bits 00. -/
theorem test_decode_lda_imm : decode (streamOf [0x86, 0x01]) = .ok (.lda (.imm 0x01), 2) := by decide
theorem test_decode_ldd_imm16 : decode (streamOf [0xCC, 0x12, 0x34]) = .ok (.ldd (.imm 0x1234), 3) := by decide
theorem test_decode_lda_dir : decode (streamOf [0x96, 0x10]) = .ok (.lda (.mem (.dir 0x10)), 2) := by decide
theorem test_decode_lda_ext : decode (streamOf [0xB6, 0x12, 0x34]) = .ok (.lda (.mem (.ext 0x1234)), 3) := by decide
/-- `1 00 0 0100`: X, not indirect, mmmm = 0100. -/
theorem test_decode_lda_idx : decode (streamOf [0xA6, 0b10000100]) = .ok (.lda (.mem (.idx (.zero .x false))), 2) := by decide
/-- `0 00 11111`: X, the 5-bit offset -1. -/
theorem test_decode_lda_off5 : decode (streamOf [0xA6, 0b00011111]) = .ok (.lda (.mem (.idx (.off5 .x 0b11111))), 2) := by decide
/-- `1 01 1 1000` and a byte: [n8,Y]. -/
theorem test_decode_off8_indirect :
    decode (streamOf [0xA6, 0b10111000, 0x7F]) = .ok (.lda (.mem (.idx (.off8 .y 0x7F true))), 3) := by decide
theorem test_decode_page2_five_bytes :
    decode (streamOf [0x10, 0xAE, 0x89, 0x00, 0x10]) = .ok (.ldy (.mem (.idx (.off16 .x 0x0010 false))), 5) := by decide
theorem test_decode_page3 :
    decode (streamOf [0x11, 0xA3, 0x89, 0x00, 0x10]) = .ok (.cmpu (.mem (.idx (.off16 .x 0x0010 false))), 5) := by decide
theorem test_decode_ext_indirect : decode (streamOf [0xA6, 0x9F, 0x20, 0x00]) = .ok (.lda (.mem (.idx (.extInd 0x2000))), 4) := by
  decide
/-- Register bits 11 of an auto-decrement by two, indirect: `1 11 1 0011` is [,--S]. -/
theorem test_decode_rol_predec : decode (streamOf [0x69, 0b11110011]) = .ok (.rol (.idx (.preDec .s .two true)), 2) := by decide
/-- The accumulator offsets: mmmm 0101 is B, 0110 is A, 1011 is D. -/
theorem test_decode_accumulators : decode (streamOf [0x30, 0b11000101]) = .ok (.leax (.accB .u false), 2) ∧
    decode (streamOf [0x31, 0b10000110]) = .ok (.leay (.accA .x false), 2) ∧
    decode (streamOf [0x32, 0b10011011]) = .ok (.leas (.accD .x true), 2) := by decide
/-- The ignored register field of PCR is kept: `1 01 0 1100` (R146). -/
theorem test_decode_pcr : decode (streamOf [0x33, 0b10101100, 0xFD]) = .ok (.leau (.pcr8 .y 0xFD false), 3) ∧
    decode (streamOf [0x33, 0b10001101, 0x10, 0x00]) = .ok (.leau (.pcr16 .x 0x1000 false), 4) := by decide
theorem test_decode_one_operand : decode (streamOf [0x00, 0x10]) = .ok (.neg (.dir 0x10), 2) ∧
    decode (streamOf [0x7F, 0x20, 0x00]) = .ok (.clr (.ext 0x2000), 3) ∧ decode (streamOf [0x4A]) = .ok (.deca, 1) ∧
    decode (streamOf [0x56]) = .ok (.rorb, 1) := by decide
theorem test_decode_transfer : decode (streamOf [0x1F, 0x89]) = .ok (.tfr (.r8 .a) (.r8 .b), 2) ∧
    decode (streamOf [0x1E, 0x15]) = .ok (.exg (.r16 .x) (.r16 .pc), 2) := by decide
theorem test_decode_stack : decode (streamOf [0x34, 0x16]) = .ok (.pshs 0x16, 2) ∧
    decode (streamOf [0x37, 0x40]) = .ok (.pulu 0x40, 2) := by decide
theorem test_decode_branches : decode (streamOf [0x2E, 0x05]) = .ok (.bgt 0x05, 2) ∧
    decode (streamOf [0x10, 0x2B, 0x00, 0x05]) = .ok (.lbmi 0x0005, 4) ∧
    decode (streamOf [0x16, 0x00, 0x00]) = .ok (.lbra 0x0000, 3) ∧ decode (streamOf [0x8D, 0x10]) = .ok (.bsr 0x10, 2) := by
  decide
theorem test_decode_system : decode (streamOf [0x12]) = .ok (.nop, 1) ∧ decode (streamOf [0x10, 0x3F]) = .ok (.swi2, 2) ∧
    decode (streamOf [0x3C, 0xEF]) = .ok (.cwai 0xEF, 2) ∧ decode (streamOf [0x3B]) = .ok (.rti, 1) := by decide
theorem test_encode_bytes : encode (.sty (.idx (.zero .u false))) = [0x10, 0xAF, 0xC4] ∧
    encode (.cmps (.imm 0x8000)) = [0x11, 0x8C, 0x80, 0x00] ∧ encode (.jsr (.idx (.zero .x true))) = [0xAD, 0x94] := by decide

/-! ## The words of the opcode table -/

/-- Row 0x1021 is the pair 0x10, 0x21; row 0x86 is one byte. -/
theorem test_table_words : decodeTableWord 16 0x1021 = some (.lbrn 0) ∧ decodeTableWord 8 0x86 = some (.lda (.imm 0)) ∧
    decodeTableWord 16 0x113F = some .swi3 := by decide
/-- A word placed where the next step fetches runs from the reset state (log 13). -/
theorem test_withFetchWord : (match step (State.reset.withFetchWord 8 0x8B) with
    | .next t => decide (t.pc = 2 ∧ t.cc = 0x54 ∧ t.lastLen = 2)
    | .fault _ | .refused _ => false) = true := by decide

/-! ## Illegal encodings (section 2.1) -/

theorem test_fault_page1 : faultOf [0x01, 0x00] start = some (.illegalOpcode 0x1000 .one 0x01) := by decide
theorem test_fault_store_immediate : faultOf [0x87, 0x00] start = some (.illegalOpcode 0x1000 .one 0x87) := by decide
theorem test_fault_second_prefix : faultOf [0x10, 0x10, 0x8E] start = some (.illegalOpcode 0x1000 .two 0x10) := by decide
theorem test_fault_page3 : faultOf [0x11, 0x8E, 0x00] start = some (.illegalOpcode 0x1000 .three 0x8E) := by decide
theorem test_fault_indirect_by_one : faultOf [0xA6, 0x90] start = some (.illegalPostbyte 0x1000 0x90) := by decide
theorem test_fault_ext_not_indirect : faultOf [0xA6, 0x8F, 0x20] start = some (.illegalPostbyte 0x1000 0x8F) := by decide
theorem test_fault_register_code : faultOf [0x1F, 0x68] start = some (.illegalPostbyte 0x1000 0x68) := by decide
/-- PC, A and S stay; `state` is FAULT and `last_pc` the instruction's address; every later step reports the same. -/
theorem test_fault_state : (let r := tick (placeBytes 0x1000 [0x01] { start with a := 0x11, s := 0x8000 })
    decide (r.1.pc = 0x1000 ∧ r.1.lastPc = 0x1000 ∧ r.1.a = 0x11 ∧ r.2 = some (.illegalOpcode 0x1000 .one 0x01) ∧
      tick r.1 = (r.1, some (.illegalOpcode 0x1000 .one 0x01)))) = true := by decide

/-! ## Addressing (section 2.2) -/

/-- The start of section 2.2. -/
def addressing : State :=
  placeBytes 0x2000 [0x60, 0x00] (placeBytes 0x6000 [0x99]
    { start with x := 0x2000, y := 0x3000, u := 0x4000, s := 0x5000, a := 0x80, b := 0x7F, dp := 0x21 })

theorem test_ea_offset5 : after [0x31, 0x10] addressing (fun t => (t.y, t.pc)) = some (0x1FF0, 0x1002) ∧
    after [0x31, 0x7F] addressing (fun t => t.y) = some 0x4FFF := by decide
theorem test_ea_offset8 : after [0x31, 0x88, 0x80] addressing (fun t => (t.y, t.pc)) = some (0x1F80, 0x1003) := by decide
theorem test_ea_offset16_wraps :
    after [0x31, 0x89, 0xE0, 0x00] addressing (fun t => (t.y, t.pc, t.cc)) = some (0x0000, 0x1004, 0x04) := by decide
theorem test_ea_accumulators : after [0x31, 0x86] addressing (fun t => t.y) = some 0x1F80 ∧
    after [0x31, 0x85] addressing (fun t => t.y) = some 0x207F ∧ after [0x31, 0x8B] addressing (fun t => t.y) = some 0xA07F := by
  decide
theorem test_ea_increment : after [0x31, 0x80] addressing (fun t => (t.x, t.y)) = some (0x2001, 0x2000) ∧
    after [0x31, 0x81] addressing (fun t => (t.x, t.y)) = some (0x2002, 0x2000) := by decide
theorem test_ea_decrement : after [0x31, 0x82] addressing (fun t => (t.x, t.y)) = some (0x1FFF, 0x1FFF) ∧
    after [0x31, 0x83] addressing (fun t => (t.x, t.y)) = some (0x1FFE, 0x1FFE) := by decide
/-- The base is the destination: Y takes the old Y. -/
theorem test_ea_base_is_destination : after [0x31, 0xA1] addressing (fun t => t.y) = some 0x3000 := by decide
theorem test_ea_pcr : after [0x31, 0x8C, 0xFD] addressing (fun t => t.y) = some 0x1000 ∧
    after [0x31, 0x8D, 0x10, 0x00] addressing (fun t => t.y) = some 0x2004 := by decide
theorem test_ea_indirect : after [0x31, 0x91] addressing (fun t => (t.x, t.y)) = some (0x2002, 0x6000) ∧
    after [0x31, 0x9F, 0x20, 0x00] addressing (fun t => t.y) = some 0x6000 ∧
    after [0x31, 0x9C, 0xFE] addressing (fun t => t.y) = some 0x9CFE := by decide

/-! ## Loads, stores, LEA (sections S5, 2.2, 2.3) -/

theorem test_lda : after [0x86, 0x00] { start with a := 0x55, cc := 0x0B } (fun t => (t.a, t.pc, t.cc)) =
    some (0x00, 0x1002, 0x05) := by decide
theorem test_lda_keeps_control_bits : after [0x86, 0x7F] { start with cc := 0xFF } (fun t => t.cc) = some 0xF1 := by decide
theorem test_ldb : after [0xC6, 0x00] { start with b := 0xFF, cc := 0x03 } (fun t => (t.b, t.cc)) = some (0x00, 0x05) := by decide
theorem test_ldd : after [0xCC, 0x00, 0x80] start (fun t => (t.a, t.b, t.cc)) = some (0x00, 0x80, 0x00) := by decide
theorem test_ldd_wraps : after [0xFC, 0xFF, 0xFF] (placeBytes 0xFFFF [0x12, 0x34] start) (fun t => t.d) = some 0x1234 := by decide
/-- The load overwrites the incremented X (D28). -/
theorem test_ldx : after [0xAE, 0x81] addressing (fun t => t.x) = some 0x6000 := by decide
theorem test_ldy : after [0x10, 0x8E, 0xFF, 0xFF] start (fun t => (t.y, t.pc, t.cc)) = some (0xFFFF, 0x1004, 0x08) := by decide
theorem test_ldu : after [0xFE, 0x20, 0x00] (startMem 0x2000 [0x12, 0x34]) (fun t => t.u) = some 0x1234 := by decide
theorem test_lds : after [0x10, 0xCE, 0x80, 0x00] start (fun t => (t.s, t.cc)) = some (0x8000, 0x08) := by decide
/-- R34: with the parameter true, LDS arms NMI. -/
theorem test_lds_arms : after [0x10, 0xCE, 0x80, 0x00] { start with params := { start.params with nmiArmOnSLoad := true } }
    (fun t => t.nmiArmed) = some true ∧ after [0x10, 0xCE, 0x80, 0x00] start (fun t => t.nmiArmed) = some false := by decide
theorem test_sta : after [0xB7, 0x20, 0x00] { start with a := 0x80, cc := 0x03 } (fun t => (memRead8 0x2000 t, t.cc, t.pc)) =
    some (0x80, 0x09, 0x1003) := by decide
theorem test_stb : after [0xD7, 0x10] { start with b := 0x00, dp := 0x20, cc := 0x08 } (fun t => (memRead8 0x2010 t, t.cc)) =
    some (0x00, 0x04) := by decide
theorem test_std : after [0xFD, 0x20, 0x00] { start with a := 0x12, b := 0x34 }
    (fun t => (memRead8 0x2000 t, memRead8 0x2001 t)) = some (0x12, 0x34) := by decide
theorem test_stx_wraps : after [0xBF, 0xFF, 0xFF] { start with x := 0xABCD } (fun t => (memRead8 0xFFFF t, memRead8 0 t, t.cc)) =
    some (0xAB, 0xCD, 0x08) := by decide
/-- The incremented X is stored (D28). -/
theorem test_stx_increment : after [0xAF, 0x81] addressing (fun t => (t.x, memRead16 0x2000 t)) = some (0x2002, 0x2002) := by
  decide
theorem test_sty : after [0x10, 0xAF, 0xC4] { start with y := 0x8001, u := 0x3000 } (fun t => memRead16 0x3000 t) = some 0x8001 := by
  decide
theorem test_stu : after [0xEF, 0xE3] { start with u := 0x1234, s := 0x8000 } (fun t => (t.s, memRead16 0x7FFE t)) =
    some (0x7FFE, 0x1234) := by decide
theorem test_sts : after [0x10, 0xFF, 0x20, 0x00] start (fun t => (t.cc, t.pc)) = some (0x04, 0x1004) := by decide
theorem test_leax : after [0x30, 0x1F] { start with x := 0x0001, cc := 0x0B } (fun t => (t.x, t.cc)) = some (0x0000, 0x0F) := by
  decide
theorem test_leay : after [0x31, 0xAB] { start with a := 0xFF, b := 0xFF, y := 0x0001 } (fun t => (t.y, t.cc)) =
    some (0x0000, 0x04) := by decide
theorem test_leas : after [0x32, 0x7E] { start with s := 0x0001, cc := 0x04 } (fun t => (t.s, t.cc)) = some (0xFFFF, 0x04) := by
  decide
theorem test_leau : after [0x33, 0xE4] { start with u := 0x1111, s := 0x0000 } (fun t => (t.u, t.cc)) = some (0x0000, 0x00) := by
  decide

/-! ## Arithmetic (section 2.4) -/

theorem test_adda : after [0x8B, 0x01] { start with a := 0x7F } (fun t => (t.a, t.cc)) = some (0x80, 0x2A) ∧
    after [0x8B, 0x80] { start with a := 0x80 } (fun t => (t.a, t.cc)) = some (0x00, 0x07) := by decide
theorem test_addb : after [0xCB, 0x01] { start with b := 0x0F } (fun t => (t.b, t.cc)) = some (0x10, 0x20) := by decide
theorem test_adca : after [0x89, 0xFF] { start with a := 0x00, cc := 0x01 } (fun t => (t.a, t.cc)) = some (0x00, 0x25) := by decide
theorem test_adcb : after [0xC9, 0x00] { start with b := 0x00 } (fun t => (t.b, t.cc)) = some (0x00, 0x04) := by decide
theorem test_addd : after [0xC3, 0x00, 0x01] { start with a := 0x00, b := 0xFF, cc := 0x20 } (fun t => (t.d, t.cc)) =
    some (0x0100, 0x20) := by decide
theorem test_suba : after [0x80, 0xFF] { start with a := 0x7F, cc := 0x20 } (fun t => (t.a, t.cc)) = some (0x80, 0x2B) := by decide
theorem test_subb : after [0xC0, 0x01] { start with b := 0x01 } (fun t => (t.b, t.cc)) = some (0x00, 0x04) := by decide
theorem test_sbca : after [0x82, 0x00] { start with a := 0x80, cc := 0x01 } (fun t => (t.a, t.cc)) = some (0x7F, 0x02) := by decide
theorem test_sbcb : after [0xC2, 0x01] { start with b := 0x02, cc := 0x01 } (fun t => (t.b, t.cc)) = some (0x00, 0x04) := by decide
theorem test_subd : after [0x83, 0x00, 0x01] { start with a := 0x80 } (fun t => (t.d, t.cc)) = some (0x7FFF, 0x02) := by decide
theorem test_cmpa : after [0x81, 0x80] { start with a := 0x7F } (fun t => (t.a, t.cc)) = some (0x7F, 0x0B) := by decide
theorem test_cmpb : after [0xC1, 0x05] { start with b := 0x05 } (fun t => (t.b, t.cc)) = some (0x05, 0x04) := by decide
theorem test_cmpd : after [0x10, 0x83, 0x12, 0x34] { start with a := 0x12, b := 0x34 } (fun t => (t.pc, t.cc)) =
    some (0x1004, 0x04) := by decide
theorem test_cmpx : after [0x8C, 0x20, 0x00] { start with x := 0x1FFF } (fun t => t.cc) = some 0x09 := by decide
theorem test_cmpy : after [0x10, 0x8C, 0x00, 0x00] { start with y := 0x8000 } (fun t => t.cc) = some 0x08 := by decide
theorem test_cmpu : after [0x11, 0x83, 0x40, 0x00] { start with u := 0x4000 } (fun t => t.cc) = some 0x04 := by decide
theorem test_cmps : after [0x11, 0x8C, 0x80, 0x00] { start with s := 0x7FFF } (fun t => t.cc) = some 0x0B := by decide
theorem test_neg : after [0x70, 0x20, 0x00] (startMem 0x2000 [0x01]) (fun t => (memRead8 0x2000 t, t.cc)) = some (0xFF, 0x09) := by
  decide
theorem test_nega : after [0x40] { start with a := 0x80 } (fun t => (t.a, t.cc)) = some (0x80, 0x0B) := by decide
theorem test_negb : after [0x50] { start with b := 0x80 } (fun t => (t.b, t.cc)) = some (0x80, 0x0B) := by decide
theorem test_inc : after [0x0C, 0x10] { startMem 0x2010 [0xFF] with dp := 0x20 } (fun t => (memRead8 0x2010 t, t.cc)) =
    some (0x00, 0x04) := by decide
theorem test_inca : after [0x4C] { start with a := 0x7F, cc := 0x01 } (fun t => (t.a, t.cc)) = some (0x80, 0x0B) := by decide
theorem test_incb : after [0x5C] { start with b := 0x7F } (fun t => (t.b, t.cc)) = some (0x80, 0x0A) := by decide
theorem test_dec : after [0x6A, 0x84] { startMem 0x2000 [0x80] with x := 0x2000 } (fun t => (memRead8 0x2000 t, t.cc)) =
    some (0x7F, 0x02) := by decide
theorem test_deca : after [0x4A] { start with a := 0x00, cc := 0x01 } (fun t => (t.a, t.cc)) = some (0xFF, 0x09) := by decide
theorem test_decb : after [0x5A] { start with b := 0x01 } (fun t => (t.b, t.cc)) = some (0x00, 0x04) := by decide
theorem test_mul : after [0x3D] { start with a := 0x0C, b := 0x64, cc := 0x0A } (fun t => (t.d, t.cc)) = some (0x04B0, 0x0B) ∧
    after [0x3D] { start with a := 0x00, b := 0x55, cc := 0x0A } (fun t => (t.d, t.cc)) = some (0x0000, 0x0E) := by decide
theorem test_daa : after [0x19] { start with a := 0x32, cc := 0x21 } (fun t => (t.a, t.pc)) = some (0x98, 0x1001) ∧
    after [0x19] { start with a := 0x9A } (fun t => t.a) = some 0x00 := by decide
/-- V is a free value, whatever it is (D11); the other flags are the rule's. -/
theorem test_daa_flags : ∀ v, ccDaa v 0x32 0x21 = (if v then 0x2B else 0x29) ∧ ccDaa v 0x9A 0x00 = (if v then 0x07 else 0x05) := by
  decide
theorem test_abx : after [0x3A] { start with b := 0xFF, x := 0xFFFF } (fun t => (t.x, t.cc)) = some (0x00FE, 0x00) := by decide
theorem test_sex : after [0x1D] { start with a := 0x55, b := 0x7F, cc := 0x0F } (fun t => (t.a, t.cc)) = some (0x00, 0x03) ∧
    after [0x1D] { start with b := 0xFF } (fun t => (t.a, t.cc)) = some (0xFF, 0x08) := by decide

/-! ## Logic and shifts (section 2.5) -/

theorem test_anda : after [0x84, 0x0F] { start with a := 0xF0, cc := 0x03 } (fun t => (t.a, t.cc)) = some (0x00, 0x05) := by decide
theorem test_andb : after [0xC4, 0x80] { start with b := 0xFF } (fun t => (t.b, t.cc)) = some (0x80, 0x08) := by decide
theorem test_ora : after [0x8A, 0x80] { start with a := 0x01, cc := 0x02 } (fun t => (t.a, t.cc)) = some (0x81, 0x08) := by decide
theorem test_orb : after [0xCA, 0x00] start (fun t => (t.b, t.cc)) = some (0x00, 0x04) := by decide
theorem test_eora : after [0x88, 0xFF] { start with a := 0xFF } (fun t => (t.a, t.cc)) = some (0x00, 0x04) := by decide
theorem test_eorb : after [0xC8, 0xFF] { start with b := 0x0F } (fun t => (t.b, t.cc)) = some (0xF0, 0x08) := by decide
theorem test_bita : after [0x85, 0x80] { start with a := 0x80, cc := 0x02 } (fun t => (t.a, t.cc)) = some (0x80, 0x08) := by decide
theorem test_bitb : after [0xC5, 0x01] { start with b := 0xFE } (fun t => (t.b, t.cc)) = some (0xFE, 0x04) := by decide
theorem test_andcc : after [0x1C, 0xAF] { start with cc := 0xFF } (fun t => t.cc) = some 0xAF := by decide
theorem test_orcc : after [0x1A, 0x01] { start with cc := 0x80 } (fun t => t.cc) = some 0x81 := by decide
theorem test_com : after [0x73, 0x20, 0x00] (startMem 0x2000 [0x55]) (fun t => (memRead8 0x2000 t, t.cc)) = some (0xAA, 0x09) := by
  decide
theorem test_coma : after [0x43] { start with a := 0x00, cc := 0x02 } (fun t => (t.a, t.cc)) = some (0xFF, 0x09) := by decide
theorem test_comb : after [0x53] { start with b := 0xFF } (fun t => (t.b, t.cc)) = some (0x00, 0x05) := by decide
theorem test_clr : after [0x7F, 0x20, 0x00] (startMem 0x2000 [0x55]) (fun t => (memRead8 0x2000 t, t.cc, t.mem)) =
    some (0x00, 0x04, [(0x1000, 0x7F), (0x1001, 0x20)]) := by decide
theorem test_clra : after [0x4F] { start with a := 0x55, cc := 0xFB } (fun t => (t.a, t.cc)) = some (0x00, 0xF4) := by decide
theorem test_clrb : after [0x5F] { start with b := 0x55 } (fun t => (t.b, t.cc)) = some (0x00, 0x04) := by decide
theorem test_tst : after [0x7D, 0x20, 0x00] (startMem 0x2000 [0x7F]) (fun t => (memRead8 0x2000 t, t.cc)) = some (0x7F, 0x00) := by
  decide
theorem test_tsta : after [0x4D] { start with a := 0x80, cc := 0x03 } (fun t => t.cc) = some 0x09 := by decide
theorem test_tstb : after [0x5D] start (fun t => t.cc) = some 0x04 := by decide
theorem test_asl : after [0x78, 0x20, 0x00] (startMem 0x2000 [0x55]) (fun t => (memRead8 0x2000 t, t.cc)) = some (0xAA, 0x0A) := by
  decide
theorem test_asla : after [0x48] { start with a := 0xC0 } (fun t => (t.a, t.cc)) = some (0x80, 0x09) := by decide
theorem test_aslb : after [0x58] { start with b := 0x81 } (fun t => (t.b, t.cc)) = some (0x02, 0x03) := by decide
/-- Bit 7 is kept, bit 0 leaves through C, V is kept (R303). -/
theorem test_asr : after [0x77, 0x20, 0x00] { startMem 0x2000 [0x81] with cc := 0x02 } (fun t => (memRead8 0x2000 t, t.cc)) =
    some (0xC0, 0x0B) := by decide
theorem test_asra : after [0x47] { start with a := 0x81, cc := 0x02 } (fun t => (t.a, t.cc)) = some (0xC0, 0x0B) := by decide
theorem test_asrb : after [0x57] { start with b := 0xFF } (fun t => (t.b, t.cc)) = some (0xFF, 0x09) := by decide
theorem test_lsr : after [0x64, 0x84] { startMem 0x2000 [0x02] with x := 0x2000 } (fun t => (memRead8 0x2000 t, t.cc)) =
    some (0x01, 0x00) := by decide
theorem test_lsra : after [0x44] { start with a := 0x01, cc := 0x0A } (fun t => (t.a, t.cc)) = some (0x00, 0x07) := by decide
theorem test_lsrb : after [0x54] { start with b := 0x03 } (fun t => (t.b, t.cc)) = some (0x01, 0x01) := by decide
/-- The old C enters bit 0, bit 7 leaves through C (R309). -/
theorem test_rol : after [0x79, 0x20, 0x00] { startMem 0x2000 [0x80] with cc := 0x01 } (fun t => (memRead8 0x2000 t, t.cc)) =
    some (0x01, 0x03) := by decide
theorem test_rola : after [0x49] { start with a := 0x80, cc := 0x01 } (fun t => (t.a, t.cc)) = some (0x01, 0x03) := by decide
theorem test_rolb : after [0x59] { start with b := 0x7F, cc := 0x01 } (fun t => (t.b, t.cc)) = some (0xFF, 0x0A) := by decide
theorem test_ror : after [0x76, 0x20, 0x00] { startMem 0x2000 [0x01] with cc := 0x01 } (fun t => (memRead8 0x2000 t, t.cc)) =
    some (0x80, 0x09) := by decide
theorem test_rora : after [0x46] { start with a := 0x80, cc := 0x02 } (fun t => (t.a, t.cc)) = some (0x40, 0x02) := by decide
theorem test_rorb : after [0x56] { start with b := 0x02, cc := 0x01 } (fun t => (t.b, t.cc)) = some (0x81, 0x08) := by decide

/-! ## Transfer, push, pull (sections S8, 2.6) -/

theorem test_tfr : after [0x1F, 0x51] start (fun t => (t.x, t.pc)) = some (0x1002, 0x1002) ∧
    after [0x1F, 0x8A] { start with a := 0xFF } (fun t => t.cc) = some 0xFF := by decide
/-- A mixed-width transfer moves PC by 2 and writes no flag; its value is free (R343). -/
theorem test_tfr_mixed : after [0x1F, 0x81] { start with cc := 0x0F } (fun t => (t.pc, t.cc)) = some (0x1002, 0x0F) := by decide
theorem test_exg : after [0x1E, 0x01] { start with a := 0x12, b := 0x34, x := 0xABCD } (fun t => (t.d, t.x)) =
    some (0xABCD, 0x1234) ∧ after [0x1E, 0x15] { start with x := 0x4000 } (fun t => (t.x, t.pc)) = some (0x1002, 0x4000) := by
  decide

/-- The registers of section S8. -/
def stacked : State := { start with a := 0x01, b := 0x02, x := 0x0405, y := 0x0607, u := 0x0809, s := 0x8000, dp := 0x03, cc := 0x0A }

theorem test_pshs : after [0x34, 0xFF] stacked
    (fun t => (t.s, t.cc, (List.range 12).map fun k => memRead8 (0x7FF4 + BitVec.ofNat 16 k) t)) =
    some (0x7FF4, 0x0A, [0x0A, 0x01, 0x02, 0x03, 0x04, 0x05, 0x06, 0x07, 0x08, 0x09, 0x10, 0x02]) := by decide
theorem test_pshs_none : after [0x34, 0x00] stacked (fun t => (t.s, t.pc)) = some (0x8000, 0x1002) := by decide
/-- Bit 6 on the U stack is S. -/
theorem test_pshu : after [0x36, 0x40] { start with u := 0x9000, s := 0x8000 } (fun t => (t.u, t.s, memRead16 0x8FFE t)) =
    some (0x8FFE, 0x8000, 0x8000) := by decide
theorem test_puls : after [0x35, 0x92] { startMem 0x7FFB [0x01, 0x02, 0x03, 0x40, 0x00] with s := 0x7FFB }
    (fun t => (t.a, t.x, t.pc, t.s)) = some (0x01, 0x0203, 0x4000, 0x8000) := by decide
theorem test_puls_wraps : after [0x35, 0x40] { startMem 0xFFFF [0x12, 0x34] with s := 0xFFFF } (fun t => (t.u, t.s)) =
    some (0x1234, 0x0001) := by decide
theorem test_pulu : after [0x37, 0x40] { startMem 0x8FFE [0x80, 0x00] with u := 0x8FFE } (fun t => (t.u, t.s)) =
    some (0x9000, 0x8000) := by decide

/-! ## Branches and calls (section 2.7) -/

/-- The low nibbles of CC on which a branch with the bytes is taken. -/
def takenOn (bytes : List Byte) (next : Word) : List Nat :=
  (List.range 16).filter fun n => after bytes { start with cc := BitVec.ofNat 8 n } (fun t => decide (t.pc ≠ next)) = some true

theorem test_conditions_unsigned : takenOn [0x22, 0x10] 0x1002 = [0, 2, 8, 10] ∧
    takenOn [0x23, 0x10] 0x1002 = [1, 3, 4, 5, 6, 7, 9, 11, 12, 13, 14, 15] ∧
    takenOn [0x24, 0x10] 0x1002 = [0, 2, 4, 6, 8, 10, 12, 14] ∧ takenOn [0x25, 0x10] 0x1002 = [1, 3, 5, 7, 9, 11, 13, 15] := by
  decide
theorem test_conditions_single : takenOn [0x26, 0x10] 0x1002 = [0, 1, 2, 3, 8, 9, 10, 11] ∧
    takenOn [0x29, 0x10] 0x1002 = [2, 3, 6, 7, 10, 11, 14, 15] ∧ takenOn [0x2A, 0x10] 0x1002 = [0, 1, 2, 3, 4, 5, 6, 7] := by decide
theorem test_conditions_signed : takenOn [0x2C, 0x10] 0x1002 = [0, 1, 4, 5, 10, 11, 14, 15] ∧
    takenOn [0x2E, 0x10] 0x1002 = [0, 1, 10, 11] ∧ takenOn [0x2D, 0x10] 0x1002 = [2, 3, 6, 7, 8, 9, 12, 13] := by decide
theorem test_conditions_long : takenOn [0x10, 0x2F, 0x01, 0x00] 0x1004 = [2, 3, 4, 5, 6, 7, 8, 9, 12, 13, 14, 15] ∧
    takenOn [0x10, 0x27, 0x01, 0x00] 0x1004 = [4, 5, 6, 7, 12, 13, 14, 15] ∧ takenOn [0x10, 0x21, 0x00, 0x05] 0x1004 = [] := by
  decide
theorem test_bra : after [0x20, 0x80] start (fun t => t.pc) = some 0x0F82 ∧ after [0x20, 0xFE] start (fun t => t.pc) = some 0x1000 := by
  decide
theorem test_lbra_wraps : after [0x16, 0xF0, 0x00] start (fun t => t.pc) = some 0x0003 := by decide
theorem test_bsr : after [0x8D, 0x10] { start with s := 0x8000 } (fun t => (t.pc, t.s, memRead16 0x7FFE t)) =
    some (0x1012, 0x7FFE, 0x1002) := by decide
theorem test_lbsr : after [0x17, 0x10, 0x00] { start with s := 0x8000 } (fun t => (t.pc, t.s, memRead16 0x7FFE t)) =
    some (0x2003, 0x7FFE, 0x1003) := by decide
theorem test_jmp : after [0x6E, 0x81] { start with x := 0x4000 } (fun t => (t.pc, t.x)) = some (0x4000, 0x4002) := by decide
theorem test_jsr : after [0x9D, 0x10] { start with s := 0x8000, dp := 0x40 } (fun t => (t.pc, t.s, memRead16 0x7FFE t)) =
    some (0x4010, 0x7FFE, 0x1002) := by decide
theorem test_rts : after [0x39] { startMem 0xFFFF [0x12, 0x34] with s := 0xFFFF } (fun t => (t.pc, t.s)) = some (0x1234, 0x0001) := by
  decide

/-! ## System and interrupts (sections 2.8, 2.9) -/

/-- The vectors and registers of section 2.8. -/
def vectors : State :=
  placeBytes 0xFFF2 [0x42, 0x00, 0x41, 0x00, 0x44, 0x00, 0x45, 0x00, 0x40, 0x00, 0x43, 0x00, 0x46, 0x00]
    { stacked with cc := 0x00 }

/-- The frame from 0x7FF4 up. -/
def frame (t : State) : List Byte := (List.range 12).map fun k => memRead8 (0x7FF4 + BitVec.ofNat 16 k) t

theorem test_nop : after [0x12] { start with cc := 0xFF } (fun t => (t.pc, t.cc, t.lastPc, t.lastLen)) =
    some (0x1001, 0xFF, 0x1000, 1) := by decide
theorem test_swi : after [0x3F] { vectors with cc := 0x05 } (fun t => (t.s, t.pc, t.cc, frame t)) =
    some (0x7FF4, 0x4000, 0xD5, [0x85, 0x01, 0x02, 0x03, 0x04, 0x05, 0x06, 0x07, 0x08, 0x09, 0x10, 0x01]) := by decide
theorem test_swi2 : after [0x10, 0x3F] { vectors with cc := 0x05 } (fun t => (t.pc, t.cc, frame t)) =
    some (0x4100, 0x85, [0x85, 0x01, 0x02, 0x03, 0x04, 0x05, 0x06, 0x07, 0x08, 0x09, 0x10, 0x02]) := by decide
theorem test_swi3 : after [0x11, 0x3F] { vectors with cc := 0x55 } (fun t => (t.pc, t.cc, memRead8 0x7FF4 t)) =
    some (0x4200, 0xD5, 0xD5) := by decide
theorem test_rti_full : after [0x3B] { startMem 0x7FF4 [0x85, 0xAA, 0xBB, 0xCC, 0x11, 0x22, 0x33, 0x44, 0x55, 0x66, 0x20, 0x00] with
      s := 0x7FF4, cc := 0x50 } (fun t => (t.a, t.b, t.dp, t.x, t.y, t.u, t.s, t.pc, t.cc)) =
    some (0xAA, 0xBB, 0xCC, 0x1122, 0x3344, 0x5566, 0x8000, 0x2000, 0x85) := by decide
theorem test_rti_short : after [0x3B] { startMem 0x7FFD [0x05, 0x20, 0x00] with s := 0x7FFD, cc := 0xD0, a := 0x11 }
    (fun t => (t.a, t.s, t.pc, t.cc)) = some (0x11, 0x8000, 0x2000, 0x05) := by decide
theorem test_cwai : after [0x3C, 0xEF] { vectors with cc := 0x54 } (fun t => (t.s, t.pc, t.cc, t.execState, memRead8 0x7FF4 t)) =
    some (0x7FF4, 0x1002, 0xC4, .cwaiWait, 0xC4) := by decide
theorem test_sync : after [0x13] { vectors with cc := 0x50 } (fun t => (t.pc, t.cc, t.s, t.execState)) =
    some (0x1001, 0x50, 0x8000, .syncWait) := by decide
/-- A masked IRQ ends SYNC and the next instruction runs. -/
theorem test_sync_wake : (steps 3 (placeBytes 0x1000 [0x13, 0x12] { vectors with cc := 0x50, irqLine := true })).map
    (fun t => (t.pc, t.cc, t.execState)) = some (0x1002, 0x50, .running) := by decide
/-- Both lines are masked: CWAI goes on waiting. -/
theorem test_cwai_held : (steps 3 (placeBytes 0x1000 [0x3C, 0xFF] { vectors with cc := 0x50, irqLine := true, firqLine := true })).map
    (fun t => (t.s, t.cc, t.execState)) = some (0x7FF4, 0xD0, .cwaiWait) := by decide
/-- CWAI, FIRQ, RTI (section 2.9): nothing more is stacked, and all twelve bytes come back. -/
theorem test_cwai_firq : (steps 2 { placeBytes 0x1000 [0x3C, 0xBF] (placeBytes 0x4400 [0x3B] vectors) with
      cc := 0x50, firqLine := true }).map (fun t => (t.cc, t.pc, t.s)) = some (0xD0, 0x4400, 0x7FF4) := by decide
theorem test_nmi : after [0x12] { vectors with cc := 0x50, nmiLatch := true }
    (fun t => (t.s, t.pc, t.cc, t.nmiLatch, frame t)) =
    some (0x7FF4, 0x4300, 0xD0, false, [0xD0, 0x01, 0x02, 0x03, 0x04, 0x05, 0x06, 0x07, 0x08, 0x09, 0x10, 0x00]) := by decide
theorem test_firq : after [0x12] { vectors with cc := 0x80, firqLine := true }
    (fun t => (t.s, t.pc, t.cc, memRead8 0x7FFD t, memRead16 0x7FFE t)) = some (0x7FFD, 0x4400, 0x50, 0x00, 0x1000) := by decide
theorem test_irq : after [0x12] { vectors with cc := 0x40, irqLine := true } (fun t => (t.s, t.pc, t.cc, memRead8 0x7FF4 t)) =
    some (0x7FF4, 0x4500, 0xD0, 0xC0) := by decide
theorem test_masked : after [0x12] { vectors with cc := 0x50, irqLine := true, firqLine := true } (fun t => (t.pc, t.cc)) =
    some (0x1001, 0x50) := by decide
theorem test_priority : after [0x12] { vectors with nmiLatch := true, firqLine := true, irqLine := true } (fun t => t.pc) =
    some 0x4300 ∧ after [0x12] { vectors with firqLine := true, irqLine := true } (fun t => t.pc) = some 0x4400 := by decide
/-- The other choice of `FIRQ_VECTOR` (D2). -/
theorem test_firq_vector : after [0x12] { vectors with firqLine := true, params := { vectors.params with firqVector := .fffa } }
    (fun t => t.pc) = some 0x4000 := by decide
/-- Level re-fire (R437): six steps of entry and RTI, and the NOP never runs. -/
theorem test_refire : (steps 6 { placeBytes 0x1000 [0x12] (placeBytes 0x4500 [0x3B] vectors) with irqLine := true }).map
    (fun t => (t.pc, t.s)) = some (0x1000, 0x8000) := by decide

/-! ## Reset and init (section 2.11) -/

/-- The start of section 2.11. -/
def running : State :=
  placeBytes 0xFFFE [0xE0, 0x00] { stacked with pc := 0x1234, cc := 0xAF, nmiLatch := true, irqLine := true }

theorem test_reset_cold : port (.reset true) running (fun t => (t.a, t.s, t.pc, t.dp, t.cc)) =
    some (0x01, 0x8000, 0x1234, 0x00, 0x50) ∧
    port (.reset true) running (fun t => (t.execState, t.nmiLatch, t.irqLine)) = some (.reset, false, true) := by decide
theorem test_reset_exit : ((applyPort (.reset true) running).bind (steps 1)).map (fun t => (t.pc, t.cc, t.execState)) =
    some (0xE000, 0x50, .running) := by decide
theorem test_reset_warm : port (.reset false) { running with cc := 0x8F, dp := 0x77 } (fun t => (t.dp, t.cc)) =
    some (0x00, 0xDF) := by decide
/-- After `init` I is clear and the high IRQ line is taken at once, over the vectors (R473). -/
theorem test_init : port (.init 0x2000) running (fun t => (t.a, t.s, t.pc, t.cc, t.lastLen)) =
    some (0x00, 0x0000, 0x2000, 0x00, 0) ∧
    port (.init 0x2000) running (fun t => (t.nmiLatch, t.irqLine)) = some (false, true) ∧
    ((applyPort (.init 0x2000) running).bind (steps 1)).map (fun t => (t.s, memRead16 0xFFFE t)) = some (0xFFF4, 0x2000) := by decide
/-- From the state after reset the first step loads PC from the vector (R472). -/
theorem test_reset_state : (steps 1 (placeBytes 0xFFFE [0xE0, 0x00] State.reset)).map (fun t => (t.pc, t.execState)) =
    some (0xE000, .running) := by decide
theorem test_nmi_trigger : port .nmiTrigger start (fun t => t.nmiLatch) = some true ∧
    port .nmiTrigger { start with params := { start.params with nmiArmOnSLoad := true } } (fun t => t.nmiLatch) = some false := by
  decide
theorem test_snapshot : (getState { running with execState := .reset }).inReset = true ∧ (getState running).pc = 0x1234 := by decide

/-! ## The memory port (sections S1, S2, S3, 2.10) -/

theorem test_host_write : hostRead 0x2000 (hostWrite 0x2000 0x5A start).1 = .ok 0x5A ∧
    hostRead 65535 (hostWrite 65535 0xA5 start).1 = .ok 0xA5 ∧ hostRead 0 (hostWrite 0 0x01 start).1 = .ok 0x01 := by decide
theorem test_host_out_of_range : hostWrite 65536 0x00 start = (start, .addressOutOfRange) ∧
    hostRead 65536 start = .error .addressOutOfRange ∧ hostRead (-1) start = .error .addressOutOfRange := by decide

/-- S2: ROM at 0xC000 to 0xC003. -/
def withRom : State := (defineRom 0xC000 0xC004 start).1

theorem test_rom_boundaries : (hostWrite 0xBFFF 0x77 withRom).2 = .ok ∧ (hostWrite 0xC000 0x77 withRom).2 = .romViolation ∧
    (hostWrite 0xC003 0x77 withRom) = (withRom, .romViolation) ∧
    hostRead 0xC004 (hostWrite 0xC004 0x77 withRom).1 = .ok 0x77 := by decide
/-- S2 through the CPU: the flags come from A, the cell stays, PC moves by 3. -/
theorem test_rom_sta : after [0xB7, 0xC0, 0x00] { withRom with a := 0x77, cc := 0x0E } (fun t => (memRead8 0xC000 t, t.cc, t.pc)) =
    some (0x00, 0x00, 0x1003) := by decide
theorem test_rom_ranges : defineRom 0xC000 0xC000 start = (start, .ok) ∧ (defineRom 0xFFF0 65536 start).2 = .ok ∧
    ((defineRom 0xFFF0 65536 start).1.attr 0xFFFF).isRom = true ∧
    defineRom 0xC004 0xC000 start = (start, .addressOutOfRange) ∧ defineRom 0 65537 start = (start, .addressOutOfRange) := by decide
/-- S1: a load over ROM clears the flag and is not dropped; a write to ROM is. -/
theorem test_load_clears_rom : (load 0xC000 [0x11, 0x22, 0x33] 2 withRom).map (fun p =>
    (memRead8 0xC001 p.1, (p.1.attr 0xC001).isRom, (p.1.attr 0xC002).isRom)) = some (0x22, false, true) := by decide
/-- The range test of R74: a negative length, an end past the space; a length of zero touches nothing. -/
theorem test_load_ranges : load 0xC000 [0x11] (-1) withRom = some (withRom, .addressOutOfRange) ∧
    load 0xFFFF [0x11, 0x22] 2 withRom = some (withRom, .addressOutOfRange) ∧
    load 65536 [0x11] 0 withRom = some (withRom, .ok) := by decide
/-- `STD $BFFF`: the high byte lands, the low byte is dropped (section 2.10). -/
theorem test_rom_std : after [0xFD, 0xBF, 0xFF] { withRom with a := 0x12, b := 0x34 }
    (fun t => (memRead8 0xBFFF t, memRead8 0xC000 t)) = some (0x12, 0x00) := by decide

/-- S3: a handler of the environment at 0xFF00 to 0xFF03. -/
def withIo : State := ((defineIo 0xFF00 0xFF04 (.env 7) start).map (·.1)).getD start

theorem test_io_called_once : (hostWrite 0xFF02 0x12 withIo).1.ioCalls = [⟨.env 7, 0xFF02, 0x12, .write⟩] ∧
    (hostWrite 0xFF04 0x12 withIo).1.ioCalls = [] := by decide
/-- `STD $FF00` calls the handler twice, high byte first; the flags come from D. -/
theorem test_io_std : after [0xFD, 0xFF, 0x00] { withIo with a := 0xAB, b := 0xCD } (fun t => (t.ioCalls, t.cc)) =
    some ([⟨.env 7, 0xFF01, 0xCD, .write⟩, ⟨.env 7, 0xFF00, 0xAB, .write⟩], 0x08) := by decide
/-- `PSHS X` with the stack in I/O cells: the low byte first, at the higher address (section 2.10). -/
theorem test_io_pshs : after [0x34, 0x10] { withIo with x := 0xABCD, s := 0xFF02 } (fun t => (t.s, t.ioCalls)) =
    some (0xFF00, [⟨.env 7, 0xFF00, 0xAB, .write⟩, ⟨.env 7, 0xFF01, 0xCD, .write⟩]) := by decide
/-- A read calls nothing; a read-modify-write calls once, with the new value; CLR calls once. -/
theorem test_io_reads : after [0xB6, 0xFF, 0x00] withIo (fun t => t.ioCalls) = some [] ∧
    after [0x7C, 0xFF, 0x01] (placeBytes 0xFF01 [0x8F] withIo) (fun t => (t.ioCalls, t.cc)) =
      some ([⟨.env 7, 0xFF01, 0x90, .write⟩], 0x08) ∧
    after [0x7F, 0xFF, 0x02] withIo (fun t => t.ioCalls) = some [⟨.env 7, 0xFF02, 0x00, .write⟩] := by decide
/-- An empty range does nothing, with a new handler too (D15). -/
theorem test_io_empty_range : defineIo 0xFF10 0xFF10 (.env 8) withIo = some (withIo, .ok) := by decide
/-- A slot that no handler was put in answers its data (R62, D20). -/
theorem test_io_noop : hostRead 0xFF00 (hostWrite 0xFF00 0x12 ((defineIo 0xFF00 0xFF04 .noOp start).map (·.1) |>.getD start)).1 =
    .ok 0x12 := by decide

/-! ## Witnesses: states and operands that meet the hypotheses of the statements, clause by clause, at the ends of the ranges -/

/-- The result is a next state. -/
def runs (r : Result) : Bool :=
  match r with
  | .next _ => true
  | .fault _ | .refused _ => false

theorem runs_next {r : Result} (h : runs r = true) : ∃ t, r = .next t := by
  cases r with
  | next t => exact ⟨t, rfl⟩
  | fault f => cases h
  | refused x => cases h

/-- What is looked at differs after the instruction. -/
def changes {α : Type} [DecidableEq α] (look : State → α) (i : Instr) (st : State) : Bool :=
  match exec i st with
  | .next t => decide (look t ≠ look st)
  | .fault _ | .refused _ => false

/-- A state with a ROM range, an I/O range and a handler. -/
def ported : State :=
  { start with
    attrs := [(0xC000, ⟨true, false, 0⟩), (0xC004, CellAttr.none), (0xFF00, ⟨false, true, 0⟩), (0xFF04, CellAttr.none)]
    ioTable := [.env 7] }

theorem witness_invariant : ported.Inv := by
  refine ⟨by decide, by decide, by decide, fun k h => ?_, by decide, by decide, by decide, by decide⟩
  have h0 : (ported.attr k).ioIndex = 0 := by
    simp only [State.attr, ported, Attrs.get, CellAttr.none]
    repeat' split
    all_goals rfl
  rw [h0]
  decide

theorem witness_DecodeOfEncode : (Instr.ldy (.mem (.idx (.off16 .x 0xFFFF true)))).WellFormed ∧
    ∀ k (h : k < 5), streamOf [0x10, 0xAE, 0x99, 0xFF, 0xFF] k =
      (encode (.ldy (.mem (.idx (.off16 .x 0xFFFF true)))))[k]'h := by decide
theorem witness_EncodeOfDecode : decode (streamOf [0xA6, 0x1F]) = .ok (.lda (.mem (.idx (.off5 .x 0x1F))), 2) ∧
    decode (streamOf [0x11, 0xB3, 0x00, 0x00]) = .ok (.cmpu (.mem (.ext 0)), 4) := by decide
theorem witness_IllegalPostbytes : streamOf [0xA6, 0x87] 0 = 0xA6 ∧ streamOf [0x1E, 0x6F] 0 = 0x1E ∧ streamOf [0x1F, 0xF0] 0 = 0x1F := by
  decide

/-- The bytes of `LDA #$7F` stand at PC; both lines are high and masked. -/
theorem witness_StepRunsDecoded :
    let st : State := placeBytes 0x1000 [0x86, 0x7F] { start with cc := 0x50, firqLine := true, irqLine := true }
    (Instr.lda (.imm 0x7F)).WellFormed ∧ st.execState = .running ∧ st.nmiLatch = false ∧
      (st.firqLine = true → st.flag .f = true) ∧ (st.irqLine = true → st.flag .i = true) ∧
      ∀ k (h : k < 2), memRead8 (st.pc + BitVec.ofNat 16 k) st = (encode (.lda (.imm 0x7F)))[k]'h := by decide

theorem witness_IllegalEncodingFaults :
    (decode (fun k => memRead8 (0x1000 + BitVec.ofNat 16 k) (startMem 0x1000 [0x01])) = .error (.illegalOpcode .one 0x01)) ∧
    (decode (fun k => memRead8 (0x1000 + BitVec.ofNat 16 k) (startMem 0x1000 [0xA6, 0x90])) = .error (.illegalPostbyte 0x90)) ∧
    start.execState = .running ∧ start.nmiLatch = false ∧ start.firqLine = false ∧ start.irqLine = false ∧
    applyPort (.firq true) { start with execState := .fault (.illegalOpcode 0x1000 .one 0x01) } =
      some { start with execState := .fault (.illegalOpcode 0x1000 .one 0x01), firqLine := true } := by decide

theorem witness_HardwareInterruptsTaken :
    (vectors.execState = .running ∧ { vectors with nmiLatch := true }.nmiLatch = true) ∧
    (let st : State := { vectors with firqLine := true, cc := 0xBF };
      st.nmiLatch = false ∧ st.firqLine = true ∧ st.flag .f = false) ∧
    (let st : State := { vectors with firqLine := true, irqLine := true, cc := 0xEF };
      st.nmiLatch = false ∧ (st.firqLine = true → st.flag .f = true) ∧ st.irqLine = true ∧ st.flag .i = false) := by decide

/-- The four cases of a wait: NMI, FIRQ, IRQ, nothing acceptable. -/
theorem witness_CwaiWaitEnds :
    let st : State := { vectors with execState := .cwaiWait }
    st.execState = .cwaiWait ∧ { st with nmiLatch := true }.nmiLatch = true ∧
    (let a := { st with firqLine := true, cc := 0x90 };
      a.nmiLatch = false ∧ a.firqLine = true ∧ a.flag .f = false) ∧
    (let a := { st with firqLine := true, irqLine := true, cc := 0xC0 };
      a.nmiLatch = false ∧ (a.firqLine = true → a.flag .f = true) ∧ a.irqLine = true ∧ a.flag .i = false) ∧
    (let a := { st with firqLine := true, irqLine := true, cc := 0xD0 };
      a.nmiLatch = false ∧ (a.firqLine = true → a.flag .f = true) ∧ (a.irqLine = true → a.flag .i = true)) := by decide

theorem witness_SyncWaitEnds :
    let st : State := { start with execState := .syncWait }
    st.execState = .syncWait ∧ { st with irqLine := true }.irqLine = true ∧ st.nmiLatch = false ∧ st.firqLine = false ∧
      st.irqLine = false := by decide

theorem witness_ResetAndExit : State.reset.execState = .reset := by decide

/-- The ends of the address space, a ROM cell, an I/O cell and a plain cell. -/
theorem witness_HostReadAndWrite :
    ¬ (0 ≤ (-1 : Int) ∧ (-1 : Int) ≤ 65535) ∧ ¬ (0 ≤ (65536 : Int) ∧ (65536 : Int) ≤ 65535) ∧
    (0 : Int) = (0x0000 : Word).toNat ∧ (65535 : Int) = (0xFFFF : Word).toNat ∧ (ported.attr 0xC003).isRom = true ∧
    ((ported.attr 0xFF00).isRom = false ∧ (ported.attr 0xFF00).isIo = true) ∧
    ((ported.attr 0xFFFF).isRom = false ∧ (ported.attr 0xFFFF).isIo = false) := by decide

theorem witness_DefineRomMarksRange : ported.Inv ∧ (0 ≤ (0 : Int) ∧ (0 : Int) ≤ 65536 ∧ (65536 : Int) ≤ 65536) ∧
    (0 ≤ (65536 : Int) ∧ (65536 : Int) ≤ 65536) ∧ ¬ (0 ≤ (2 : Int) ∧ (2 : Int) ≤ 1 ∧ (1 : Int) ≤ 65536) ∧
    ¬ (0 ≤ (0 : Int) ∧ (0 : Int) ≤ 65537 ∧ (65537 : Int) ≤ 65536) := ⟨witness_invariant, by decide, by decide, by decide, by decide⟩

theorem witness_DefineIoRegistersHandler : ported.Inv ∧ (0 ≤ (0xFF00 : Int) ∧ (0xFF00 : Int) ≤ 65536 ∧ (65536 : Int) ≤ 65536) ∧
    Config.Handler.env 7 ∈ ported.ioTable ∧ ported.ioTable.length < 256 ∧
    ((0xFF00 : Int) ≤ (0xFF00 : Word).toNat ∧ ((0xFFFF : Word).toNat : Int) < 65536) ∧
    ¬ ((0xFF00 : Int) ≤ (0xFEFF : Word).toNat ∧ ((0xFEFF : Word).toNat : Int) < 65536) ∧
    (0 ≤ (65536 : Int) ∧ (65536 : Int) ≤ 65536) ∧
    ¬ (0 ≤ (-1 : Int) ∧ (-1 : Int) ≤ 0 ∧ (0 : Int) ≤ 65536) :=
  ⟨witness_invariant, by decide, by decide, by decide, by decide, by decide, by decide, by decide⟩

/-- Two bytes of a buffer of three at the top of the space; a cell below them; a call past the end, one of negative length. -/
theorem witness_LoadStoresImage : ported.Inv ∧
    (0 ≤ (65534 : Int) ∧ 0 ≤ (2 : Int) ∧ (65534 : Int) + 2 ≤ 65536 ∧ (2 : Int) ≤ ([0x11, 0x22, 0x33] : List Byte).length) ∧
    (((1 : Nat) : Int) < 2 ∧ 65534 + ((1 : Nat) : Int) = (0xFFFF : Word).toNat) ∧ (((0xFFFD : Word).toNat : Int) < 65534) ∧
    ¬ (0 ≤ (65535 : Int) ∧ 0 ≤ (2 : Int) ∧ (65535 : Int) + 2 ≤ 65536) ∧ ¬ (0 ≤ (0 : Int) ∧ 0 ≤ (-1 : Int) ∧ (0 : Int) + -1 ≤ 65536) :=
  ⟨witness_invariant, by decide, by decide, by decide, by decide, by decide⟩

/-- A ROM cell, a plain cell, an I/O cell with a handler of the environment, an I/O cell with the no-op handler. -/
theorem witness_ByteWrite : (ported.attr 0xC000).isRom = true ∧
    ((ported.attr 0xFEFF).isRom = false ∧ (ported.attr 0xFEFF).isIo = false) ∧
    ((ported.attr 0xFF03).isRom = false ∧ (ported.attr 0xFF03).isIo = true ∧
      ported.handler (ported.attr 0xFF03).ioIndex = .env 7) ∧
    { ported with ioTable := [.noOp] }.handler (ported.attr 0xFF03).ioIndex = .noOp := by decide

/-- The cases of `OperandResolution` are operand forms. -/
theorem witness_OperandResolution : ∃ (m1 m2 m3 m4 : MemOp), m1 = .idx (.postInc .x .one false) ∧
    m2 = .idx (.postInc .y .two true) ∧ m3 = .idx (.preDec .u .one false) ∧ m4 = .idx (.preDec .s .two true) :=
  ⟨_, _, _, _, rfl, rfl, rfl, rfl⟩

/-- What `StoresByte` and `StoresWord` assume of cells: plain ones at the address and the next, a ROM cell, no I/O. -/
theorem witness_stores : (let k := (ea (.ext 0xFFFF) ported).1;
      (ported.attr k).isRom = false ∧ (ported.attr k).isIo = false ∧ (ported.attr (k + 1)).isRom = false ∧
        (ported.attr (k + 1)).isIo = false) ∧
    (let k := (ea (.idx (.preDec .x .two false)) { ported with x := 0xC002 }).1;
      (ported.attr k).isRom = true ∧ (ported.attr k).isIo = false) := by decide

theorem witness_OneOperand : OneOp.neg ∈ [OneOp.neg, .inc, .dec, .com, .clr] ∧ OneOp.clr ∈ [OneOp.neg, .inc, .dec, .com, .clr] ∧
    OneOp.asl ∈ [OneOp.asl, .asr, .lsr, .rol, .ror] ∧ OneOp.ror ∈ [OneOp.asl, .asr, .lsr, .rol, .ror] := by decide

theorem witness_DecimalAddition : 99 < 100 ∧ { start with a := 0x99, cc := 0x01 }.a = packedDecimal 99 ∧
    start.a = packedDecimal 0 := by decide

/-- A 16-bit register that does not hold the 8-bit one, where a mixed exchange gives both; D with A, and D with B. -/
theorem witness_ExchangeRegisters : reg8Part .a ∉ reg16Parts .x ∧ reg8Part .cc ∉ reg16Parts .d ∧
    (∃ (q : Reg16) (r : Reg8), q = .d ∧ r = .a) ∧ ∃ (q : Reg16) (r : Reg8), q = .d ∧ r = .b :=
  ⟨by decide, by decide, ⟨_, _, rfl, rfl⟩, _, _, rfl, rfl⟩

theorem witness_PushRegisters : NoIoBelow .s (maskBytes 0xFF) { ported with s := 0x8000 } ∧ NoIoBelow .u (maskBytes 0x00) ported := by
  constructor
  · show ∀ j, j < 12 → _
    decide
  · show ∀ j, j < 0 → _
    decide

theorem witness_PullUndoesPush : PlainBelow .s (maskBytes 0xFF) { ported with s := 0x0006 } ∧
    PlainBelow .u (maskBytes 0x40) { ported with u := 0xC000 } := by
  constructor
  · show ∀ j, j < 12 → _ = false ∧ _ = false
    decide
  · show ∀ j, j < 2 → _ = false ∧ _ = false
    decide

/-- Every condition but BRN's is met by some flags, and every one but BRA's is missed by some. -/
theorem witness_Branches : (∀ k, k ≠ Cond.rn → ∃ n z v c, Taken k n z v c) ∧
    (∀ k, k ≠ Cond.ra → ∃ n z v c, ¬ Taken k n z v c) := by
  constructor <;> intro k hk <;> cases k <;> simp_all [Taken]

theorem witness_CompareThenBranch : Cond.hi = .hi ∧ Cond.ls = .ls ∧ Cond.cs = .cs ∧ Cond.eq = .eq ∧ Cond.ge = .ge ∧
    Cond.lt = .lt ∧ Cond.gt = .gt ∧ Cond.le = .le := by decide

theorem witness_Calls : (∃ o, Instr.bsr 0x80 = .bsr o ∧ (0x0F82 : Word) = BitVec.ofInt 16 ((0x1002 : Word).toNat + o.toInt)) ∧
    (∃ o, Instr.lbsr 0xF000 = .lbsr o ∧ (0x0003 : Word) = BitVec.ofNat 16 ((0x1003 : Word).toNat + o.toNat)) ∧
    NoIoBelow .s 2 { ported with s := 0x0001 } := by
  refine ⟨⟨0x80, by decide⟩, ⟨0xF000, by decide⟩, ?_⟩
  show ∀ j, j < 2 → _
  decide

/-- What `Entered` and CWAI assume of the stack: twelve cells, or three, that are not I/O. -/
theorem witness_frames : NoIoBelow .s 12 { ported with s := 0xFF00 } ∧ NoIoBelow .s 3 { ported with s := 0xFF00 } := by
  constructor
  · show ∀ j, j < 12 → _
    decide
  · show ∀ j, j < 3 → _
    decide

theorem witness_ReturnFromInterrupt :
    (let st := { startMem 0x7FF4 [0x80] with s := 0x7FF4 };
      flag .e (memRead8 st.s st) = true) ∧
    (let st := { startMem 0x7FFD [0x7F] with s := 0x7FFD };
      flag .e (memRead8 st.s st) = false) := by decide

theorem witness_InterruptRoundTrip : PlainBelow .s 12 { ported with s := 0xFF00 } ∧ PlainBelow .s 3 { ported with s := 0x0001 } := by
  constructor
  · show ∀ j, j < 12 → _ = false ∧ _ = false
    decide
  · show ∀ j, j < 3 → _ = false ∧ _ = false
    decide

/-- The byte at PC is 0x00, `NEG <$00`: a write of memory. -/
theorem witness_StepKeepsInvariant : ported.Inv ∧ ∃ t, step ported = .next t :=
  ⟨witness_invariant, runs_next (by decide)⟩

theorem witness_PortsKeepInvariant : ported.Inv ∧ ∃ t, applyPort (.load 0xC002 [0x11, 0x22, 0x33] 3) ported = some t :=
  ⟨witness_invariant, _, rfl⟩

theorem witness_StepLeavesRomAndSetup : (∃ t, step ported = .next t) ∧ (ported.attr 0xC000).isRom = true :=
  ⟨runs_next (by decide), by decide⟩

/-- A step that calls a handler, one that calls none, and one that leaves a latched NMI latched. -/
theorem witness_StepCallsHandlersOnlyByWrites :
    after [0xB7, 0xFF, 0x00] ported (fun t => t.ioCalls.length) = some 1 ∧ after [0x12] ported (fun t => t.ioCalls) = some [] ∧
    (steps 1 { ported with execState := .reset, nmiLatch := true }).map (fun t => t.nmiLatch) = some true := by decide

/-- Each part the statement is about is changed by some instruction. -/
theorem witness_WritersOfControlState :
    changes (State.flag .h) (.adda (.imm 1)) { start with a := 0x0F } = true ∧ changes (State.flag .i) .swi start = true ∧
    changes (State.flag .f) (.orcc 0x40) start = true ∧ changes (State.flag .e) .swi2 start = true ∧
    changes State.dp (.tfr (.r8 .a) (.r8 .dp)) { start with a := 0x20 } = true ∧
    changes State.nmiArmed (.lds (.imm 0)) { start with params := { start.params with nmiArmOnSLoad := true } } = true ∧
    changes State.execState .sync start = true ∧ changes State.execState (.cwai 0xFF) start = true := by decide

end Vectors

end Sys2Proof.Tests
end

section
/-! The wait of CWAI, the invariant under the ports, and what every step leaves of the setup (spec/00_scope.md). -/

namespace Sys2Proof.Machine

/-! ## Which interrupt is acceptable (R422, R425, R432) -/

theorem acceptable_of_nmi {st : State} (hn : st.nmiLatch = true) : acceptable st = some .nmi := by
  simp [acceptable, hn]

theorem acceptable_of_firq {st : State} (hn : st.nmiLatch = false) (hf : st.firqLine = true) (hm : st.flag .f = false) :
    acceptable st = some .firq := by
  simp [acceptable, hn, hf, hm]

theorem acceptable_of_irq {st : State} (hn : st.nmiLatch = false) (hf : st.firqLine = true → st.flag .f = true)
    (hi : st.irqLine = true) (hm : st.flag .i = false) : acceptable st = some .irq := by
  have hf' : (st.firqLine && !st.flag .f) = false := by simpa using hf
  simp [acceptable, hn, hf', hi, hm]

theorem acceptable_eq_none {st : State} (hn : st.nmiLatch = false) (hf : st.firqLine = true → st.flag .f = true)
    (hi : st.irqLine = true → st.flag .i = true) : acceptable st = none := by
  have hf' : (st.firqLine && !st.flag .f) = false := by simpa using hf
  have hi' : (st.irqLine && !st.flag .i) = false := by simpa using hi
  simp [acceptable, hn, hf', hi']

/-! ## The masks and the vector an entry leaves (R431) -/

/-- I and F together are the mask 0x50 (R27). -/
theorem masks_of_both {k : EntryKind} (hi : k.setsI = true) (hf : k.setsF = true) (cc : Byte) : k.masks cc = cc ||| 0x50 := by
  simp [EntryKind.masks, hi, hf, BitVec.or_assoc]

theorem masks_irq (cc : Byte) : EntryKind.irq.masks cc = cc ||| 0x10 := by
  simp [EntryKind.masks, EntryKind.setsI, EntryKind.setsF]

theorem firqVector_address (v : Config.FirqVector) : v.address = if v = .fff6 then 0xFFF6 else 0xFFFA := by
  cases v <;> rfl

/-! ## The wake from CWAI (R435) -/

theorem step_of_cwaiWait {st : State} (h : st.execState = .cwaiWait) : step st = .next (cwaiWake st) := by
  simp [step, h]

theorem cwaiWake_of_some {st : State} {k : EntryKind} (h : acceptable st = some k) :
    cwaiWake st = (vectorTo k (acknowledge k st)).setExecState .running := by
  simp [cwaiWake, h]

theorem cwaiWake_of_none {st : State} (h : acceptable st = none) : cwaiWake st = st := by
  simp [cwaiWake, h]

theorem acknowledge_keeps (k : EntryKind) (st : State) : KeepsExcept [.nmiLatch] st (acknowledge k st) := by
  rw [acknowledge_eq]
  intro p hp
  cases p with
  | nmiLatch => simp at hp
  | _ => rfl

/-- The second half of an entry that ends a wait stacks nothing. -/
theorem vectorTo_running_keeps (k : EntryKind) (st : State) :
    KeepsExcept [.cc, .pc, .execState] st ((vectorTo k st).setExecState .running) := by
  intro p hp
  cases p with
  | cc | pc | execState => simp at hp
  | _ => rfl

theorem cwaiWake_sameBytes (st : State) : SameBytes st (cwaiWake st) := by
  intro a
  cases h : acceptable st with
  | none => rw [cwaiWake_of_none h]
  | some k => rw [cwaiWake_of_some h, acknowledge_eq]; rfl

/-- Settles O9: the four clauses are the four answers of the interrupt check. -/
theorem cwaiWaitEnds : Obligations.CwaiWaitEnds := by
  intro st hw
  refine ⟨cwaiWake st, step_of_cwaiWait hw, cwaiWake_sameBytes st, fun hn => ?_, fun hn hf hm => ?_,
    fun hn hf hi hm => ?_, fun hn hf hi => ?_⟩
  · rw [cwaiWake_of_some (acceptable_of_nmi hn)]
    have hkeeps := (acknowledge_keeps .nmi st).trans (vectorTo_running_keeps .nmi _)
    exact ⟨hkeeps.mono (by decide), masks_of_both rfl rfl st.cc, rfl, rfl, rfl⟩
  · rw [cwaiWake_of_some (acceptable_of_firq hn hf hm), ← firqVector_address]
    exact ⟨vectorTo_running_keeps .firq st, masks_of_both rfl rfl st.cc, rfl, rfl⟩
  · rw [cwaiWake_of_some (acceptable_of_irq hn hf hi hm)]
    exact ⟨vectorTo_running_keeps .irq st, masks_irq st.cc, rfl, rfl⟩
  · exact cwaiWake_of_none (acceptable_eq_none hn hf hi)

/-! ## What every step leaves of the setup -/

/-- Settles O58: what `step_evolves` says of every step; the acknowledge before it and the record after it
touch none of these parts. -/
theorem stepLeavesRomAndSetup : Obligations.StepLeavesRomAndSetup := by
  intro st t h
  obtain ⟨st1, u, hu, hst1, -, ht⟩ := step_evolves h
  obtain ⟨latch, rfl⟩ : ∃ latch, st1 = { st with nmiLatch := latch } := ⟨_, hst1⟩
  rcases ht with rfl | ⟨-, -, -, rfl⟩ <;> exact ⟨hu.rom, hu.attrs, hu.ioTable, hu.params⟩

/-! ## The invariant under the ports -/

/-- What a write of memory or of registers can do keeps the invariant. -/
theorem Evolves.inv {st t : State} (e : Evolves st t) (h : st.Inv) : t.Inv where
  memory := e.wf h.memory
  attributes := by rw [e.attrs]; exact h.attributes
  slots := by rw [e.ioTable]; exact h.slots
  indexes k := by rw [e.attr, e.ioTable]; exact h.indexes k
  armed ha := by rw [e.params]; exact (e.arming ha).elim h.armed id
  latched hl hp := by
    rw [e.nmiLatch] at hl
    rw [e.params] at hp
    exact e.armed (h.latched hl hp)
  length := by rw [e.lastLen]; exact h.length
  calls := by
    obtain ⟨new, hnew, hlegal⟩ := e.calls
    intro c hc
    rw [hnew, List.mem_append] at hc
    exact hc.elim (fun hc => (hlegal c hc).1) (h.calls c)

theorem initializeMemory_inv {st : State} (h : st.Inv) : (initializeMemory st).Inv :=
  { h with
    memory := rfl
    attributes := rfl
    slots := Nat.zero_le 256
    indexes := fun _ hio => by cases hio }

theorem hostWrite_inv {st : State} (h : st.Inv) (address : Int) (value : Byte) : (hostWrite address value st).1.Inv := by
  unfold hostWrite
  split
  · exact (evolves_memWrite8 ..).inv h
  · exact h

/-- A range of cells is given new attributes while the dispatch table grows: every cell the change leaves as I/O must dispatch to
a slot of the new table, or dispatch where it did. -/
theorem State.Inv.updateAttrs {st : State} (h : st.Inv) {f : CellAttr → CellAttr} {lo hi : Nat} {table : List Config.Handler}
    (hhi : hi ≤ 65536) (hgrow : st.ioTable.length ≤ table.length) (hslots : table.length ≤ 256)
    (hf : ∀ c, (f c).isIo = true → (f c).ioIndex.toNat < table.length ∨ (c.isIo = true ∧ (f c).ioIndex = c.ioIndex)) :
    State.Inv { st with ioTable := table, attrs := Attrs.update f lo hi st.attrs } :=
  { h with
    attributes := Attrs.wf_update f h.attributes hhi
    slots := hslots
    indexes := fun k hio => by
      have hattr := attr_update f (lo := lo) h.attributes hhi k
      simp only [State.attr] at hattr hio ⊢
      rw [hattr] at hio ⊢
      split at hio
      · rename_i hin
        rw [if_pos hin]
        rcases hf _ hio with hslot | ⟨hold, hsame⟩
        · exact hslot
        · rw [hsame]
          exact Nat.lt_of_lt_of_le (h.indexes k hold) hgrow
      · rename_i hout
        rw [if_neg hout]
        exact Nat.lt_of_lt_of_le (h.indexes k hio) hgrow }

theorem defineRom_inv {st : State} (h : st.Inv) (start finish : Int) : (defineRom start finish st).1.Inv := by
  unfold defineRom
  split
  · exact h.updateAttrs (by omega) (Nat.le_refl _) h.slots fun c hio => .inr ⟨hio, rfl⟩
  · exact h

theorem defineIo_inv {st : State} (h : st.Inv) {start finish : Int} {handler : Config.Handler} {r : State × Status}
    (e : defineIo start finish handler st = some r) : r.1.Inv := by
  unfold defineIo at e
  split at e
  · split at e
    · cases e; exact h
    · split at e
      · rename_i k table halloc
        cases e
        obtain ⟨hk, hslots, hgrow, -, -⟩ := allocate_some halloc h.slots
        refine h.updateAttrs (by omega) hgrow hslots fun c _ => .inl ?_
        exact Nat.lt_of_le_of_lt (Nat.mod_le k 256) hk
      · cases e
  · cases e; exact h

theorem storeBytes_inv {st : State} (h : st.Inv) (addr : Nat) (l : List Byte) : (storeBytes addr l st).Inv := by
  rw [storeBytes_eq]
  exact { h with memory := storeBytes_wf addr l st h.memory }

theorem load_inv {st : State} (h : st.Inv) {start length : Int} {buffer : List Byte} {r : State × Status}
    (e : load start buffer length st = some r) : r.1.Inv := by
  unfold load at e
  split at e
  · split at e
    · cases e
      refine storeBytes_inv (h.updateAttrs ?_ (Nat.le_refl _) h.slots fun c hio => by cases hio) _ _
      rw [List.length_take]
      omega
    · cases e
  · cases e; exact h

/-- Reset, and init below, clear the latch and the arming, so neither can contradict the parameter. -/
theorem resetPort_inv {st : State} (h : st.Inv) (isFirst : Bool) : (resetPort isFirst st).Inv :=
  { h with
    armed := fun ha => by cases ha
    latched := fun hl => by cases hl }

theorem init_inv {st : State} (h : st.Inv) (runAddress : Word) : (init runAddress st).Inv :=
  { h with
    armed := fun ha => by cases ha
    latched := fun hl => by cases hl
    length := Nat.zero_le 5 }

theorem nmiTrigger_inv {st : State} (h : st.Inv) : (nmiTrigger st).Inv := by
  unfold nmiTrigger
  split
  · exact h
  · rename_i hguard
    exact { h with latched := fun _ (hp : st.params.nmiArmOnSLoad = true) => by simpa [hp] using hguard }

/-- Settles O57, by the lemma of each operation; the two interrupt lines occur in no clause of the invariant. -/
theorem portsKeepInvariant : Obligations.PortsKeepInvariant := by
  intro op st t h e
  cases op with
  | initializeMemory => cases e; exact initializeMemory_inv h
  | write address value => cases e; exact hostWrite_inv h address value
  | defineRom start finish => cases e; exact defineRom_inv h start finish
  | defineIo start finish handler =>
    obtain ⟨r, hr, rfl⟩ := Option.map_eq_some_iff.1 e
    exact defineIo_inv h hr
  | load start buffer length =>
    obtain ⟨r, hr, rfl⟩ := Option.map_eq_some_iff.1 e
    exact load_inv h hr
  | reset isFirst => cases e; exact resetPort_inv h isFirst
  | init runAddress => cases e; exact init_inv h runAddress
  | nmiTrigger => cases e; exact nmiTrigger_inv h
  | firq level => cases e; exact { h with }
  | irq level => cases e; exact { h with }

end Sys2Proof.Machine
end

section
/-! The rules every step keeps: the invariant, and which calls of a handler a step adds; the interrupt inputs (spec/10_state.md). -/

namespace Sys2Proof.Machine

/-! ## The invariant under a step -/

/-- What an acknowledge can do keeps the invariant: the latch may only fall. -/
theorem State.Inv.withLatch {st : State} (h : st.Inv) {latch : Bool} (hl : latch = true → st.nmiLatch = true) :
    State.Inv { st with nmiLatch := latch } :=
  { h with latched := fun hlatch hp => h.latched (hl hlatch) hp }

/-- The length recorded is that of a decoded instruction (R121, R423). -/
theorem recordLast_inv {st : State} (h : st.Inv) (start : Word) {len : Nat} (hlen : len ≤ 5) : (recordLast start len st).Inv :=
  { h with length := Nat.le_trans (Nat.mod_le len 256) hlen }

/-- Settles O55: the acknowledge, what `step_evolves` says of every step, and the record each keep the invariant. -/
theorem stepKeepsInvariant : Obligations.StepKeepsInvariant := by
  intro st t h hstep
  obtain ⟨st1, u, hu, hst1, hlatch, ht⟩ := step_evolves hstep
  have hst1Inv : st1.Inv := by rw [hst1]; exact h.withLatch hlatch
  have huInv : u.Inv := hu.inv hst1Inv
  rcases ht with rfl | ⟨i, n, hdecode, rfl⟩
  · exact huInv
  · exact recordLast_inv huInv st.pc (decode_length hdecode).2

/-- Settles O56: memory, attributes, table and list of calls are empty, and every flag of the invariant is low. -/
theorem resetSatisfiesInvariant : Obligations.ResetSatisfiesInvariant where
  memory := rfl
  attributes := rfl
  slots := Nat.zero_le 256
  indexes := fun _ hio => by cases hio
  armed := fun harmed => by cases harmed
  latched := fun hlatch => by cases hlatch
  length := Nat.zero_le 5
  calls := fun _ hc => by cases hc

/-! ## The calls of a step -/

/-- Settles O59: what `step_evolves` says of the calls, the lines and the latch; the acknowledge before it and the record after
it touch none of the first two. -/
theorem stepCallsHandlersOnlyByWrites : Obligations.StepCallsHandlersOnlyByWrites := by
  intro st t h
  obtain ⟨st1, u, hu, hst1, hlatch, ht⟩ := step_evolves h
  obtain ⟨latch, rfl⟩ : ∃ latch, st1 = { st with nmiLatch := latch } := ⟨_, hst1⟩
  have hset : u.nmiLatch = true → st.nmiLatch = true := fun hl => hlatch (hu.nmiLatch ▸ hl)
  rcases ht with rfl | ⟨-, -, -, rfl⟩ <;> exact ⟨hu.calls, hu.lines, hset⟩

/-! ## The interrupt inputs -/

theorem nmiTrigger_keeps (st : State) : KeepsExcept [.nmiLatch] st (nmiTrigger st) := by
  intro p hp
  unfold nmiTrigger
  split
  · cases p <;> rfl
  · cases p with
    | nmiLatch => simp at hp
    | _ => rfl

theorem nmiTrigger_mem (st : State) : (nmiTrigger st).mem = st.mem := by
  unfold nmiTrigger
  split <;> rfl

theorem nmiTrigger_latch (st : State) : (nmiTrigger st).nmiLatch =
    if st.params.nmiArmOnSLoad = true ∧ st.nmiArmed = false then st.nmiLatch else true := by
  simp only [nmiTrigger, Bool.and_eq_true, Bool.not_eq_true']
  split <;> rfl

theorem firq_keeps (level : Bool) (st : State) : KeepsExcept [.firqLine] st (firq level st) := by
  intro p hp
  cases p with
  | firqLine => simp at hp
  | _ => rfl

theorem irq_keeps (level : Bool) (st : State) : KeepsExcept [.irqLine] st (irq level st) := by
  intro p hp
  cases p with
  | irqLine => simp at hp
  | _ => rfl

/-- Settles O13: each input by the lemmas of its port. -/
theorem interruptInputs : Obligations.InterruptInputs := by
  intro st
  refine ⟨⟨_, rfl, nmiTrigger_keeps st, nmiTrigger_mem st, nmiTrigger_latch st⟩, fun level => ⟨?_, ?_⟩⟩
  · exact ⟨_, rfl, firq_keeps level st, rfl, rfl⟩
  · exact ⟨_, rfl, irq_keeps level st, rfl, rfl⟩

end Sys2Proof.Machine
end

section
/-! The 16-bit loads, the effective addresses, and the transfers between registers (spec/41_load_store.md, spec/44_transfer_stack.md):
what each register write gives back and leaves alone. -/

namespace Sys2Proof.Machine

theorem KeepsExcept.refl (l : List Part) (st : State) : KeepsExcept l st st := fun p _ => by cases p <;> rfl

/-- Equal memory reads the same. -/
theorem SameBytes.of_mem {st t : State} (h : t.mem = st.mem) : SameBytes st t := fun k => by unfold memRead8; rw [h]

/-! ## The arming of NMI -/

theorem ArmedAfter.of_eq {st t : State} (h : t.nmiArmed = st.nmiArmed) : ArmedAfter false st t := by
  simp [ArmedAfter, h]

/-- Two writes one after the other: one of them may arm. -/
theorem ArmedAfter.trans {p q : Bool} {s1 s2 s3 : State} (h : ArmedAfter p s1 s2) (hparams : s2.params = s1.params)
    (h' : ArmedAfter q s2 s3) : ArmedAfter (p || q) s1 s3 := by
  simp only [ArmedAfter] at *
  rw [h', h, hparams, Bool.or_assoc, Bool.and_or_distrib_right]

/-! ## Writes to the registers of TFR and EXG, LEA and the loads of a Word -/

@[simp] theorem reg16_setReg16 (q : Reg16) (v : Word) (st : State) : (st.setReg16 q v).reg16 q = v := by
  cases q with
  | d => exact joinBytes_hi_lo v
  | _ => rfl

@[simp] theorem reg8_setReg8 (q : Reg8) (v : Byte) (st : State) : (st.setReg8 q v).reg8 q = v := by cases q <;> rfl

theorem setReg16_keeps (q : Reg16) (v : Word) (st : State) : KeepsExcept (reg16Parts q) st (st.setReg16 q v) := by
  intro p hp
  cases q with
  | d => cases p with
    | a | b => simp [reg16Parts] at hp
    | _ => rfl
  | x => cases p with
    | x => simp [reg16Parts] at hp
    | _ => rfl
  | y => cases p with
    | y => simp [reg16Parts] at hp
    | _ => rfl
  | u => cases p with
    | u => simp [reg16Parts] at hp
    | _ => rfl
  | s => cases p with
    | s | nmiArmed => simp [reg16Parts] at hp
    | _ => rfl
  | pc => cases p with
    | pc => simp [reg16Parts] at hp
    | _ => rfl

theorem setReg8_keeps (q : Reg8) (v : Byte) (st : State) : KeepsExcept [reg8Part q] st (st.setReg8 q v) := by
  intro p hp
  cases q with
  | a => cases p with
    | a => simp [reg8Part] at hp
    | _ => rfl
  | b => cases p with
    | b => simp [reg8Part] at hp
    | _ => rfl
  | cc => cases p with
    | cc => simp [reg8Part] at hp
    | _ => rfl
  | dp => cases p with
    | dp => simp [reg8Part] at hp
    | _ => rfl

theorem setCc_keeps (v : Byte) (st : State) : KeepsExcept [.cc] st (st.setCc v) := setReg8_keeps .cc v st

@[simp] theorem setReg16_mem (q : Reg16) (v : Word) (st : State) : (st.setReg16 q v).mem = st.mem := by cases q <;> rfl
@[simp] theorem setReg8_mem (q : Reg8) (v : Byte) (st : State) : (st.setReg8 q v).mem = st.mem := by cases q <;> rfl

theorem setReg16_arms (q : Reg16) (v : Word) (st : State) : ArmedAfter (decide (q = .s)) st (st.setReg16 q v) := by
  cases q with
  | s => simp [ArmedAfter, State.setReg16]
  | _ => exact .of_eq rfl

theorem setReg8_arms (q : Reg8) (v : Byte) (st : State) : ArmedAfter false st (st.setReg8 q v) := by
  cases q <;> exact .of_eq rfl

/-- A register is as it was where its parts are. -/
theorem reg16_of_same {q : Reg16} {st t : State} (h : ∀ p ∈ reg16Parts q, Same p st t) : t.reg16 q = st.reg16 q := by
  cases q with
  | d =>
    have ha : t.a = st.a := h .a (by decide)
    have hb : t.b = st.b := h .b (by decide)
    simp [State.reg16, State.d, ha, hb]
  | x => exact h .x (by decide)
  | y => exact h .y (by decide)
  | u => exact h .u (by decide)
  | s => exact h .s (by decide)
  | pc => exact h .pc (by decide)

theorem reg8_of_same {q : Reg8} {st t : State} (h : Same (reg8Part q) st t) : t.reg8 q = st.reg8 q := by
  cases q <;> exact h

/-! ## Loads of a Word -/

/-- N and Z from the Word, V cleared (R200). -/
theorem flagsAfter_ccMove16 {v : Word} {st t : State} (h : t.cc = ccMove16 v st.cc) :
    FlagsAfter st t none (some (decide (32768 ≤ v.toNat))) (some (decide (v = 0))) (some false) none := by
  simp [FlagsAfter, State.flag, h, ccMove16, ccNz16, msb16, Bool.beq_eq_decide_eq]

/-- The register as one of the TFR/EXG postbyte: a load writes it as TFR does (R34, R340). -/
def WordReg.reg16 : WordReg → Reg16
  | .d => .d
  | .x => .x
  | .y => .y
  | .u => .u
  | .s => .s

theorem exec_load (r : WordReg) (src : Src16) (st : State) :
    exec (r.load src) st = .next (load16 (State.setReg16 r.reg16) src st) := by cases r <;> rfl

theorem WordReg.val_eq (r : WordReg) (st : State) : r.val st = st.reg16 r.reg16 := by cases r <;> rfl

theorem WordReg.parts_eq (r : WordReg) : r.parts = reg16Parts r.reg16 := by cases r <;> rfl

theorem WordReg.reg16_eq_s (r : WordReg) : r.reg16 = .s ↔ r = .s := by cases r <;> decide

theorem reg16_setCc (q : Reg16) (v : Byte) (st : State) : (st.setCc v).reg16 q = st.reg16 q := by cases q <;> rfl

/-- Settles O23: the operand is resolved, the register written with it, and CC last. -/
theorem loadWord : Obligations.LoadWord := by
  intro r src st
  refine ⟨_, exec_load r src st, ?_, flagsAfter_ccMove16 ?_, ?_, reads16_of ?_ ?_⟩
  · rw [r.val_eq]
    exact (reg16_setCc ..).trans (reg16_setReg16 ..)
  · simp [load16]
  · have harms := setReg16_arms r.reg16 (operand16 src st).1 (operand16 src st).2
    simpa [ArmedAfter, load16, r.reg16_eq_s] using harms
  · rw [r.parts_eq]
    exact ((setReg16_keeps _ _ _).trans (setCc_keeps _ _)).mono (by simp [or_comm])
  · exact setReg16_mem ..

/-! ## Load effective address -/

/-- Z from the address, no other flag (R215). -/
theorem flagsAfter_ccLea {v : Word} {st t : State} (h : t.cc = ccLea v st.cc) :
    FlagsAfter st t none none (some (decide (v = 0))) none none := by
  simp [FlagsAfter, State.flag, h, ccLea, Bool.beq_eq_decide_eq]

/-- A register written with the effective address, after any change of the base register. -/
theorem lea_frame {l : List Part} {mode : Indexed} {st t : State} (h : KeepsExcept l (eaIdx mode st).2 t)
    (hm : t.mem = (eaIdx mode st).2.mem) :
    KeepsExcept l (eaIdx mode st).2 t ∧ KeepsExcept (autoParts mode ++ l) st t ∧ SameBytes st t :=
  ⟨h, (eaIdx_keeps mode st).trans h, .of_mem (hm.trans (eaIdx_mem mode st))⟩

/-- Settles O26: the address is resolved, the register written with it, and in LEAX and LEAY Z last. -/
theorem loadEffectiveAddress : Obligations.LoadEffectiveAddress := by
  intro mode st
  refine ⟨⟨_, rfl, rfl, flagsAfter_ccLea ?_, lea_frame ?_ rfl⟩, ⟨_, rfl, rfl, flagsAfter_ccLea ?_, lea_frame ?_ rfl⟩,
    ⟨_, rfl, rfl, ?_, lea_frame ?_ rfl⟩, ⟨_, rfl, rfl, lea_frame ?_ rfl⟩⟩
  · simp [leaIndex]
  · exact (setReg16_keeps .x _ _).trans (setCc_keeps _ _)
  · simp [leaIndex]
  · exact (setReg16_keeps .y _ _).trans (setCc_keeps _ _)
  · simp [ArmedAfter, leaStack]
  · exact setReg16_keeps .s _ _
  · exact setReg16_keeps .u _ _

/-! ## One register written -/

/-- Settles O42: each clause is one write of a register of the postbyte. -/
theorem transferRegister : Obligations.TransferRegister := by
  intro st
  refine ⟨fun r q => ?_, fun r q => ?_, fun r q => ?_, fun r q => ?_⟩
  · exact ⟨_, rfl, reg16_setReg16 .., setReg16_arms .., setReg16_keeps _ _ _, .of_mem (setReg16_mem ..)⟩
  · exact ⟨_, rfl, reg8_setReg8 .., setReg8_keeps _ _ _, .of_mem (setReg8_mem ..)⟩
  · exact ⟨_, rfl, reg8_setReg8 .., setReg8_keeps _ _ _, .of_mem (setReg8_mem ..)⟩
  · exact ⟨_, rfl, reg16_setReg16 .., setReg16_arms .., setReg16_keeps _ _ _, .of_mem (setReg16_mem ..)⟩

/-! ## Two registers written one after the other -/

theorem reg16Parts_disjoint {r q : Reg16} (h : r ≠ q) : ∀ p ∈ reg16Parts r, p ∉ reg16Parts q := by
  revert h
  cases r <;> cases q <;> decide

theorem reg8Part_inj {r q : Reg8} (h : reg8Part r = reg8Part q) : r = q := by
  revert h
  cases r <;> cases q <;> decide

/-- A write to one 16-bit register leaves the others alone. -/
theorem reg16_setReg16_other {r q : Reg16} (h : r ≠ q) (v : Word) (st : State) : (st.setReg16 q v).reg16 r = st.reg16 r :=
  reg16_of_same fun p hp => setReg16_keeps q v st p (reg16Parts_disjoint h p hp)

theorem reg8_setReg8_other {r q : Reg8} (h : r ≠ q) (v : Byte) (st : State) : (st.setReg8 q v).reg8 r = st.reg8 r :=
  reg8_of_same (setReg8_keeps q v st _ fun hp => h (reg8Part_inj (List.mem_singleton.1 hp)))

theorem reg8_setReg16_other {r : Reg8} {q : Reg16} (h : reg8Part r ∉ reg16Parts q) (v : Word) (st : State) :
    (st.setReg16 q v).reg8 r = st.reg8 r := reg8_of_same (setReg16_keeps q v st _ h)

theorem reg16_setReg8_other {r : Reg8} {q : Reg16} (h : reg8Part r ∉ reg16Parts q) (v : Byte) (st : State) :
    (st.setReg8 r v).reg16 q = st.reg16 q :=
  reg16_of_same fun p hp => setReg8_keeps r v st p fun hpr => h (List.mem_singleton.1 hpr ▸ hp)

/-- A swap of 16-bit registers gives the first the second's value, also where they are one. -/
theorem exg16_first (r q : Reg16) (st : State) :
    ((st.setReg16 r (st.reg16 q)).setReg16 q (st.reg16 r)).reg16 r = st.reg16 q := by
  by_cases h : r = q
  · subst h; exact reg16_setReg16 ..
  · rw [reg16_setReg16_other h, reg16_setReg16]

theorem exg8_first (r q : Reg8) (st : State) : ((st.setReg8 r (st.reg8 q)).setReg8 q (st.reg8 r)).reg8 r = st.reg8 q := by
  by_cases h : r = q
  · subst h; exact reg8_setReg8 ..
  · rw [reg8_setReg8_other h, reg8_setReg8]

theorem setReg16_params (q : Reg16) (v : Word) (st : State) : (st.setReg16 q v).params = st.params := by cases q <;> rfl

theorem setReg8_params (q : Reg8) (v : Byte) (st : State) : (st.setReg8 q v).params = st.params := by cases q <;> rfl

/-- Settles O43: the register written last holds the value moved to it, the other holds its own where the two share no part. -/
theorem exchangeRegisters : Obligations.ExchangeRegisters := by
  intro st
  refine ⟨fun r q => ?_, fun r q => ?_, fun r q => ⟨?_, ?_⟩⟩
  · exact ⟨_, rfl, exg16_first r q st, reg16_setReg16 .., (setReg16_arms ..).trans (setReg16_params ..) (setReg16_arms ..),
      (setReg16_keeps _ _ _).trans (setReg16_keeps _ _ _), .of_mem ((setReg16_mem ..).trans (setReg16_mem ..))⟩
  · exact ⟨_, rfl, exg8_first r q st, reg8_setReg8 .., (setReg8_keeps _ _ _).trans (setReg8_keeps _ _ _),
      .of_mem ((setReg8_mem ..).trans (setReg8_mem ..))⟩
  · exact ⟨_, rfl, reg16_setReg16 .., fun h => (reg8_setReg16_other h ..).trans (reg8_setReg8 ..),
      (setReg8_arms ..).trans (setReg8_params ..) (setReg16_arms ..), (setReg8_keeps _ _ _).trans (setReg16_keeps _ _ _),
      .of_mem ((setReg16_mem ..).trans (setReg8_mem ..))⟩
  · refine ⟨_, rfl, reg8_setReg8 .., fun h => (reg16_setReg8_other h ..).trans (reg16_setReg16 ..), ?_, ?_, ?_, ?_,
      .of_mem ((setReg8_mem ..).trans (setReg16_mem ..))⟩
    · rintro rfl rfl; rfl
    · rintro rfl rfl; rfl
    · rw [← Bool.or_false (decide (q = .s))]
      exact (setReg16_arms ..).trans (setReg16_params ..) (setReg8_arms ..)
    · exact ((setReg16_keeps _ _ _).trans (setReg8_keeps _ _ _)).mono (by simp [or_comm])

end Sys2Proof.Machine
end

section
/-! Push and pull (spec/44_transfer_stack.md rules R346 to R352). A pull is eight stages, one for each bit of the mask from bit 0 up;
each writes its stack pointer and the registers of its bit, so that what a stage reads and leaves is said once for all eight. -/

namespace Sys2Proof.Machine

/-- Settles O44: the push is the list of the stacked bytes pushed one after the other. -/
theorem pushRegisters : Obligations.PushRegisters := by
  intro mask st r
  have hlen := stackedBytes_length r mask st
  refine ⟨pushRegs r mask st, by cases r <;> rfl, hlen, ?_⟩
  rw [pushRegs_eq]
  refine ⟨stacked_pushList r _ st ?_, pushList_keeps r _ st, fun hio => pushList_keeps_plain ?_⟩
  · have hmax := maskBytes_le mask
    omega
  · rwa [List.length_reverse, hlen]

/-! ## A pull as eight stages -/

/-- The pull of the registers of one bit of the mask (R349). -/
def pullStage (r : StackReg) : Nat → State → State
  | 0 => pullInto8 r State.setCc
  | 1 => pullInto8 r State.setA
  | 2 => pullInto8 r State.setB
  | 3 => pullInto8 r State.setDp
  | 4 => pullInto16 r State.setX
  | 5 => pullInto16 r State.setY
  | 6 => pullInto16 r (State.loadSp r.other)
  | 7 => pullInto16 r State.setPc
  | _ => id

/-- The parts a stage writes beside its stack pointer; a pull of S on the stack of U can also arm NMI (R34). -/
def pulledParts (r : StackReg) : Nat → List Part
  | 0 => [.cc]
  | 1 => [.a]
  | 2 => [.b]
  | 3 => [.dp]
  | 4 => [.x]
  | 5 => [.y]
  | 6 => match r with
    | .s => [.u]
    | .u => [.s, .nmiArmed]
  | 7 => [.pc]
  | _ => []

/-- The state after the first stages of a pull. -/
def pullUpTo (r : StackReg) (mask : Byte) (st : State) : Nat → State
  | 0 => st
  | k + 1 => onBit mask k (pullStage r k) (pullUpTo r mask st k)

/-- How many bytes the stages of the lower bits of a mask pull (R346). -/
def bytesBelow (mask : Byte) (bit : Nat) : Nat := maskBytes (mask &&& BitVec.ofNat 8 (2 ^ bit - 1))

theorem pullRegs_eq_pullUpTo (r : StackReg) (mask : Byte) (st : State) : pullRegs r mask st = pullUpTo r mask st 8 := rfl

section
variable (r : StackReg) (mask : Byte) (st : State)

theorem setSp_keeps (v : Word) : KeepsExcept [spPart r] st (st.setSp r v) := by
  intro p hp
  cases r with
  | s => cases p with
    | s => simp [spPart] at hp
    | _ => rfl
  | u => cases p with
    | u => simp [spPart] at hp
    | _ => rfl

theorem pullInto8_keeps {l : List Part} {set : Byte → State → State} (hset : ∀ v s, KeepsExcept l s (set v s)) :
    KeepsExcept (spPart r :: l) st (pullInto8 r set st) := (setSp_keeps r st _).trans (hset _ _)

theorem pullInto16_keeps {l : List Part} {set : Word → State → State} (hset : ∀ v s, KeepsExcept l s (set v s)) :
    KeepsExcept (spPart r :: l) st (pullInto16 r set st) := (setSp_keeps r st _).trans (hset _ _)

theorem pullStage_keeps (k : Nat) : KeepsExcept (spPart r :: pulledParts r k) st (pullStage r k st) := by
  match k with
  | 0 => exact pullInto8_keeps r st (setReg8_keeps .cc)
  | 1 => exact pullInto8_keeps r st (setReg8_keeps .a)
  | 2 => exact pullInto8_keeps r st (setReg8_keeps .b)
  | 3 => exact pullInto8_keeps r st (setReg8_keeps .dp)
  | 4 => exact pullInto16_keeps r st (setReg16_keeps .x)
  | 5 => exact pullInto16_keeps r st (setReg16_keeps .y)
  | 6 => cases r with
    | s => exact pullInto16_keeps .s st (setReg16_keeps .u)
    | u => exact pullInto16_keeps .u st (setReg16_keeps .s)
  | 7 => exact pullInto16_keeps r st (setReg16_keeps .pc)
  | k + 8 => exact .refl _ st

theorem pullStage_mem (k : Nat) : (pullStage r k st).mem = st.mem := by
  match k with
  | 0 | 1 | 2 | 3 | 4 | 5 | 6 | 7 => cases r <;> rfl
  | k + 8 => rfl

theorem pullStage_sp {k : Nat} (hk : k < 8) :
    (pullStage r k st).sp r = st.sp r + BitVec.ofNat 16 (if k < 4 then 1 else 2) := by
  match k with
  | 0 | 1 | 2 | 3 | 4 | 5 | 6 | 7 => cases r <;> rfl

theorem pullUpTo_succ (k : Nat) :
    pullUpTo r mask st (k + 1) = onBit mask k (pullStage r k) (pullUpTo r mask st k) := rfl

theorem pullUpTo_mem (k : Nat) : (pullUpTo r mask st k).mem = st.mem := by
  induction k with
  | zero => rfl
  | succ k ih =>
    rw [pullUpTo_succ, onBit]
    split
    · rw [pullStage_mem, ih]
    · exact ih

/-- A part that no stage from one to another writes where the mask names its bit. -/
theorem pullUpTo_same_of_mask {p : Part} {m n : Nat} (hmn : m ≤ n)
    (hp : ∀ j < n, m ≤ j → mask.getLsbD j = true → p ∉ spPart r :: pulledParts r j) :
    Same p (pullUpTo r mask st m) (pullUpTo r mask st n) := by
  induction n, hmn using Nat.le_induction with
  | base => exact KeepsExcept.refl [] _ p List.not_mem_nil
  | succ n hmn ih =>
    refine (ih fun j hj => hp j (by omega)).trans ?_
    rw [pullUpTo_succ, onBit]
    split
    · rename_i hbit
      exact pullStage_keeps r _ n p (hp n (by omega) hmn hbit)
    · exact KeepsExcept.refl [] _ p List.not_mem_nil

theorem pullUpTo_same {p : Part} {m n : Nat} (hmn : m ≤ n) (hp : ∀ j < n, m ≤ j → p ∉ spPart r :: pulledParts r j) :
    Same p (pullUpTo r mask st m) (pullUpTo r mask st n) :=
  pullUpTo_same_of_mask r mask st hmn fun j hj hmj _ => hp j hj hmj

theorem bytesBelow_succ {k : Nat} (hk : k < 8) :
    bytesBelow mask (k + 1) = bytesBelow mask k + if mask.getLsbD k then (if k < 4 then 1 else 2) else 0 := by
  match k with
  | 0 => simp [bytesBelow, maskBytes]
  | 1 | 2 | 3 | 4 | 5 | 6 | 7 => simp [bytesBelow, maskBytes]; ac_rfl

/-- The stages before a bit have moved the stack pointer by their bytes. -/
theorem pullUpTo_sp {k : Nat} (hk : k ≤ 8) : (pullUpTo r mask st k).sp r = st.sp r + BitVec.ofNat 16 (bytesBelow mask k) := by
  induction k with
  | zero => simp [pullUpTo, bytesBelow, maskBytes]
  | succ k ih =>
    rw [bytesBelow_succ mask (by omega), BitVec.ofNat_add, ← BitVec.add_assoc, ← ih (by omega)]
    rw [pullUpTo_succ, onBit]
    split
    · exact pullStage_sp r _ hk
    · simp

theorem bytesBelow_eight : bytesBelow mask 8 = maskBytes mask := congrArg maskBytes (BitVec.and_allOnes (x := mask))

variable {r mask st}

/-- What one stage alone writes is as that stage leaves it. -/
theorem pullRegs_of_stage {α : Type} {get : State → α} {p : Part} {k : Nat} (hk : k < 8)
    (hpart : ∀ s t, Same p s t → get t = get s) (hp : ∀ j < 8, j ≠ k → p ∉ spPart r :: pulledParts r j) :
    get (pullRegs r mask st) = if mask.getLsbD k then get (pullStage r k (pullUpTo r mask st k)) else get st := by
  have hbefore : Same p st (pullUpTo r mask st k) :=
    pullUpTo_same r mask st (Nat.zero_le k) fun j hj _ => hp j (by omega) (by omega)
  have hafter : Same p (pullUpTo r mask st (k + 1)) (pullUpTo r mask st 8) :=
    pullUpTo_same r mask st hk fun j hj hkj => hp j hj (by omega)
  rw [pullRegs_eq_pullUpTo, hpart _ _ hafter, pullUpTo_succ, onBit]
  split
  · rfl
  · exact hpart _ _ hbefore

/-- A part of one stage alone is left where the mask does not name its bit. -/
theorem pullRegs_same {p : Part} {k : Nat} (hp : ∀ j < 8, j ≠ k → p ∉ spPart r :: pulledParts r j)
    (hk : mask.getLsbD k = false) : Same p st (pullRegs r mask st) := by
  refine pullUpTo_same_of_mask r mask st (Nat.zero_le 8) fun j hj _ hbit => hp j hj ?_
  rintro rfl
  simp [hk] at hbit

/-- A byte register takes the byte at its place (R349). -/
theorem pullRegs_byte {get : State → Byte} {set : Byte → State → State} {p : Part} {k : Nat} (hk : k < 8)
    (hpart : ∀ s t, Same p s t → get t = get s) (hp : ∀ j < 8, j ≠ k → p ∉ spPart r :: pulledParts r j)
    (hstage : pullStage r k = pullInto8 r set) (hset : ∀ v s, get (set v s) = v) : get (pullRegs r mask st) =
      if mask.getLsbD k then memRead8 (st.sp r + BitVec.ofNat 16 (bytesBelow mask k)) st else get st := by
  have hread : get (pullStage r k (pullUpTo r mask st k)) =
      memRead8 (st.sp r + BitVec.ofNat 16 (bytesBelow mask k)) st := by
    rw [hstage, pullInto8, hset, pull8, pullUpTo_sp r mask st hk.le, memRead8, pullUpTo_mem, memRead8]
  rw [pullRegs_of_stage hk hpart hp, hread]

/-- A Word register takes the Word at its place, high byte first (R349, R24). -/
theorem pullRegs_word {get : State → Word} {set : Word → State → State} {p : Part} {k : Nat} (hk : k < 8)
    (hpart : ∀ s t, Same p s t → get t = get s) (hp : ∀ j < 8, j ≠ k → p ∉ spPart r :: pulledParts r j)
    (hstage : pullStage r k = pullInto16 r set) (hset : ∀ v s, get (set v s) = v) : get (pullRegs r mask st) =
      if mask.getLsbD k then memRead16 (st.sp r + BitVec.ofNat 16 (bytesBelow mask k)) st else get st := by
  have hread : get (pullStage r k (pullUpTo r mask st k)) =
      memRead16 (st.sp r + BitVec.ofNat 16 (bytesBelow mask k)) st := by
    rw [hstage, pullInto16, hset, pull16, pullUpTo_sp r mask st hk.le]
    simp only [memRead16, memRead8, pullUpTo_mem]
  rw [pullRegs_of_stage hk hpart hp, hread]

end

/-- A pull moves the registers and can arm NMI, and leaves every other part alone. -/
theorem pullRegs_keeps (r : StackReg) (mask : Byte) (st : State) :
    KeepsExcept [.cc, .a, .b, .dp, .x, .y, .u, .s, .pc, .nmiArmed] st (pullRegs r mask st) := by
  intro p hp
  refine pullUpTo_same r mask st (Nat.zero_le 8) fun j hj _ hpj => hp ?_
  have hparts : ∀ j < 8, ∀ p ∈ spPart r :: pulledParts r j,
      p ∈ [Part.cc, .a, .b, .dp, .x, .y, .u, .s, .pc, .nmiArmed] := by cases r <;> decide
  exact hparts j hj p hpj

theorem pullRegs_sp (r : StackReg) (mask : Byte) (st : State) :
    (pullRegs r mask st).sp r = st.sp r + BitVec.ofNat 16 (maskBytes mask) := by
  rw [pullRegs_eq_pullUpTo, pullUpTo_sp r mask st (Nat.le_refl 8), bytesBelow_eight]

theorem sp_of_same {r : StackReg} {st t : State} (h : Same (spPart r) st t) : t.sp r = st.sp r := by cases r <;> exact h

theorem sp_loadSp (r : StackReg) (v : Word) (st : State) : (st.loadSp r v).sp r = v := by cases r <;> rfl

/-- Only the pull of S from the stack of U arms (R34, R352). -/
theorem pullRegs_arms (r : StackReg) (mask : Byte) (st : State) :
    ArmedAfter (decide (r = .u) && mask.getLsbD 6) st (pullRegs r mask st) := by
  have harmed := pullRegs_of_stage (r := r) (mask := mask) (st := st) (k := 6) (p := .nmiArmed) (get := State.nmiArmed)
    (by decide) (fun _ _ => id) (by cases r <;> decide)
  have hbefore : (pullUpTo r mask st 6).nmiArmed = st.nmiArmed :=
    pullUpTo_same (p := .nmiArmed) r mask st (Nat.zero_le 6) (by cases r <;> decide)
  have hparams : (pullUpTo r mask st 6).params = st.params :=
    pullUpTo_same (p := .params) r mask st (Nat.zero_le 6) (by cases r <;> decide)
  rw [ArmedAfter, harmed, ← hparams, ← hbefore]
  cases mask.getLsbD 6
  · simp
  · cases r
    · exact (Bool.or_false _).symm
    · rfl

/-- Settles O45: each register by the one stage that writes it. -/
theorem pullRegisters : Obligations.PullRegisters := by
  intro mask st r
  refine ⟨pullRegs r mask st, by cases r <;> rfl, ⟨pullRegs_sp r mask st, ?_, ?_, ?_, ?_, ?_, ?_, ?_, ?_⟩,
    pullRegs_arms r mask st, pullRegs_keeps r mask st, .of_mem (pullRegs_mem r mask st)⟩
  · exact pullRegs_byte (k := 0) (p := .cc) (by decide) (fun _ _ => id) (by cases r <;> decide) rfl fun _ _ => rfl
  · exact pullRegs_byte (k := 1) (p := .a) (by decide) (fun _ _ => id) (by cases r <;> decide) rfl fun _ _ => rfl
  · exact pullRegs_byte (k := 2) (p := .b) (by decide) (fun _ _ => id) (by cases r <;> decide) rfl fun _ _ => rfl
  · exact pullRegs_byte (k := 3) (p := .dp) (by decide) (fun _ _ => id) (by cases r <;> decide) rfl fun _ _ => rfl
  · exact pullRegs_word (k := 4) (p := .x) (by decide) (fun _ _ => id) (by cases r <;> decide) rfl fun _ _ => rfl
  · exact pullRegs_word (k := 5) (p := .y) (by decide) (fun _ _ => id) (by cases r <;> decide) rfl fun _ _ => rfl
  · exact pullRegs_word (k := 6) (p := spPart r.other) (by decide) (fun _ _ => sp_of_same) (by cases r <;> decide) rfl
      (sp_loadSp r.other)
  · exact pullRegs_word (k := 7) (p := .pc) (by decide) (fun _ _ => id) (by cases r <;> decide) rfl fun _ _ => rfl

end Sys2Proof.Machine
end

section
/-! Which instructions can change the control state (spec/10_state.md rules R26 to R34): the flags H, I, F and E, DP, the arming of
NMI and the execution state. What each shape of instruction leaves of it is said once; every instruction is then one of the shapes. -/

namespace Sys2Proof.Machine

/-! ## The control state and what is left of it -/

/-- The flags that are no result of arithmetic or logic, but for H (R28, D10). -/
def controlFlags : List Flag := [.h, .i, .f, .e]

/-- The parts of the control state. -/
inductive Control where
  | flag (k : Flag)
  | dp
  | nmiArmed
  | execState
deriving DecidableEq

/-- The part is the same in both states; of a flag outside `controlFlags` nothing is said. -/
def Control.Same : Control → State → State → Prop
  | .flag k, st, t => k ∈ controlFlags → t.flag k = st.flag k
  | .dp, st, t => t.dp = st.dp
  | .nmiArmed, st, t => t.nmiArmed = st.nmiArmed
  | .execState, st, t => t.execState = st.execState

/-- Every part of the control state is the same but for those named. -/
structure KeepsControl (l : List Control) (st t : State) : Prop where
  same : ∀ c ∉ l, c.Same st t

/-- The flags of the control state are the same in two CC bytes but for those named. -/
structure KeepsFlags (l : List Control) (p q : Byte) : Prop where
  same : ∀ k ∈ controlFlags, Control.flag k ∉ l → flag k q = flag k p

/-- The registers that hold the control state. -/
def State.controls (st : State) : Byte × Byte × Bool × ExecState := (st.cc, st.dp, st.nmiArmed, st.execState)

/-- An update of other registers, or of memory. -/
theorem KeepsControl.quiet {l : List Control} {st t : State} (h : t.controls = st.controls) : KeepsControl l st t := by
  simp only [State.controls, Prod.mk.injEq] at h
  obtain ⟨hcc, hdp, harmed, hexec⟩ := h
  refine ⟨fun c _ => ?_⟩
  cases c with
  | flag k => exact fun _ => congrArg (flag k) hcc
  | dp => exact hdp
  | nmiArmed => exact harmed
  | execState => exact hexec

theorem Control.Same.trans {c : Control} {s1 s2 s3 : State} (h : c.Same s1 s2) (h' : c.Same s2 s3) : c.Same s1 s3 := by
  cases c with
  | flag k => exact fun hk => (h' hk).trans (h hk)
  | _ => exact Eq.trans h' h

/-- Two changes one after the other, each of parts of one list. -/
theorem KeepsControl.trans {l : List Control} {s1 s2 s3 : State} (h : KeepsControl l s1 s2) (h' : KeepsControl l s2 s3) :
    KeepsControl l s1 s3 := ⟨fun c hc => (h.same c hc).trans (h'.same c hc)⟩

theorem KeepsControl.mono {l m : List Control} {st t : State} (h : KeepsControl l st t) (hl : l ⊆ m) : KeepsControl m st t :=
  ⟨fun c hc => h.same c fun hcl => hc (hl hcl)⟩

/-- CC written, computed from the CC before. -/
theorem KeepsControl.setCc {l : List Control} {st t : State} {cc : Byte} (h : KeepsControl l st t)
    (hcc : KeepsFlags l st.cc cc) : KeepsControl l st (t.setCc cc) := by
  refine ⟨fun c hc => ?_⟩
  cases c with
  | flag k => exact fun hk => hcc.same k hk hc
  | dp => exact h.same .dp hc
  | nmiArmed => exact h.same .nmiArmed hc
  | execState => exact h.same .execState hc

/-! ## The flag computations -/

section
variable {l : List Control} {p q : Byte}

theorem KeepsFlags.refl (l : List Control) (p : Byte) : KeepsFlags l p p := ⟨fun _ _ _ => rfl⟩

/-- A flag written that is not of the control state, or is one of those named. -/
theorem KeepsFlags.putNamedFlag {k : Flag} {v : Bool} (h : KeepsFlags l p q) (hk : k ∈ controlFlags → Control.flag k ∈ l) :
    KeepsFlags l p (Machine.putFlag k v q) := by
  refine ⟨fun j hj hjl => ?_⟩
  have hne : j ≠ k := by
    rintro rfl
    exact hjl (hk hj)
  rw [flag_putFlag, if_neg hne]
  exact h.same j hj hjl

theorem KeepsFlags.putFlag {k : Flag} {v : Bool} (h : KeepsFlags l p q) (hk : k ∉ controlFlags := by decide) :
    KeepsFlags l p (Machine.putFlag k v q) := h.putNamedFlag fun hmem => absurd hmem hk

theorem KeepsFlags.nz8 {v : Byte} (h : KeepsFlags l p q) : KeepsFlags l p (ccNz8 v q) := h.putFlag.putFlag
theorem KeepsFlags.nz16 {v : Word} (h : KeepsFlags l p q) : KeepsFlags l p (ccNz16 v q) := h.putFlag.putFlag
end

section
variable (l : List Control) (cc : Byte)
theorem ccMove8_keeps (v : Byte) : KeepsFlags l cc (ccMove8 v cc) := (KeepsFlags.refl l cc).nz8.putFlag
theorem ccMove16_keeps (v : Word) : KeepsFlags l cc (ccMove16 v cc) := (KeepsFlags.refl l cc).nz16.putFlag
theorem ccLea_keeps (v : Word) : KeepsFlags l cc (ccLea v cc) := (KeepsFlags.refl l cc).putFlag
theorem ccAdd8_keeps (a b : Byte) (c : Bool) : KeepsFlags [.flag .h] cc (ccAdd8 a b c cc) :=
  (KeepsFlags.refl _ cc).nz8.putFlag.putFlag.putNamedFlag (by decide)
theorem ccSub8_keeps (a b : Byte) (c : Bool) : KeepsFlags l cc (ccSub8 a b c cc) := (KeepsFlags.refl l cc).nz8.putFlag.putFlag
theorem ccAdd16_keeps (a b : Word) : KeepsFlags l cc (ccAdd16 a b cc) := (KeepsFlags.refl l cc).nz16.putFlag.putFlag
theorem ccSub16_keeps (a b : Word) : KeepsFlags l cc (ccSub16 a b cc) := (KeepsFlags.refl l cc).nz16.putFlag.putFlag
theorem ccNeg_keeps (m : Byte) : KeepsFlags l cc (ccNeg m cc) := (KeepsFlags.refl l cc).putFlag.putFlag.nz8
theorem ccInc_keeps (m : Byte) : KeepsFlags l cc (ccInc m cc) := (KeepsFlags.refl l cc).putFlag.nz8
theorem ccDec_keeps (m : Byte) : KeepsFlags l cc (ccDec m cc) := (KeepsFlags.refl l cc).putFlag.nz8
theorem ccCom_keeps (m : Byte) : KeepsFlags l cc (ccCom m cc) := (KeepsFlags.refl l cc).nz8.putFlag.putFlag
theorem ccClr_keeps : KeepsFlags l cc (ccClr cc) := (KeepsFlags.refl l cc).putFlag.putFlag.putFlag.putFlag
theorem ccAsl_keeps (m : Byte) : KeepsFlags l cc (ccAsl m cc) := (KeepsFlags.refl l cc).putFlag.putFlag.nz8
theorem ccAsr_keeps (m : Byte) : KeepsFlags l cc (ccAsr m cc) := (KeepsFlags.refl l cc).putFlag.nz8
theorem ccLsr_keeps (m : Byte) : KeepsFlags l cc (ccLsr m cc) := (KeepsFlags.refl l cc).putFlag.putFlag.putFlag
theorem ccRol_keeps (m : Byte) : KeepsFlags l cc (ccRol m cc) := (KeepsFlags.refl l cc).putFlag.putFlag.nz8
theorem ccRor_keeps (m : Byte) : KeepsFlags l cc (ccRor m cc) := (KeepsFlags.refl l cc).putFlag.nz8
theorem ccMul_keeps (v : Word) : KeepsFlags l cc (ccMul v cc) := (KeepsFlags.refl l cc).putFlag.putFlag
theorem ccDaa_keeps (v : Bool) (a : Byte) : KeepsFlags l cc (ccDaa v a cc) := (KeepsFlags.refl l cc).putFlag.nz8.putFlag
end

/-! ## The shared operations -/

section
variable {l : List Control}

theorem keepsControl_ea (m : MemOp) (st : State) : KeepsControl l st (ea m st).2 := .quiet (by simp [State.controls])
theorem keepsControl_eaIdx (m : Indexed) (st : State) : KeepsControl l st (eaIdx m st).2 := .quiet (by simp [State.controls])
theorem keepsControl_operand8 (src : Src8) (st : State) : KeepsControl l st (operand8 src st).2 :=
  .quiet (by simp [State.controls])
theorem keepsControl_operand16 (src : Src16) (st : State) : KeepsControl l st (operand16 src st).2 :=
  .quiet (by simp [State.controls])
theorem keepsControl_memWrite8 (k : Word) (v : Byte) (st : State) : KeepsControl l st (memWrite8 k v st) :=
  .quiet (by simp [State.controls])
theorem keepsControl_memWrite16 (k : Word) (v : Word) (st : State) : KeepsControl l st (memWrite16 k v st) :=
  .quiet (by simp [State.controls])
theorem keepsControl_pushList (r : StackReg) (bytes : List Byte) (st : State) : KeepsControl l st (pushList r bytes st) :=
  .quiet (by simp [State.controls])
theorem keepsControl_pushRegs (r : StackReg) (mask : Byte) (st : State) : KeepsControl l st (pushRegs r mask st) := by
  rw [pushRegs_eq]; exact keepsControl_pushList ..
theorem keepsControl_stackFrame (entire : Bool) (st : State) : KeepsControl l st (stackFrame entire st) := by
  rw [stackFrame_eq]; exact keepsControl_pushList ..
theorem keepsControl_branchTo (k : Cond) (target : Word) (st : State) : KeepsControl l st (branchTo k target st) := by
  unfold branchTo
  split <;> exact .quiet rfl
theorem keepsControl_callTo (target : Word) (st : State) : KeepsControl l st (callTo target st) :=
  (keepsControl_pushList .s [loByte st.pc, hiByte st.pc] st).trans (.quiet rfl)

theorem keepsControl_load8 {set : Byte → State → State} (hset : ∀ v st, KeepsControl l st (set v st)) (src : Src8)
    (st : State) : KeepsControl l st (load8 set src st) :=
  (keepsControl_operand8 src st).trans ((hset _ _).setCc (ccMove8_keeps ..))

theorem keepsControl_load16 {set : Word → State → State} (hset : ∀ v st, KeepsControl l st (set v st)) (src : Src16)
    (st : State) : KeepsControl l st (load16 set src st) :=
  (keepsControl_operand16 src st).trans ((hset _ _).setCc (ccMove16_keeps ..))

theorem keepsControl_store8 (get : State → Byte) (dst : MemOp) (st : State) : KeepsControl l st (store8 get dst st) :=
  (keepsControl_ea dst st).trans ((keepsControl_memWrite8 ..).setCc (ccMove8_keeps ..))

theorem keepsControl_store16 (get : State → Word) (dst : MemOp) (st : State) : KeepsControl l st (store16 get dst st) :=
  (keepsControl_ea dst st).trans ((keepsControl_memWrite16 ..).setCc (ccMove16_keeps ..))

theorem keepsControl_leaIndex {set : Word → State → State} (hset : ∀ v st, KeepsControl l st (set v st)) (mode : Indexed)
    (st : State) : KeepsControl l st (leaIndex set mode st) :=
  (keepsControl_eaIdx mode st).trans ((hset _ _).setCc (ccLea_keeps ..))

theorem keepsControl_leaStack {set : Word → State → State} (hset : ∀ v st, KeepsControl l st (set v st)) (mode : Indexed)
    (st : State) : KeepsControl l st (leaStack set mode st) := (keepsControl_eaIdx mode st).trans (hset _ _)

theorem keepsControl_alu8 {get : State → Byte} {set : Byte → State → State} {f fl : Byte → Byte → Byte → Byte}
    (hset : ∀ v st, KeepsControl l st (set v st)) (hfl : ∀ a m cc, KeepsFlags l cc (fl a m cc)) (src : Src8) (st : State) :
    KeepsControl l st (alu8 get set f fl src st) := (keepsControl_operand8 src st).trans ((hset _ _).setCc (hfl ..))

theorem keepsControl_test8 {get : State → Byte} {fl : Byte → Byte → Byte → Byte} (hfl : ∀ a m cc, KeepsFlags l cc (fl a m cc))
    (src : Src8) (st : State) : KeepsControl l st (test8 get fl src st) :=
  KeepsControl.setCc (keepsControl_operand8 src st) (by simpa using hfl _ _ _)

theorem keepsControl_aluD {f : Word → Word → Word} {fl : Word → Word → Byte → Byte}
    (hfl : ∀ d m cc, KeepsFlags l cc (fl d m cc)) (src : Src16) (st : State) : KeepsControl l st (aluD f fl src st) :=
  (keepsControl_operand16 src st).trans (KeepsControl.setCc (.quiet rfl) (hfl ..))

theorem keepsControl_compare16 (get : State → Word) (src : Src16) (st : State) : KeepsControl l st (compare16 get src st) :=
  (keepsControl_operand16 src st).trans (KeepsControl.setCc (.quiet rfl) (ccSub16_keeps ..))

theorem keepsControl_modifyMem {f fl : Byte → Byte → Byte} (hfl : ∀ cc m, KeepsFlags l cc (fl m cc)) (dst : MemOp)
    (st : State) : KeepsControl l st (modifyMem f fl dst st) :=
  (keepsControl_ea dst st).trans ((keepsControl_memWrite8 ..).setCc (hfl ..))

theorem keepsControl_modifyReg {get : State → Byte} {set : Byte → State → State} {f fl : Byte → Byte → Byte}
    (hset : ∀ v st, KeepsControl l st (set v st)) (hfl : ∀ cc m, KeepsFlags l cc (fl m cc)) (st : State) :
    KeepsControl l st (modifyReg get set f fl st) := (hset _ _).setCc (hfl ..)

end

/-! ## Transfers, pulls and entries -/

/-- What a write of the whole of CC can change. -/
def ccControls : List Control := controlFlags.map .flag

/-- What a write of a register of the TFR/EXG postbyte can change (R34, R340). -/
def regControls : Reg → List Control
  | .r8 .cc => ccControls
  | .r8 .dp => [.dp]
  | .r16 .s => [.nmiArmed]
  | .r8 .a | .r8 .b | .r16 .d | .r16 .x | .r16 .y | .r16 .u | .r16 .pc => []

/-- What a pull can change: CC, DP, and the arming where it pulls S from the stack of U (R34, R349). -/
def pullControls (r : StackReg) (mask : Byte) : List Control :=
  (if mask.getLsbD 0 then ccControls else []) ++ (if mask.getLsbD 3 then [.dp] else []) ++
    (if r = .u ∧ mask.getLsbD 6 then [.nmiArmed] else [])

/-- What taking an interrupt or trap can change: E, and the masks it sets (R431). -/
def entryControls (k : EntryKind) : List Control :=
  .flag .e :: (if k.setsI then [.flag .i] else []) ++ (if k.setsF then [.flag .f] else [])

theorem keepsControl_of_cc {l : List Control} {st t : State} (hl : ccControls ⊆ l) (hdp : t.dp = st.dp)
    (harmed : t.nmiArmed = st.nmiArmed) (hexec : t.execState = st.execState) : KeepsControl l st t := by
  refine ⟨fun c hc => ?_⟩
  cases c with
  | flag k => exact fun hk => absurd (hl (List.mem_map_of_mem hk)) hc
  | dp => exact hdp
  | nmiArmed => exact harmed
  | execState => exact hexec

theorem keepsControl_setDp (v : Byte) (st : State) : KeepsControl [.dp] st (st.setDp v) := by
  refine ⟨fun c hc => ?_⟩
  cases c with
  | dp => simp at hc
  | flag k => exact fun _ => rfl
  | nmiArmed | execState => rfl

theorem keepsControl_loadS (v : Word) (st : State) : KeepsControl [.nmiArmed] st (st.loadS v) := by
  refine ⟨fun c hc => ?_⟩
  cases c with
  | nmiArmed => simp at hc
  | flag k => exact fun _ => rfl
  | dp | execState => rfl

theorem keepsControl_setExecState (v : ExecState) (st : State) : KeepsControl [.execState] st (st.setExecState v) := by
  refine ⟨fun c hc => ?_⟩
  cases c with
  | execState => simp at hc
  | flag k => exact fun _ => rfl
  | dp | nmiArmed => rfl

theorem keepsControl_setReg8 (q : Reg8) (v : Byte) (st : State) : KeepsControl (regControls (.r8 q)) st (st.setReg8 q v) := by
  cases q with
  | cc => exact keepsControl_of_cc (List.Subset.refl _) rfl rfl rfl
  | dp => exact keepsControl_setDp v st
  | a | b => exact .quiet rfl

theorem keepsControl_setReg16 (q : Reg16) (v : Word) (st : State) :
    KeepsControl (regControls (.r16 q)) st (st.setReg16 q v) := by
  cases q with
  | s => exact keepsControl_loadS v st
  | d | x | y | u | pc => exact .quiet rfl

theorem keepsControl_transferTo (dst src : Reg) (old st : State) : KeepsControl (regControls dst) st (transferTo dst src old st) := by
  cases dst with
  | r8 q => cases src <;> exact keepsControl_setReg8 ..
  | r16 q => cases src <;> exact keepsControl_setReg16 ..

theorem keepsControl_pullRegs (r : StackReg) (mask : Byte) (st : State) :
    KeepsControl (pullControls r mask) st (pullRegs r mask st) := by
  refine ⟨fun c hc => ?_⟩
  simp only [pullControls, List.mem_append, not_or] at hc
  obtain ⟨⟨hcc, hdp⟩, harmed⟩ := hc
  cases c with
  | flag k =>
    intro hk
    have hbit : mask.getLsbD 0 = false := by simpa [ccControls, hk] using hcc
    have hsame : Same .cc st (pullRegs r mask st) := pullRegs_same (k := 0) (by cases r <;> decide) hbit
    exact congrArg (flag k) hsame
  | dp => exact pullRegs_same (p := .dp) (k := 3) (by cases r <;> decide) (by simpa using hdp)
  | nmiArmed =>
    have harms : (pullRegs r mask st).nmiArmed =
        (st.nmiArmed || (decide (r = .u) && mask.getLsbD 6 && st.params.nmiArmOnSLoad)) := pullRegs_arms r mask st
    have hbit : (decide (r = .u) && mask.getLsbD 6) = false := by simpa using harmed
    rw [hbit, Bool.false_and, Bool.or_false] at harms
    exact harms
  | execState => exact pullRegs_keeps r mask st .execState (by decide)

theorem masks_keeps (k : EntryKind) (cc : Byte) : KeepsFlags (entryControls k) cc (k.masks cc) := by
  refine ⟨fun j _ hj => ?_⟩
  rw [flag_masks]
  split
  · rename_i hji
    subst hji
    have hi : k.setsI = false := by simpa [entryControls] using hj
    simp [hi]
  · split
    · rename_i hjf
      subst hjf
      have hf : k.setsF = false := by simpa [entryControls] using hj
      simp [hf]
    · rfl

theorem ccWithE_keeps (k : EntryKind) (cc : Byte) : KeepsFlags (entryControls k) cc (ccWithE k.entire cc) := by
  refine ⟨fun j _ hj => ?_⟩
  have hne : j ≠ .e := by
    rintro rfl
    simp [entryControls] at hj
  rw [flag_ccWithE, if_neg hne]

theorem keepsControl_takeInterrupt (k : EntryKind) (st : State) : KeepsControl (entryControls k) st (takeInterrupt k st) := by
  have hwriteE : KeepsControl (entryControls k) st (st.setCc (ccWithE k.entire st.cc)) :=
    KeepsControl.setCc (.quiet rfl) (ccWithE_keeps ..)
  have hvector (s : State) : KeepsControl (entryControls k) s (vectorTo k s) :=
    (KeepsControl.setCc (.quiet rfl) (masks_keeps ..)).trans (.quiet rfl)
  exact (hwriteE.trans (keepsControl_stackFrame ..)).trans (hvector _)

theorem keepsControl_returnFromInterrupt (st : State) : KeepsControl (.dp :: ccControls) st (returnFromInterrupt st) := by
  have hcc : KeepsControl (.dp :: ccControls) st (pullInto8 .s State.setCc st) :=
    keepsControl_of_cc (by simp) rfl rfl rfl
  refine hcc.trans ?_
  simp only [returnFromInterrupt]
  split
  · exact (keepsControl_pullRegs ..).mono (by decide)
  · exact .quiet rfl

/-! ## Every instruction -/

/-- The parts of the control state an instruction can change. -/
def controlsWritten : Instr → List Control
  | .adda _ | .addb _ | .adca _ | .adcb _ => [.flag .h]
  | .andcc _ | .orcc _ => ccControls
  | .cwai _ => .execState :: ccControls
  | .rti => .dp :: ccControls
  | .tfr _ dst => regControls dst
  | .exg r q => regControls r ++ regControls q
  | .puls mask => pullControls .s mask
  | .pulu mask => pullControls .u mask
  | .lds _ | .leas _ => [.nmiArmed]
  | .swi => entryControls .swi
  | .swi2 => entryControls .swi2
  | .swi3 => entryControls .swi3
  | .sync => [.execState]
  | _ => []

/-- An instruction leaves every other part of the control state alone. -/
theorem exec_keepsControl {i : Instr} {st t : State} (h : exec i st = .next t) : KeepsControl (controlsWritten i) st t := by
  cases i with
  | lda _ | ldb _ => obtain rfl := next_eq h; exact keepsControl_load8 (fun _ _ => by exact .quiet rfl) ..
  | ldd _ | ldx _ | ldy _ | ldu _ => obtain rfl := next_eq h; exact keepsControl_load16 (fun _ _ => by exact .quiet rfl) ..
  | lds _ => obtain rfl := next_eq h; exact keepsControl_load16 keepsControl_loadS ..
  | sta _ | stb _ => obtain rfl := next_eq h; exact keepsControl_store8 ..
  | std _ | stx _ | sty _ | stu _ | sts _ => obtain rfl := next_eq h; exact keepsControl_store16 ..
  | leax _ | leay _ => obtain rfl := next_eq h; exact keepsControl_leaIndex (fun _ _ => by exact .quiet rfl) ..
  | leas _ => obtain rfl := next_eq h; exact keepsControl_leaStack keepsControl_loadS ..
  | leau _ => obtain rfl := next_eq h; exact keepsControl_leaStack (fun _ _ => by exact .quiet rfl) ..
  | adda _ | addb _ | adca _ | adcb _ =>
    obtain rfl := next_eq h
    exact keepsControl_alu8 (fun _ _ => by exact .quiet rfl) (fun _ _ _ => ccAdd8_keeps ..) ..
  | suba _ | subb _ | sbca _ | sbcb _ =>
    obtain rfl := next_eq h
    exact keepsControl_alu8 (fun _ _ => by exact .quiet rfl) (fun _ _ _ => ccSub8_keeps ..) ..
  | anda _ | andb _ | ora _ | orb _ | eora _ | eorb _ =>
    obtain rfl := next_eq h
    exact keepsControl_alu8 (fun _ _ => by exact .quiet rfl) (fun _ _ _ => ccMove8_keeps ..) ..
  | cmpa _ | cmpb _ => obtain rfl := next_eq h; exact keepsControl_test8 (fun _ _ _ => ccSub8_keeps ..) ..
  | bita _ | bitb _ => obtain rfl := next_eq h; exact keepsControl_test8 (fun _ _ _ => ccMove8_keeps ..) ..
  | addd _ => obtain rfl := next_eq h; exact keepsControl_aluD (fun _ _ _ => ccAdd16_keeps ..) ..
  | subd _ => obtain rfl := next_eq h; exact keepsControl_aluD (fun _ _ _ => ccSub16_keeps ..) ..
  | cmpd _ | cmpx _ | cmpy _ | cmpu _ | cmps _ => obtain rfl := next_eq h; exact keepsControl_compare16 ..
  | neg _ => obtain rfl := next_eq h; exact keepsControl_modifyMem (ccNeg_keeps _) ..
  | nega | negb => obtain rfl := next_eq h; exact keepsControl_modifyReg (fun _ _ => by exact .quiet rfl) (ccNeg_keeps _) _
  | inc _ => obtain rfl := next_eq h; exact keepsControl_modifyMem (ccInc_keeps _) ..
  | inca | incb => obtain rfl := next_eq h; exact keepsControl_modifyReg (fun _ _ => by exact .quiet rfl) (ccInc_keeps _) _
  | dec _ => obtain rfl := next_eq h; exact keepsControl_modifyMem (ccDec_keeps _) ..
  | deca | decb => obtain rfl := next_eq h; exact keepsControl_modifyReg (fun _ _ => by exact .quiet rfl) (ccDec_keeps _) _
  | com _ => obtain rfl := next_eq h; exact keepsControl_modifyMem (ccCom_keeps _) ..
  | coma | comb => obtain rfl := next_eq h; exact keepsControl_modifyReg (fun _ _ => by exact .quiet rfl) (ccCom_keeps _) _
  | asl _ => obtain rfl := next_eq h; exact keepsControl_modifyMem (ccAsl_keeps _) ..
  | asla | aslb => obtain rfl := next_eq h; exact keepsControl_modifyReg (fun _ _ => by exact .quiet rfl) (ccAsl_keeps _) _
  | asr _ => obtain rfl := next_eq h; exact keepsControl_modifyMem (ccAsr_keeps _) ..
  | asra | asrb => obtain rfl := next_eq h; exact keepsControl_modifyReg (fun _ _ => by exact .quiet rfl) (ccAsr_keeps _) _
  | lsr _ => obtain rfl := next_eq h; exact keepsControl_modifyMem (ccLsr_keeps _) ..
  | lsra | lsrb => obtain rfl := next_eq h; exact keepsControl_modifyReg (fun _ _ => by exact .quiet rfl) (ccLsr_keeps _) _
  | rol _ => obtain rfl := next_eq h; exact keepsControl_modifyMem (ccRol_keeps _) ..
  | rola | rolb => obtain rfl := next_eq h; exact keepsControl_modifyReg (fun _ _ => by exact .quiet rfl) (ccRol_keeps _) _
  | ror _ => obtain rfl := next_eq h; exact keepsControl_modifyMem (ccRor_keeps _) ..
  | rora | rorb => obtain rfl := next_eq h; exact keepsControl_modifyReg (fun _ _ => by exact .quiet rfl) (ccRor_keeps _) _
  | clr _ =>
    obtain rfl := next_eq h
    exact (keepsControl_ea ..).trans ((keepsControl_memWrite8 ..).setCc (ccClr_keeps ..))
  | clra | clrb => obtain rfl := next_eq h; exact KeepsControl.setCc (.quiet rfl) (ccClr_keeps ..)
  | tst _ => obtain rfl := next_eq h; exact (keepsControl_ea ..).trans (KeepsControl.setCc (.quiet rfl) (ccMove8_keeps ..))
  | tsta | tstb => obtain rfl := next_eq h; exact KeepsControl.setCc (.quiet rfl) (ccMove8_keeps ..)
  | mul => obtain rfl := next_eq h; exact KeepsControl.setCc (.quiet rfl) (ccMul_keeps ..)
  | daa => obtain rfl := next_eq h; exact (KeepsControl.setCc (.quiet rfl) (ccDaa_keeps ..)).trans (.quiet rfl)
  | abx | nop | rts | brn _ | lbrn _ => obtain rfl := next_eq h; exact .quiet rfl
  | jmp _ => obtain rfl := next_eq h; exact (keepsControl_ea ..).trans (.quiet rfl)
  | sex => obtain rfl := next_eq h; exact KeepsControl.setCc (.quiet rfl) (KeepsFlags.refl _ _).nz16
  | andcc _ | orcc _ => obtain rfl := next_eq h; exact keepsControl_of_cc (List.Subset.refl _) rfl rfl rfl
  | tfr _ _ => obtain rfl := next_eq h; exact keepsControl_transferTo ..
  | exg r q =>
    obtain rfl := next_eq h
    exact ((keepsControl_transferTo ..).mono (List.subset_append_left ..)).trans
      ((keepsControl_transferTo ..).mono (List.subset_append_right ..))
  | pshs _ | pshu _ => obtain rfl := next_eq h; exact keepsControl_pushRegs ..
  | puls _ | pulu _ => obtain rfl := next_eq h; exact keepsControl_pullRegs ..
  | bra _ | bhi _ | bls _ | bcc _ | bcs _ | bne _ | beq _ | bvc _ | bvs _ | bpl _ | bmi _ | bge _ | blt _ | bgt _
  | ble _ | lbra _ | lbhi _ | lbls _ | lbcc _ | lbcs _ | lbne _ | lbeq _ | lbvc _ | lbvs _ | lbpl _ | lbmi _
  | lbge _ | lblt _ | lbgt _ | lble _ => obtain rfl := next_eq h; exact keepsControl_branchTo ..
  | bsr _ | lbsr _ => obtain rfl := next_eq h; exact keepsControl_callTo ..
  | jsr _ => obtain rfl := next_eq h; exact (keepsControl_ea ..).trans (keepsControl_callTo ..)
  | swi | swi2 | swi3 => obtain rfl := next_eq h; exact keepsControl_takeInterrupt ..
  | rti => obtain rfl := next_eq h; exact keepsControl_returnFromInterrupt ..
  | cwai mask =>
    obtain rfl := next_eq h
    have hcc : KeepsControl (.execState :: ccControls) st (st.setCc (ccWithE true (st.cc &&& mask))) :=
      keepsControl_of_cc (by simp) rfl rfl rfl
    exact (hcc.trans (keepsControl_stackFrame ..)).trans ((keepsControl_setExecState ..).mono (by simp))
  | sync => obtain rfl := next_eq h; exact keepsControl_setExecState ..

/-- Which instructions may change a part of the control state; of a flag outside `controlFlags` nothing is said. -/
def Control.MayWrite : Control → Instr → Prop
  | .flag .h, i => writesCc i ∨ ∃ src, i = .adda src ∨ i = .addb src ∨ i = .adca src ∨ i = .adcb src
  | .flag .i, i | .flag .f, i => writesCc i ∨ i = .swi
  | .flag .e, i => writesCc i ∨ i = .swi ∨ i = .swi2 ∨ i = .swi3
  | .flag .n, _ | .flag .z, _ | .flag .v, _ | .flag .c, _ => True
  | .dp, i => writesDp i
  | .nmiArmed, i => armsNmi i
  | .execState, i => (∃ mask, i = .cwai mask) ∨ i = .sync

theorem mayWrite_of_writesCc {c : Control} {i : Instr} (hc : c ∈ ccControls) (hi : writesCc i) : c.MayWrite i := by
  obtain ⟨k, hk, rfl⟩ := List.mem_map.1 hc
  cases k with
  | n | z | v | c => trivial
  | h | i | f | e => exact .inl hi

/-- A register of TFR or EXG that is written. -/
theorem mayWrite_of_regControls {c : Control} {q : Reg} {i : Instr} (h : c ∈ regControls q) (hcc : q = .r8 .cc → writesCc i)
    (hdp : q = .r8 .dp → writesDp i) (hs : q = .r16 .s → armsNmi i) : c.MayWrite i := by
  unfold regControls at h
  split at h
  · exact mayWrite_of_writesCc h (hcc rfl)
  · obtain rfl := List.mem_singleton.1 h
    exact hdp rfl
  · obtain rfl := List.mem_singleton.1 h
    exact hs rfl
  all_goals cases h

/-- The registers of a mask that are pulled. -/
theorem mayWrite_of_pullControls {c : Control} {r : StackReg} {mask : Byte} {i : Instr} (h : c ∈ pullControls r mask)
    (hcc : mask.getLsbD 0 = true → writesCc i) (hdp : mask.getLsbD 3 = true → writesDp i)
    (hs : r = .u → mask.getLsbD 6 = true → armsNmi i) : c.MayWrite i := by
  simp only [pullControls, List.mem_append, List.mem_ite_nil_right, List.mem_singleton] at h
  obtain (⟨hbit, hc⟩ | ⟨hbit, rfl⟩) | ⟨⟨hr, hbit⟩, rfl⟩ := h
  · exact mayWrite_of_writesCc hc (hcc hbit)
  · exact hdp hbit
  · exact hs hr hbit

/-- What an instruction writes is what the rules name it for. -/
theorem mayWrite_of_mem {c : Control} {i : Instr} (h : c ∈ controlsWritten i) : c.MayWrite i := by
  cases i with
  | adda src => obtain rfl := List.mem_singleton.1 h; exact .inr ⟨src, .inl rfl⟩
  | addb src => obtain rfl := List.mem_singleton.1 h; exact .inr ⟨src, .inr (.inl rfl)⟩
  | adca src => obtain rfl := List.mem_singleton.1 h; exact .inr ⟨src, .inr (.inr (.inl rfl))⟩
  | adcb src => obtain rfl := List.mem_singleton.1 h; exact .inr ⟨src, .inr (.inr (.inr rfl))⟩
  | andcc _ | orcc _ => exact mayWrite_of_writesCc h trivial
  | cwai mask =>
    rcases List.mem_cons.1 h with rfl | h
    · exact .inl ⟨mask, rfl⟩
    · exact mayWrite_of_writesCc h trivial
  | rti =>
    rcases List.mem_cons.1 h with rfl | h
    · trivial
    · exact mayWrite_of_writesCc h trivial
  | tfr r q => exact mayWrite_of_regControls h id id id
  | exg r q =>
    rcases List.mem_append.1 h with h | h
    · exact mayWrite_of_regControls h .inl .inl .inl
    · exact mayWrite_of_regControls h .inr .inr .inr
  | puls mask => exact mayWrite_of_pullControls h id id (fun hr => nomatch hr)
  | pulu mask => exact mayWrite_of_pullControls h id id (fun _ => id)
  | lds _ | leas _ => obtain rfl := List.mem_singleton.1 h; trivial
  | swi =>
    have hmem : c ∈ [Control.flag .e, .flag .i, .flag .f] := h
    simp only [List.mem_cons, List.not_mem_nil, or_false] at hmem
    obtain rfl | rfl | rfl := hmem
    · exact .inr (.inl rfl)
    · exact .inr rfl
    · exact .inr rfl
  | swi2 => obtain rfl := List.mem_singleton.1 h; exact .inr (.inr (.inl rfl))
  | swi3 => obtain rfl := List.mem_singleton.1 h; exact .inr (.inr (.inr rfl))
  | sync => obtain rfl := List.mem_singleton.1 h; exact .inr rfl
  | _ => exact absurd h List.not_mem_nil

/-- A part that has changed is one the instruction may write. -/
theorem mayWrite_of_changed {c : Control} {i : Instr} {st t : State} (h : exec i st = .next t) (hc : ¬ c.Same st t) :
    c.MayWrite i :=
  mayWrite_of_mem (Decidable.byContradiction fun hmem => hc ((exec_keepsControl h).same c hmem))

/-- The arming changes under the parameter only, and to true (R34). -/
theorem arming_of_changed {i : Instr} {st t : State} (h : exec i st = .next t) (hne : t.nmiArmed ≠ st.nmiArmed) :
    st.params.nmiArmOnSLoad = true ∧ t.nmiArmed = true := by
  have hevolves := exec_evolves h
  cases hold : st.nmiArmed with
  | true => exact absurd ((hevolves.armed hold).trans hold.symm) hne
  | false =>
    have hnew : t.nmiArmed = true := by simpa [hold] using hne
    exact ⟨(hevolves.arming hnew).resolve_left (by simp [hold]), hnew⟩

/-- Settles O60: each clause is `mayWrite_of_changed` at one part of the control state. -/
theorem writersOfControlState : Obligations.WritersOfControlState := by
  intro i st t h
  refine ⟨fun hne => ?_, fun hne => ?_, fun hne => ?_, fun hne => ?_, fun hne => ?_, fun hne => ?_⟩
  · exact mayWrite_of_changed (c := .flag .h) h fun hsame => hne (hsame (by decide))
  · rcases hne with hne | hne
    · exact mayWrite_of_changed (c := .flag .i) h fun hsame => hne (hsame (by decide))
    · exact mayWrite_of_changed (c := .flag .f) h fun hsame => hne (hsame (by decide))
  · exact mayWrite_of_changed (c := .flag .e) h fun hsame => hne (hsame (by decide))
  · exact mayWrite_of_changed (c := .dp) h hne
  · exact ⟨mayWrite_of_changed (c := .nmiArmed) h hne, arming_of_changed h hne⟩
  · obtain ⟨mask, rfl⟩ | rfl := mayWrite_of_changed (c := .execState) h hne
    · obtain rfl := next_eq h
      exact .inl ⟨mask, rfl, rfl⟩
    · obtain rfl := next_eq h
      exact .inr ⟨rfl, rfl⟩

end Sys2Proof.Machine
end

section
/-! The bytes of a well-formed instruction decode to it, whatever follows them (spec/30_encoding.md rules R100 to R117): one lemma for
each format of the opcode map, then every instruction by its format. -/

namespace Sys2Proof

/-- The stream holds the bytes from a place on. -/
def Spells (b : Nat → Byte) (k : Nat) (l : List Byte) : Prop := ∀ j (h : j < l.length), b (k + j) = l[j]

theorem spells_cons {b : Nat → Byte} {k : Nat} {v : Byte} {l : List Byte} (h : Spells b k (v :: l)) :
    b k = v ∧ Spells b (k + 1) l := by
  refine ⟨h 0 (Nat.zero_lt_succ _), fun j hj => ?_⟩
  rw [Nat.add_assoc, Nat.add_comm 1 j]
  exact h (j + 1) (Nat.succ_lt_succ hj)

theorem spells_wordBytes {b : Nat → Byte} {k : Nat} {w : Word} (h : Spells b k (wordBytes w)) :
    joinBytes (b k) (b (k + 1)) = w := by
  obtain ⟨hhi, hrest⟩ := spells_cons h
  obtain ⟨hlo, -⟩ := spells_cons hrest
  rw [hhi, hlo, Machine.joinBytes_hi_lo]

/-! ## The formats -/

/-- On its page, wherever they stand, the bytes decode to the instruction and are all it takes. -/
def DecodesOn (page : Page) (i : Instr) (l : List Byte) : Prop :=
  ∀ b k, Spells b k l → decodeOn page (b k) b (k + 1) = .ok (i, k + l.length)

theorem decodeOn_of_opMap {page : Page} {op : Byte} {e : Entry} {b : Nat → Byte} {k : Nat} (hop : opMap page op = some e) :
    decodeOn page op b k = decodeEntry e b k := by
  rw [decodeOn, hop]

section
variable {page : Page} {op : Byte}

theorem decodesOn_inh {i : Instr} (hop : opMap page op = some (.inh i)) : DecodesOn page i [op] := by
  intro b k h
  obtain ⟨h0, -⟩ := spells_cons h
  rw [h0, decodeOn_of_opMap hop]
  rfl

/-- The formats with one operand byte that is taken as it stands: IMM8, REL8 and the push/pull mask (R106, R111, R114). -/
theorem decodesOn_byte {e : Entry} {mk : Byte → Instr} {v : Byte} (hop : opMap page op = some e)
    (he : ∀ b k, decodeEntry e b k = .ok (mk (b k), k + 1)) : DecodesOn page (mk v) [op, v] := by
  intro b k h
  obtain ⟨h0, hrest⟩ := spells_cons h
  obtain ⟨h1, -⟩ := spells_cons hrest
  rw [h0, decodeOn_of_opMap hop, he, h1]
  rfl

/-- The formats with one operand Word: IMM16 and REL16 (R107, R112). -/
theorem decodesOn_word {e : Entry} {mk : Word → Instr} {w : Word} (hop : opMap page op = some e)
    (he : ∀ b k, decodeEntry e b k = .ok (mk (joinBytes (b k) (b (k + 1))), k + 2)) :
    DecodesOn page (mk w) (op :: wordBytes w) := by
  intro b k h
  obtain ⟨h0, hrest⟩ := spells_cons h
  rw [h0, decodeOn_of_opMap hop, he, spells_wordBytes hrest]
  rfl

theorem decodesOn_regpb {mk : Reg → Reg → Instr} {r q : Reg} (hop : opMap page op = some (.regpb mk)) :
    DecodesOn page (mk r q) [op, regPostbyte r q] := by
  intro b k h
  obtain ⟨h0, hrest⟩ := spells_cons h
  obtain ⟨h1, -⟩ := spells_cons hrest
  obtain ⟨hsrc, hdst⟩ := regPostbyte_fields r q
  rw [h0, decodeOn_of_opMap hop, decodeEntry, h1, hsrc, hdst, reg_ofCode_code, reg_ofCode_code]
  rfl

theorem spells_indexed {b : Nat → Byte} {k : Nat} {m : Indexed} (hwf : m.wf = true) (h : Spells b k (encodeIndexed m)) :
    indexedOf (b k) (b (k + 1)) (b (k + 2)) = some (m, (encodeIndexed m).length - 1) :=
  indexedOf_encode m hwf (fun j => b (k + j)) h

theorem decodesOn_lea {mk : Indexed → Instr} {m : Indexed} (hop : opMap page op = some (.lea mk)) (hwf : m.wf = true) :
    DecodesOn page (mk m) (op :: encodeIndexed m) := by
  intro b k h
  obtain ⟨h0, hrest⟩ := spells_cons h
  have hlen := encodeIndexed_length m
  simp only [h0, decodeOn_of_opMap hop, decodeEntry, spells_indexed hwf hrest, List.length_cons]
  congr 2
  omega

/-- The opcodes of the three memory forms (R108 to R110). -/
def MemColumn (page : Page) (dirOp idxOp extOp : Byte) (mk : MemOp → Instr) : Prop :=
  opMap page dirOp = some (.dir mk) ∧ opMap page idxOp = some (.idx mk) ∧ opMap page extOp = some (.ext mk)

theorem decodesOn_mem {dirOp idxOp extOp : Byte} {mk : MemOp → Instr} {m : MemOp}
    (hcol : MemColumn page dirOp idxOp extOp mk) (hwf : m.wf = true) :
    DecodesOn page (mk m) (encodeMem dirOp idxOp extOp m) := by
  obtain ⟨hdir, hidx, hext⟩ := hcol
  intro b k h
  cases m with
  | dir o =>
    obtain ⟨h0, hrest⟩ := spells_cons h
    obtain ⟨h1, -⟩ := spells_cons hrest
    rw [h0, decodeOn_of_opMap hdir, decodeEntry, h1]
    rfl
  | ext a =>
    obtain ⟨h0, hrest⟩ := spells_cons h
    rw [h0, decodeOn_of_opMap hext, decodeEntry, spells_wordBytes hrest]
    rfl
  | idx mode =>
    obtain ⟨h0, hrest⟩ := spells_cons h
    have hlen := encodeIndexed_length mode
    simp only [h0, decodeOn_of_opMap hidx, decodeEntry, spells_indexed hwf hrest, encodeMem, List.length_cons]
    congr 2
    omega

theorem decodesOn_src8 {mk : Src8 → Instr} {src : Src8} (himm : opMap page op = some (.imm8 fun v => mk (.imm v)))
    (hcol : MemColumn page (op + 0x10) (op + 0x20) (op + 0x30) fun m => mk (.mem m)) (hwf : src.wf = true) :
    DecodesOn page (mk src) (encodeSrc8 op src) := by
  cases src with
  | imm v => exact decodesOn_byte (mk := fun v => mk (.imm v)) himm fun _ _ => rfl
  | mem m => exact decodesOn_mem hcol hwf

theorem decodesOn_src16 {mk : Src16 → Instr} {src : Src16} (himm : opMap page op = some (.imm16 fun v => mk (.imm v)))
    (hcol : MemColumn page (op + 0x10) (op + 0x20) (op + 0x30) fun m => mk (.mem m)) (hwf : src.wf = true) :
    DecodesOn page (mk src) (encodeSrc16 op src) := by
  cases src with
  | imm v => exact decodesOn_word (mk := fun v => mk (.imm v)) himm fun _ _ => rfl
  | mem m => exact decodesOn_mem hcol hwf

end

/-! ## The pages -/

/-- What decodes on page 1 begins with neither 0x10 nor 0x11: page 1 has no entry there (R103, R116). -/
theorem decode_page1 {i : Instr} {b : Nat → Byte} {l : List Byte} (h : DecodesOn .one i l) (hb : Spells b 0 l) :
    decode b = .ok (i, l.length) := by
  have hok := h b 0 hb
  simp only [Nat.zero_add] at hok
  have hno (pageByte : Byte) (hnone : opMap .one pageByte = none) : b 0 ≠ pageByte := by
    intro e
    rw [e, decodeOn, hnone] at hok
    cases hok
  rw [decode, if_neg (hno 0x10 rfl), if_neg (hno 0x11 rfl)]
  exact hok

theorem decode_page2 {i : Instr} {b : Nat → Byte} {l : List Byte} (h : DecodesOn .two i l) (hb : Spells b 0 (0x10 :: l)) :
    decode b = .ok (i, (0x10 :: l).length) := by
  obtain ⟨h0, hrest⟩ := spells_cons hb
  rw [decode, if_pos h0, List.length_cons, Nat.add_comm]
  exact h b 1 hrest

theorem decode_page3 {i : Instr} {b : Nat → Byte} {l : List Byte} (h : DecodesOn .three i l) (hb : Spells b 0 (0x11 :: l)) :
    decode b = .ok (i, (0x11 :: l).length) := by
  obtain ⟨h0, hrest⟩ := spells_cons hb
  rw [decode, if_neg (by rw [h0]; decide), if_pos h0, List.length_cons, Nat.add_comm]
  exact h b 1 hrest

/-! ## Every instruction -/

/-- The encoding of a well-formed instruction decodes to it, with its length. -/
theorem decode_encode {i : Instr} {b : Nat → Byte} (hwf : i.WellFormed) (hb : Spells b 0 (encode i)) :
    decode b = .ok (i, (encode i).length) := by
  cases i with
  | lda _ | ldb _ | adda _ | addb _ | adca _ | adcb _ | suba _ | subb _ | sbca _ | sbcb _ | cmpa _ | cmpb _ | anda _ | andb _
  | ora _ | orb _ | eora _ | eorb _ | bita _ | bitb _ => exact decode_page1 (decodesOn_src8 rfl ⟨rfl, rfl, rfl⟩ hwf) hb
  | ldd _ | ldx _ | ldu _ | addd _ | subd _ | cmpx _ => exact decode_page1 (decodesOn_src16 rfl ⟨rfl, rfl, rfl⟩ hwf) hb
  | ldy _ | lds _ | cmpd _ | cmpy _ => exact decode_page2 (decodesOn_src16 rfl ⟨rfl, rfl, rfl⟩ hwf) hb
  | cmpu _ | cmps _ => exact decode_page3 (decodesOn_src16 rfl ⟨rfl, rfl, rfl⟩ hwf) hb
  | sta _ | stb _ | std _ | stx _ | stu _ | jsr _ | neg _ | inc _ | dec _ | com _ | clr _ | tst _ | asl _ | asr _ | lsr _
  | rol _ | ror _ | jmp _ => exact decode_page1 (decodesOn_mem ⟨rfl, rfl, rfl⟩ hwf) hb
  | sty _ | sts _ => exact decode_page2 (decodesOn_mem ⟨rfl, rfl, rfl⟩ hwf) hb
  | leax _ | leay _ | leas _ | leau _ => exact decode_page1 (decodesOn_lea rfl hwf) hb
  | nega | negb | inca | incb | deca | decb | mul | daa | abx | sex | coma | comb | clra | clrb | tsta | tstb | asla | aslb
  | asra | asrb | lsra | lsrb | rola | rolb | rora | rorb | rts | nop | swi | rti | sync =>
    exact decode_page1 (decodesOn_inh rfl) hb
  | swi2 => exact decode_page2 (decodesOn_inh rfl) hb
  | swi3 => exact decode_page3 (decodesOn_inh rfl) hb
  | andcc _ | orcc _ | cwai _ => exact decode_page1 (decodesOn_byte rfl fun _ _ => rfl) hb
  | tfr _ _ | exg _ _ => exact decode_page1 (decodesOn_regpb rfl) hb
  | pshs _ | puls _ | pshu _ | pulu _ => exact decode_page1 (decodesOn_byte rfl fun _ _ => rfl) hb
  | bra _ | brn _ | bhi _ | bls _ | bcc _ | bcs _ | bne _ | beq _ | bvc _ | bvs _ | bpl _ | bmi _ | bge _ | blt _ | bgt _
  | ble _ | bsr _ => exact decode_page1 (decodesOn_byte rfl fun _ _ => rfl) hb
  | lbra _ | lbsr _ => exact decode_page1 (decodesOn_word rfl fun _ _ => rfl) hb
  | lbrn _ | lbhi _ | lbls _ | lbcc _ | lbcs _ | lbne _ | lbeq _ | lbvc _ | lbvs _ | lbpl _ | lbmi _ | lbge _ | lblt _
  | lbgt _ | lble _ => exact decode_page2 (decodesOn_word rfl fun _ _ => rfl) hb

end Sys2Proof

namespace Sys2Proof.Machine

/-! ## The step of RUNNING -/

theorem step_of_running {st : State} (hrun : st.execState = .running) (hnone : acceptable st = none) :
    step st = instructionStep st := by
  simp [step, hrun, hnone]

theorem instructionStep_of_decode {st : State} {i : Instr} {n : Nat} (h : decode (fetchStream st) = .ok (i, n)) :
    instructionStep st = runDecoded i n st := by
  simp [instructionStep, h]

/-- Settles O6: the bytes at PC decode to the instruction they encode. -/
theorem stepRunsDecoded : Obligations.StepRunsDecoded := by
  intro i st hwf hrun hn hf hi hbytes
  have hspells : Spells (fetchStream st) 0 (encode i) := fun k hk => by
    rw [Nat.zero_add]
    exact hbytes k hk
  rw [step_of_running hrun (acceptable_eq_none hn hf hi), instructionStep_of_decode (decode_encode hwf hspells)]
  rfl

end Sys2Proof.Machine
end

section
/-! The host's accesses to memory: the byte read and write, `define_rom`, `define_io` and `load` (spec/20_memory.md rules R66 and
R70 to R74). Each port is one equation inside its range test; what it did then follows from the laws of the operation it calls. -/

namespace Sys2Proof.Machine

/-! ## Read and write (R66, R70) -/

/-- A host address inside the range test is the Word it names. -/
theorem ofInt_toNat (k : Word) : BitVec.ofInt 16 (k.toNat : Int) = k := by simp

theorem hostRead_toNat (k : Word) (st : State) : hostRead k.toNat st = .ok (memRead8 k st) := by
  have hk := k.isLt
  rw [hostRead, if_pos (by omega), ofInt_toNat]

theorem hostWrite_toNat (k : Word) (v : Byte) (st : State) :
    hostWrite k.toNat v st = (memWrite8 k v st, if (st.attr k).isRom then .romViolation else .ok) := by
  have hk := k.isLt
  simp only [hostWrite, ofInt_toNat]
  exact if_pos (by omega)

theorem hostRead_outside {address : Int} (h : ¬ (0 ≤ address ∧ address ≤ 65535)) (st : State) :
    hostRead address st = .error .addressOutOfRange :=
  if_neg (by omega)

theorem hostWrite_outside {address : Int} (h : ¬ (0 ≤ address ∧ address ≤ 65535)) (v : Byte) (st : State) :
    hostWrite address v st = (st, .addressOutOfRange) :=
  if_neg (by omega)

theorem memWrite8_sameBytesOutside (k : Word) (v : Byte) (st : State) : SameBytesOutside k 1 st (memWrite8 k v st) := by
  intro b hb
  exact memWrite8_read_other v st (by simpa using hb 0 Nat.one_pos)

/-- Settles O14: inside the range test the host's accesses are the CPU's, with a status. -/
theorem hostReadAndWrite : Obligations.HostReadAndWrite := by
  intro address v st
  refine ⟨fun hout => ⟨hostRead_outside hout st, hostWrite_outside hout v st⟩, ?_⟩
  rintro k rfl
  rw [hostWrite_toNat]
  refine ⟨hostRead_toNat k st, fun hrom => ?_, fun hram => ⟨?_, memWrite8_sameBytesOutside k v st, fun hio => ?_⟩⟩
  · rw [memWrite8_rom v hrom, if_pos hrom]
  · rw [if_neg (by simp [hram])]
  · rw [hostRead_toNat, memWrite8_read_plain v hram hio]

/-! ## Attributes of a range (R72, R73) -/

/-- New attributes are no other part of the state. -/
theorem withAttrs_keeps (attrs : List (Nat × CellAttr)) (st : State) : KeepsExcept [.attrs] st { st with attrs := attrs } := by
  intro p hp
  cases p with
  | attrs => simp at hp
  | _ => rfl

/-- Settles O15: the update of the attributes, cell by cell. -/
theorem defineRomMarksRange : Obligations.DefineRomMarksRange := by
  intro start finish st hinv
  refine ⟨fun h0 hle hmax => ⟨_, if_pos ⟨h0, hle, hmax⟩, withAttrs_keeps _ st, rfl, fun k => ?_⟩,
    fun hout => if_neg hout⟩
  rw [attr_update _ hinv.attributes (by omega)]
  split
  · have hin : start ≤ k.toNat ∧ (k.toNat : Int) < finish := by omega
    simp [hin]
  · have hout : ¬ (start ≤ k.toNat ∧ (k.toNat : Int) < finish) := by omega
    rw [← Bool.decide_and, decide_eq_false hout, Bool.or_false]

theorem defineIo_empty {start finish : Int} (h0 : 0 ≤ start) (heq : start = finish) (hmax : finish ≤ 65536) (h : Config.Handler)
    (st : State) : defineIo start finish h st = some (st, .ok) := by
  rw [defineIo, if_pos ⟨h0, heq.le, hmax⟩, if_pos heq]

/-- The cells of a range that is not empty dispatch to the slot allocated (log 11). -/
theorem defineIo_of_allocate {start finish : Int} {h : Config.Handler} {st : State} {slot : Nat} {table : List Config.Handler}
    (h0 : 0 ≤ start) (hlt : start < finish) (hmax : finish ≤ 65536) (halloc : allocate h st.ioTable = some (slot, table)) :
    defineIo start finish h st = some ({ st with
      ioTable := table
      attrs := Attrs.update (fun c => { c with isIo := true, ioIndex := BitVec.ofNat 8 slot }) start.toNat finish.toNat
        st.attrs }, .ok) := by
  rw [defineIo, if_pos ⟨h0, hlt.le, hmax⟩, if_neg hlt.ne, halloc]

theorem withAttrsTable_keeps (attrs : List (Nat × CellAttr)) (table : List Config.Handler) (st : State) :
    KeepsExcept [.attrs, .ioTable] st { st with ioTable := table, attrs := attrs } := by
  intro p hp
  cases p with
  | attrs | ioTable => simp at hp
  | _ => rfl

/-- Settles O16: an empty range does nothing; any other dispatches to the slot allocated, which leaves the old slots alone. -/
theorem defineIoRegistersHandler : Obligations.DefineIoRegistersHandler := by
  intro start finish h st hinv
  refine ⟨fun h0 hle hmax hfree => ?_, fun h0 heq hmax => defineIo_empty h0 heq hmax h st, fun hout => if_neg hout⟩
  rcases hle.eq_or_lt with heq | hlt
  · exact ⟨st, defineIo_empty h0 heq hmax h st, .refl _ st, rfl, fun k =>
      ⟨rfl, fun hin => by omega, fun _ => ⟨rfl, fun _ => rfl⟩⟩⟩
  · obtain ⟨slot, table, halloc⟩ := allocate_exists hfree
    obtain ⟨hslot, hslots, -, hat, hold⟩ := allocate_some halloc hinv.slots
    refine ⟨_, defineIo_of_allocate h0 hlt hmax halloc, withAttrsTable_keeps _ table st, rfl, fun k => ?_⟩
    have hattr := attr_update (fun c => { c with isIo := true, ioIndex := BitVec.ofNat 8 slot }) (lo := start.toNat)
      (hi := finish.toNat) hinv.attributes (by omega) k
    refine ⟨?_, fun hin => ?_, fun hout => ?_⟩
    · refine (congrArg CellAttr.isRom hattr).trans ?_
      split <;> rfl
    · rw [if_pos (by omega)] at hattr
      have hheld : table.getD (BitVec.ofNat 8 slot).toNat .noOp = h := by
        rw [BitVec.toNat_ofNat, Nat.mod_eq_of_lt (by omega), hat]
      exact ⟨congrArg CellAttr.isIo hattr,
        (congrArg (fun c : CellAttr => table.getD c.ioIndex.toNat .noOp) hattr).trans hheld⟩
    · rw [if_neg (by omega)] at hattr
      refine ⟨hattr, fun hio => ?_⟩
      exact (congrArg (fun c : CellAttr => table.getD c.ioIndex.toNat .noOp) hattr).trans (hold _ (hinv.indexes k hio))

/-! ## Load (R74) -/

theorem load_inside {start length : Int} {buffer : List Byte} (h0 : 0 ≤ start) (hlen : 0 ≤ length)
    (hmax : start + length ≤ 65536) (hbuf : length ≤ buffer.length) (st : State) :
    load start buffer length st = some (loadImage start.toNat (buffer.take length.toNat) st, .ok) := by
  rw [load, if_pos ⟨h0, hlen, hmax⟩, if_pos hbuf]

theorem loadImage_keeps (addr : Nat) (image : List Byte) (st : State) : KeepsExcept [.attrs] st (loadImage addr image st) := by
  rw [loadImage_eq]
  intro p hp
  cases p with
  | attrs => simp at hp
  | _ => rfl

/-- Settles O17: the image placed is the first `length` bytes of the buffer. -/
theorem loadStoresImage : Obligations.LoadStoresImage := by
  intro start buffer length st hinv
  refine ⟨fun h0 hlen hmax hbuf => ⟨_, load_inside h0 hlen hmax hbuf st, loadImage_keeps _ _ st, ?_⟩,
    fun hout => if_neg hout⟩
  have htake : (buffer.take length.toNat).length = length.toNat := by
    rw [List.length_take]
    omega
  have hfit : start.toNat + (buffer.take length.toNat).length ≤ 65536 := by omega
  refine ⟨fun j hj k hjlen hk => ⟨?_, ?_⟩, fun k hk => ⟨loadImage_read_other hfit (by omega), ?_⟩⟩
  · have hkj : k = BitVec.ofNat 16 (start.toNat + j) := by
      rw [show start.toNat + j = k.toNat by omega, BitVec.ofNat_toNat, BitVec.setWidth_eq]
    rw [hkj, loadImage_read hfit (by omega), List.getElem_take]
  · rw [attr_loadImage hinv.attributes hfit, if_pos (by omega)]
    exact ⟨rfl, rfl⟩
  · rw [attr_loadImage hinv.attributes hfit, if_neg (by omega)]

end Sys2Proof.Machine
end

section
/-! The CPU's byte write, the resolution of operands, and the stores (spec/20_memory.md rules R62, R67 to R69, R77, R78;
spec/40_addressing.md rules R141, R148 to R150; spec/41_load_store.md rules R208 to R214). -/

namespace Sys2Proof.Machine

/-! ## The exchange at the handler port (R67, R68) -/

section
variable (k : Word) (v : Byte) (st : State)

theorem callHandler_ioCalls (h : Config.Handler) : (callHandler h k v st).ioCalls =
    { handler := h, address := k, data := v, operation := .write } :: st.ioCalls := by cases h <;> rfl

/-- The no-op handler answers its data (R62). -/
theorem callHandler_noOp_read : memRead8 k (callHandler .noOp k v st) = v := storeByte_read_self k v st

theorem callHandler_noOp_keeps : KeepsExcept [.ioCalls] st (callHandler .noOp k v st) := by
  intro p hp
  cases p with
  | ioCalls => simp at hp
  | _ => rfl

/-- The cell holds the answer of a handler of the environment (R68, log 7). -/
theorem callHandler_env_read (id : Nat) : memRead8 k (callHandler (.env id) k v st) =
    (Config.ioReply st.freeIndex { handler := .env id, address := k, data := v, operation := .write }).data :=
  storeByte_read_self k _ st

end

/-- Settles O18: a ROM cell, a plain cell and an I/O cell, each by its equation; what an I/O cell holds, by the handler of its
slot. -/
theorem byteWrite : Obligations.ByteWrite := by
  intro k v st
  refine ⟨memWrite8_sameBytesOutside k v st, memWrite8_keeps k v st, memWrite8_rom v, ?_, ?_, fun w => rfl⟩
  · rintro ⟨hram, hio⟩
    exact ⟨memWrite8_keeps_plain v hio, memWrite8_read_plain v hram hio⟩
  · intro hram hio
    rw [memWrite8_io v hram hio]
    refine ⟨_, rfl, callHandler_ioCalls .., fun hno => ?_, fun id henv => ?_⟩
    · have hno : st.handler (st.attr k).ioIndex = .noOp := hno
      rw [hno]
      exact ⟨callHandler_noOp_read k v st, callHandler_noOp_keeps k v st⟩
    · have henv : st.handler (st.attr k).ioIndex = .env id := henv
      rw [henv]
      exact ⟨callHandler_env_read k v st id, rfl, rfl⟩

/-! ## The base register of an auto-modifying mode (R148 to R150) -/

@[simp] theorem idx_setIdx (r : IdxReg) (v : Word) (st : State) : (st.setIdx r v).idx r = v := by cases r <;> rfl

theorem ea_postInc_idx (r : IdxReg) (n : AutoAmount) (ind : Bool) (st : State) :
    (ea (.idx (.postInc r n ind)) st).2.idx r = st.idx r + autoBytes n := by
  cases ind <;> exact idx_setIdx ..

theorem ea_preDec_idx (r : IdxReg) (n : AutoAmount) (ind : Bool) (st : State) :
    (ea (.idx (.preDec r n ind)) st).2.idx r = st.idx r - autoBytes n := by
  cases ind <;> exact idx_setIdx ..

/-- Settles O21: the frame of the resolution, the four amounts, and the operand read at the address it gives. -/
theorem operandResolution : Obligations.OperandResolution := by
  intro m st
  refine ⟨ea_keeps m st, ea_mem m st, ?_, ?_, ?_, ?_, ?_, ?_⟩
  · rintro r ind rfl
    simp [ea_postInc_idx, autoBytes]
  · rintro r ind rfl
    simp [ea_postInc_idx, autoBytes]
  · rintro r ind rfl
    simp [ea_preDec_idx, autoBytes, BitVec.toNat_sub, Nat.add_comm]
  · rintro r ind rfl
    simp [ea_preDec_idx, autoBytes, BitVec.toNat_sub, Nat.add_comm]
  · exact ea_memRead8 m st _
  · exact (congrArg BitVec.toNat (ea_memRead16 m st _)).trans (joinBytes_toNat ..)

/-! ## Stores (R208 to R214) -/

/-- N and Z from the Byte, V cleared (R200). -/
theorem flagsAfter_ccMove8 {v : Byte} {st t : State} (h : t.cc = ccMove8 v st.cc) :
    FlagsAfter st t none (some (decide (128 ≤ v.toNat))) (some (decide (v = 0))) (some false) none := by
  simp [FlagsAfter, State.flag, h, ccMove8, ccNz8, msb8, Bool.beq_eq_decide_eq]

theorem exec_storeByte (acc : Acc) (dst : MemOp) (st : State) :
    exec (acc.pick (.sta dst) (.stb dst)) st = .next (store8 acc.val dst st) := by cases acc <;> rfl

theorem exec_storeWord (r : WordReg) (dst : MemOp) (st : State) :
    exec (r.store dst) st = .next (store16 r.val dst st) := by cases r <;> rfl

/-- No operand modifies an accumulator. -/
@[simp] theorem acc_val_ea (acc : Acc) (dst : MemOp) (st : State) : acc.val (ea dst st).2 = acc.val st := by
  cases acc
  · exact ea_a dst st
  · exact ea_b dst st

theorem store8_stores (get : State → Byte) (dst : MemOp) (st : State) :
    StoresByte dst (get (ea dst st).2) st (store8 get dst st) :=
  storesByte_of (setCc_keeps _ _) rfl

theorem store16_stores (get : State → Word) (dst : MemOp) (st : State) :
    StoresWord dst (get (ea dst st).2) st (store16 get dst st) :=
  storesWord_of (setCc_keeps _ _) rfl

theorem store8_cc (get : State → Byte) (dst : MemOp) (st : State) :
    (store8 get dst st).cc = ccMove8 (get (ea dst st).2) st.cc := congrArg (ccMove8 _) (ea_cc dst st)

theorem store16_cc (get : State → Word) (dst : MemOp) (st : State) :
    (store16 get dst st).cc = ccMove16 (get (ea dst st).2) st.cc := congrArg (ccMove16 _) (ea_cc dst st)

/-- Settles O24: both are `store8` of an accumulator, which the resolution of the operand leaves as it was. -/
theorem storeByte : Obligations.StoreByte := by
  intro acc dst st
  rw [← acc_val_ea acc dst st]
  exact ⟨_, exec_storeByte acc dst st, flagsAfter_ccMove8 (store8_cc ..), store8_stores ..⟩

/-- Settles O25: all five are `store16` of a register read after the resolution of the operand. -/
theorem storeWord : Obligations.StoreWord := by
  intro r dst st
  exact ⟨_, exec_storeWord r dst st, flagsAfter_ccMove16 (store16_cc ..), store16_stores ..⟩

end Sys2Proof.Machine
end

section
/-! The encoding from both sides (spec/30_encoding.md rules R100 to R121, spec/40_addressing.md rules R145 to R154): what decodes is
spelled by the bytes read, and which bytes the decoder rejects. The map is gone through row by row, each row once. -/

namespace Sys2Proof

/-! ## From the instruction to its bytes and back -/

/-- Settles O1: `decode_encode`, at the head of the stream. -/
theorem decodeOfEncode : Obligations.DecodeOfEncode := by
  intro i b hwf hb
  exact decode_encode hwf fun k hk => by
    rw [Nat.zero_add]
    exact hb k hk

theorem decode_streamOf {i : Instr} {l : List Byte} (hwf : i.WellFormed) (hl : encode i = l) :
    decode (streamOf l) = .ok (i, l.length) := by
  subst hl
  refine decode_encode hwf fun j hj => ?_
  rw [Nat.zero_add, streamOf, List.getD_eq_getElem _ _ hj]

/-- Settles O3: each word is the encoding of the instruction it spells. -/
theorem sampleWordsDecode : Obligations.SampleWordsDecode := by
  unfold Obligations.SampleWordsDecode
  and_intros <;> exact decode_streamOf rfl rfl

/-! ## Operand bytes -/

@[simp] theorem wordBytes_joinBytes (h l : Byte) : wordBytes (joinBytes h l) = [h, l] := by simp [wordBytes]


theorem regPostbyte_of_ofCode {pb : Byte} {r q : Reg} (hr : Reg.ofCode (pb.toNat / 16) = some r)
    (hq : Reg.ofCode (pb.toNat % 16) = some q) : regPostbyte r q = pb := by
  have hcode {n : Nat} {r : Reg} (h : Reg.ofCode n = some r) : r.code.toNat = n := by
    unfold Reg.ofCode at h
    split at h <;> cases h <;> rfl
  obtain ⟨hhi, hlo⟩ := regPostbyte_fields r q
  apply BitVec.eq_of_toNat_eq
  rw [hcode hr] at hhi
  rw [hcode hq] at hlo
  omega

/-- The fields of a postbyte with bit 7 clear: `0 rr nnnnn` (R145). -/
theorem off5_postbyte_fields : ∀ {pb : Byte}, pb.getLsbD 7 = false →
    (0#1 ++ (IdxReg.ofCode (pb.toNat / 32 % 4)).code ++ pb.extractLsb' 0 5 : Byte) = pb := by
  decide

/-- The fields of a postbyte with bit 7 set: `1 rr i mmmm` (R110). -/
theorem postbyte_fields : ∀ {pb : Byte}, pb.getLsbD 7 ≠ false →
    postbyte (IdxReg.ofCode (pb.toNat / 32 % 4)) (pb.getLsbD 4) (BitVec.ofNat 4 (pb.toNat % 16)) = pb := by
  decide

/-- What an indexed postbyte spells is well formed, and is encoded by that postbyte and the bytes used after it. -/
theorem encodeIndexed_of_indexedOf {pb b1 b2 : Byte} {m : Indexed} {n : Nat} (h : indexedOf pb b1 b2 = some (m, n)) :
    m.wf = true ∧ encodeIndexed m = [pb, b1, b2].take (n + 1) := by
  unfold indexedOf at h
  dsimp only at h
  split at h
  · rename_i h7
    cases h
    simp [Indexed.wf, encodeIndexed, off5_postbyte_fields h7]
  · rename_i h7
    have hpb := postbyte_fields h7
    split at h <;> rename_i hm
    case h_1 | h_3 =>
      split at h
      · cases h
      · rename_i hdirect
        rw [hm, Bool.eq_false_of_not_eq_true hdirect] at hpb
        cases h
        exact ⟨rfl, congrArg (· :: []) hpb⟩
    case h_13 =>
      split at h
      · rename_i hext
        cases h
        simp [Indexed.wf, encodeIndexed, hext]
      · cases h
    case h_14 => cases h
    all_goals
      rw [hm] at hpb
      cases h
      exact ⟨rfl, by simpa [encodeIndexed] using hpb⟩

/-! ## The opcode map: every entry makes instructions whose bytes begin with its opcode -/

/-- A well-formed instruction with these bytes. -/
def Instr.SpelledBy (i : Instr) (l : List Byte) : Prop := i.WellFormed ∧ encode i = l

/-- The instructions of an entry are well formed, and spelled by the opcode bytes and then the operand bytes of the format
(R105 to R114). -/
def Entry.SpelledBy (opcode : List Byte) : Entry → Prop
  | .inh i => i.SpelledBy opcode
  | .imm8 mk | .rel8 mk | .stkpb mk => ∀ v, (mk v).SpelledBy (opcode ++ [v])
  | .imm16 mk | .rel16 mk => ∀ w, (mk w).SpelledBy (opcode ++ wordBytes w)
  | .dir mk => ∀ o, (mk (.dir o)).SpelledBy (opcode ++ [o])
  | .ext mk => ∀ a, (mk (.ext a)).SpelledBy (opcode ++ wordBytes a)
  | .idx mk => ∀ m : Indexed, m.wf = true → (mk (.idx m)).SpelledBy (opcode ++ encodeIndexed m)
  | .lea mk => ∀ m : Indexed, m.wf = true → (mk m).SpelledBy (opcode ++ encodeIndexed m)
  | .regpb mk => ∀ r q, (mk r q).SpelledBy (opcode ++ [regPostbyte r q])

/-- The bytes of an operation on memory, in each of its three forms: page byte, opcode of the form, operand. -/
def MemSpelledBy (pre : List Byte) (dirOp idxOp extOp : Byte) (mk : MemOp → Instr) : Prop :=
  ∀ m : MemOp, m.wf = true → (mk m).SpelledBy (pre ++ encodeMem dirOp idxOp extOp m)

section
variable {pre : List Byte} {dirOp idxOp extOp : Byte} {mk : MemOp → Instr}

theorem MemSpelledBy.dir (h : MemSpelledBy pre dirOp idxOp extOp mk) : (Entry.dir mk).SpelledBy (pre ++ [dirOp]) := by
  intro o
  rw [List.append_assoc]
  exact h (.dir o) rfl

theorem MemSpelledBy.idx (h : MemSpelledBy pre dirOp idxOp extOp mk) : (Entry.idx mk).SpelledBy (pre ++ [idxOp]) := by
  intro m hm
  rw [List.append_assoc]
  exact h (.idx m) hm

theorem MemSpelledBy.ext (h : MemSpelledBy pre dirOp idxOp extOp mk) : (Entry.ext mk).SpelledBy (pre ++ [extOp]) := by
  intro a
  rw [List.append_assoc]
  exact h (.ext a) rfl

end

/-- The instructions of a column are spelled by the page byte and the encoding whose immediate place is in the row given, its opcode
`row + lo` (R116 (b), (c)). -/
def Column.SpelledBy (pre : List Byte) (row lo : Nat) : Column → Prop
  | .src8 mk => ∀ src : Src8, src.wf = true → (mk src).SpelledBy (pre ++ encodeSrc8 (BitVec.ofNat 8 (row + lo)) src)
  | .src16 mk => ∀ src : Src16, src.wf = true → (mk src).SpelledBy (pre ++ encodeSrc16 (BitVec.ofNat 8 (row + lo)) src)
  | .mem mk => ∀ m : MemOp, m.wf = true → (mk m).SpelledBy (pre ++ encodeColumn (BitVec.ofNat 8 (row + lo)) m)

/-- The rows of the three memory forms follow the row of the immediate place. -/
theorem MemSpelledBy.entry {pre : List Byte} {row lo : Nat} {mk : MemOp → Instr}
    (h : ∀ m : MemOp, m.wf = true → (mk m).SpelledBy (pre ++ encodeColumn (BitVec.ofNat 8 (row + lo)) m)) :
    (Entry.dir mk).SpelledBy (pre ++ [BitVec.ofNat 8 (row + 0x10 + lo)]) ∧
      (Entry.idx mk).SpelledBy (pre ++ [BitVec.ofNat 8 (row + 0x20 + lo)]) ∧
      (Entry.ext mk).SpelledBy (pre ++ [BitVec.ofNat 8 (row + 0x30 + lo)]) := by
  have hmem : MemSpelledBy pre _ _ _ mk := h
  simp only [Nat.add_right_comm row _ lo, BitVec.ofNat_add (row + lo)]
  exact ⟨hmem.dir, hmem.idx, hmem.ext⟩

/-- The entry of a column in a format has its opcode in that format's row. -/
theorem Column.SpelledBy.entry {pre : List Byte} {row lo : Nat} {c : Column} (hc : c.SpelledBy pre row lo) {format : Nat}
    (hformat : format < 4) {e : Entry} (he : c.entry format = some e) :
    e.SpelledBy (pre ++ [BitVec.ofNat 8 (row + 16 * format + lo)]) := by
  cases c with
  | src8 mk | src16 mk =>
    obtain ⟨hdir, hidx, hext⟩ := MemSpelledBy.entry (mk := fun m => mk (.mem m)) fun m hm => hc (.mem m) hm
    interval_cases format <;> cases he
    · intro v
      rw [List.append_assoc]
      exact hc (.imm v) rfl
    · exact hdir
    · exact hidx
    · exact hext
  | mem mk =>
    obtain ⟨hdir, hidx, hext⟩ := MemSpelledBy.entry hc
    interval_cases format <;> cases he
    · exact hdir
    · exact hidx
    · exact hext

/-! ### The rows (R116, R117) -/

theorem rmwColumn_spelledBy {lo : Nat} {mk : MemOp → Instr} (h : rmwColumn lo = some mk) :
    MemSpelledBy [] (BitVec.ofNat 8 (0x00 + lo)) (BitVec.ofNat 8 (0x60 + lo)) (BitVec.ofNat 8 (0x70 + lo)) mk := by
  unfold rmwColumn at h
  split at h <;> cases h <;> exact fun m hm => ⟨hm, rfl⟩

theorem row1_spelledBy {lo : Nat} {e : Entry} (h : row1 lo = some e) : e.SpelledBy [BitVec.ofNat 8 (0x10 + lo)] := by
  unfold row1 at h
  split at h <;> cases h
  all_goals
    simp only [Entry.SpelledBy]
    intros
    exact ⟨rfl, rfl⟩

theorem row2_spelledBy {lo : Nat} {e : Entry} (h : row2 lo = some e) : e.SpelledBy [BitVec.ofNat 8 (0x20 + lo)] := by
  unfold row2 at h
  split at h <;> cases h <;> exact fun _ => ⟨rfl, rfl⟩

theorem row3_spelledBy {lo : Nat} {e : Entry} (h : row3 lo = some e) : e.SpelledBy [BitVec.ofNat 8 (0x30 + lo)] := by
  unfold row3 at h
  split at h <;> cases h
  case h_1 | h_2 | h_3 | h_4 => exact fun m hm => ⟨hm, rfl⟩
  all_goals
    simp only [Entry.SpelledBy]
    intros
    exact ⟨rfl, rfl⟩

theorem row4_spelledBy {lo : Nat} {i : Instr} (h : row4 lo = some i) : i.SpelledBy [BitVec.ofNat 8 (0x40 + lo)] := by
  unfold row4 at h
  split at h <;> cases h <;> exact ⟨rfl, rfl⟩

theorem row5_spelledBy {lo : Nat} {i : Instr} (h : row5 lo = some i) : i.SpelledBy [BitVec.ofNat 8 (0x50 + lo)] := by
  unfold row5 at h
  split at h <;> cases h <;> exact ⟨rfl, rfl⟩

theorem columnA_spelledBy {lo : Nat} {c : Column} (h : columnA lo = some c) : c.SpelledBy [] 0x80 lo := by
  unfold columnA at h
  split at h <;> cases h <;> exact fun _ hwf => ⟨hwf, rfl⟩

theorem columnB_spelledBy {lo : Nat} {c : Column} (h : columnB lo = some c) : c.SpelledBy [] 0xC0 lo := by
  unfold columnB at h
  split at h <;> cases h <;> exact fun _ hwf => ⟨hwf, rfl⟩

theorem row2Page2_spelledBy {lo : Nat} {e : Entry} (h : row2Page2 lo = some e) :
    e.SpelledBy [0x10, BitVec.ofNat 8 (0x20 + lo)] := by
  unfold row2Page2 at h
  split at h <;> cases h <;> exact fun _ => ⟨rfl, rfl⟩

theorem columnAPage2_spelledBy {lo : Nat} {c : Column} (h : columnAPage2 lo = some c) : c.SpelledBy [0x10] 0x80 lo := by
  unfold columnAPage2 at h
  split at h <;> cases h <;> exact fun _ hwf => ⟨hwf, rfl⟩

theorem columnBPage2_spelledBy {lo : Nat} {c : Column} (h : columnBPage2 lo = some c) : c.SpelledBy [0x10] 0xC0 lo := by
  unfold columnBPage2 at h
  split at h <;> cases h <;> exact fun _ hwf => ⟨hwf, rfl⟩

theorem columnAPage3_spelledBy {lo : Nat} {c : Column} (h : columnAPage3 lo = some c) : c.SpelledBy [0x11] 0x80 lo := by
  unfold columnAPage3 at h
  split at h <;> cases h <;> exact fun _ hwf => ⟨hwf, rfl⟩

/-- A row of the map that is one format of every column (R116 (b)). -/
theorem columns_entry_spelledBy {pre : List Byte} {row lo : Nat} {column : Nat → Option Column}
    (hcolumn : ∀ c, column lo = some c → c.SpelledBy pre row lo) {format : Nat} (hformat : format < 4) {e : Entry}
    (h : (column lo).bind (·.entry format) = some e) :
    e.SpelledBy (pre ++ [BitVec.ofNat 8 (row + 16 * format + lo)]) := by
  obtain ⟨c, hc, he⟩ := Option.bind_eq_some_iff.1 h
  exact (hcolumn c hc).entry hformat he

/-! ### The pages -/

theorem page1_spelledBy {hi lo : Nat} {e : Entry} (h : page1 hi lo = some e) : e.SpelledBy [BitVec.ofNat 8 (16 * hi + lo)] := by
  have hA {format : Nat} := columns_entry_spelledBy (lo := lo) (format := format) (e := e) fun c => columnA_spelledBy
  have hB {format : Nat} := columns_entry_spelledBy (lo := lo) (format := format) (e := e) fun c => columnB_spelledBy
  unfold page1 at h
  split at h
  case h_1 =>
    obtain ⟨mk, hmk, rfl⟩ := Option.map_eq_some_iff.1 h
    exact (rmwColumn_spelledBy hmk).dir
  case h_2 => exact row1_spelledBy h
  case h_3 => exact row2_spelledBy h
  case h_4 => exact row3_spelledBy h
  case h_5 =>
    obtain ⟨i, hrow, rfl⟩ := Option.map_eq_some_iff.1 h
    exact row4_spelledBy hrow
  case h_6 =>
    obtain ⟨i, hrow, rfl⟩ := Option.map_eq_some_iff.1 h
    exact row5_spelledBy hrow
  case h_7 =>
    obtain ⟨mk, hmk, rfl⟩ := Option.map_eq_some_iff.1 h
    exact (rmwColumn_spelledBy hmk).idx
  case h_8 =>
    obtain ⟨mk, hmk, rfl⟩ := Option.map_eq_some_iff.1 h
    exact (rmwColumn_spelledBy hmk).ext
  case h_9 =>
    split at h
    · rename_i hbsr
      subst hbsr
      cases h
      exact fun _ => ⟨rfl, rfl⟩
    · exact hA (by decide) h
  case h_17 => cases h
  case h_10 | h_11 | h_12 => exact hA (by decide) h
  case h_13 | h_14 | h_15 | h_16 => exact hB (by decide) h

theorem page2_spelledBy {hi lo : Nat} {e : Entry} (h : page2 hi lo = some e) :
    e.SpelledBy [0x10, BitVec.ofNat 8 (16 * hi + lo)] := by
  have hA {format : Nat} := columns_entry_spelledBy (lo := lo) (format := format) (e := e) fun c => columnAPage2_spelledBy
  have hB {format : Nat} := columns_entry_spelledBy (lo := lo) (format := format) (e := e) fun c => columnBPage2_spelledBy
  unfold page2 at h
  split at h
  case h_1 => exact row2Page2_spelledBy h
  case h_2 =>
    split at h <;> cases h
    rename_i hswi
    subst hswi
    exact ⟨rfl, rfl⟩
  case h_11 => cases h
  case h_3 | h_4 | h_5 | h_6 => exact hA (by decide) h
  case h_7 | h_8 | h_9 | h_10 => exact hB (by decide) h

theorem page3_spelledBy {hi lo : Nat} {e : Entry} (h : page3 hi lo = some e) :
    e.SpelledBy [0x11, BitVec.ofNat 8 (16 * hi + lo)] := by
  have hA {format : Nat} := columns_entry_spelledBy (lo := lo) (format := format) (e := e) fun c => columnAPage3_spelledBy
  unfold page3 at h
  split at h
  case h_1 =>
    split at h <;> cases h
    rename_i hswi
    subst hswi
    exact ⟨rfl, rfl⟩
  case h_6 => cases h
  all_goals exact hA (by decide) h

/-- The bytes that select a page, before the opcode (R103). -/
def Page.pageBytes : Page → List Byte
  | .one => []
  | .two => [0x10]
  | .three => [0x11]

theorem opMap_spelledBy {page : Page} {op : Byte} {e : Entry} (h : opMap page op = some e) :
    e.SpelledBy (page.pageBytes ++ [op]) := by
  have hop : BitVec.ofNat 8 (16 * (op.toNat / 16) + op.toNat % 16) = op := by
    rw [Nat.div_add_mod, BitVec.ofNat_toNat, BitVec.setWidth_eq]
  cases page with
  | one => simpa [hop, Page.pageBytes] using page1_spelledBy h
  | two => simpa [hop, Page.pageBytes] using page2_spelledBy h
  | three => simpa [hop, Page.pageBytes] using page3_spelledBy h

/-! ## What decodes is spelled by the bytes read -/

/-- The first `n` bytes of a stream. -/
def firstBytes (b : Nat → Byte) (n : Nat) : List Byte := (List.range n).map b

theorem firstBytes_succ (b : Nat → Byte) (n : Nat) : firstBytes b (n + 1) = firstBytes b n ++ [b n] := by
  simp [firstBytes, List.range_succ]

theorem firstBytes_two_more (b : Nat → Byte) (n : Nat) : firstBytes b (n + 2) = firstBytes b n ++ [b n, b (n + 1)] := by
  simp [firstBytes_succ]

/-- The postbyte and the bytes the sub-mode uses are the encoding of the sub-mode. -/
theorem firstBytes_indexed {b : Nat → Byte} {k extra : Nat} {m : Indexed}
    (h : indexedOf (b k) (b (k + 1)) (b (k + 2)) = some (m, extra)) :
    firstBytes b (k + 1 + extra) = firstBytes b k ++ encodeIndexed m := by
  rw [(encodeIndexed_of_indexedOf h).2]
  have hextra := indexedOf_extra h
  interval_cases extra <;> simp [firstBytes_succ]

theorem decodeEntry_spelledBy {e : Entry} {b : Nat → Byte} {k : Nat} {i : Instr} {n : Nat} (h : decodeEntry e b k = .ok (i, n))
    (he : e.SpelledBy (firstBytes b k)) : i.SpelledBy (firstBytes b n) := by
  cases e with
  | inh j => cases h; exact he
  | imm8 mk | rel8 mk | stkpb mk | dir mk =>
    cases h
    rw [firstBytes_succ]
    exact he (b k)
  | imm16 mk | rel16 mk | ext mk =>
    cases h
    rw [firstBytes_two_more, ← wordBytes_joinBytes]
    exact he (joinBytes (b k) (b (k + 1)))
  | idx mk | lea mk =>
    rw [decodeEntry] at h
    split at h
    · rename_i m extra hm
      cases h
      rw [firstBytes_indexed hm]
      exact he m (encodeIndexed_of_indexedOf hm).1
    · cases h
  | regpb mk =>
    rw [decodeEntry] at h
    split at h
    · rename_i r q hr hq
      cases h
      rw [firstBytes_succ, ← regPostbyte_of_ofCode hr hq]
      exact he r q
    · cases h

theorem decodeOn_spelledBy {page : Page} {op : Byte} {b : Nat → Byte} {k : Nat} {i : Instr} {n : Nat}
    (hop : firstBytes b k = page.pageBytes ++ [op]) (h : decodeOn page op b k = .ok (i, n)) : i.SpelledBy (firstBytes b n) := by
  unfold decodeOn at h
  split at h
  · rename_i e he
    exact decodeEntry_spelledBy h (hop ▸ opMap_spelledBy he)
  · cases h

theorem decode_spelledBy {b : Nat → Byte} {i : Instr} {n : Nat} (h : decode b = .ok (i, n)) : i.SpelledBy (firstBytes b n) := by
  have htwo : firstBytes b 2 = [b 0, b 1] := rfl
  unfold decode at h
  split at h
  · rename_i h0
    exact decodeOn_spelledBy (by rw [htwo, h0]; rfl) h
  · split at h
    · rename_i h0
      exact decodeOn_spelledBy (by rw [htwo, h0]; rfl) h
    · exact decodeOn_spelledBy rfl h

/-- Settles O2: the bytes by `decode_spelledBy`, their number by `decode_length`. -/
theorem encodeOfDecode : Obligations.EncodeOfDecode := by
  intro b i n h
  obtain ⟨hwf, hbytes⟩ := decode_spelledBy h
  obtain ⟨hmin, hmax⟩ := decode_length h
  exact ⟨hwf, hmin, hmax, hbytes⟩

/-! ## What is rejected (R118, R119) -/

/-- An operand can only be rejected by its postbyte. -/
theorem decodeEntry_ne_illegalOpcode (e : Entry) (b : Nat → Byte) (k : Nat) (page : Page) (op : Byte) :
    decodeEntry e b k ≠ .error (.illegalOpcode page op) := by
  intro h
  cases e with
  | idx _ | lea _ | regpb _ =>
    rw [decodeEntry] at h
    split at h <;> cases h
  | _ => cases h

theorem decodeOn_illegalOpcode_iff (page : Page) (op : Byte) (b : Nat → Byte) (k : Nat) :
    (∃ page' op', decodeOn page op b k = .error (.illegalOpcode page' op')) ↔ opMap page op = none := by
  cases hop : opMap page op with
  | none => simp [decodeOn, hop]
  | some e => simp [decodeOn, hop, decodeEntry_ne_illegalOpcode]

/-- Settles O4: on each page, the bytes of which the map has no entry. -/
theorem illegalOpcodes : Obligations.IllegalOpcodes := by
  intro b
  unfold decode
  split
  · rename_i h0
    rw [decodeOn_illegalOpcode_iff, h0]
    generalize b 1 = op
    revert op
    decide
  · split
    · rename_i h0
      rw [decodeOn_illegalOpcode_iff, h0]
      generalize b 1 = op
      revert op
      decide
    · rename_i h2 h3
      rw [decodeOn_illegalOpcode_iff]
      simp only [h2, h3, false_and, or_false]
      generalize b 0 = op at h2 h3 ⊢
      revert op
      decide

/-- Whether a postbyte spells a sub-mode does not depend on the bytes after it. -/
theorem indexedOf_eq_none_iff (pb b1 b2 : Byte) : indexedOf pb b1 b2 = none ↔ indexedOf pb 0 0 = none := by
  unfold indexedOf
  dsimp only
  split
  · simp
  · split <;> simp

theorem decodeEntry_idx_illegalPostbyte_iff (mk : MemOp → Instr) (b : Nat → Byte) (k : Nat) :
    decodeEntry (.idx mk) b k = .error (.illegalPostbyte (b k)) ↔ indexedOf (b k) 0 0 = none := by
  rw [← indexedOf_eq_none_iff (b k) (b (k + 1)) (b (k + 2)), decodeEntry]
  cases indexedOf (b k) (b (k + 1)) (b (k + 2)) <;> simp

theorem decodeEntry_regpb_illegalPostbyte_iff (mk : Reg → Reg → Instr) (b : Nat → Byte) (k : Nat) :
    decodeEntry (.regpb mk) b k = .error (.illegalPostbyte (b k)) ↔
      Reg.ofCode ((b k).toNat / 16) = none ∨ Reg.ofCode ((b k).toNat % 16) = none := by
  rw [decodeEntry]
  cases Reg.ofCode ((b k).toNat / 16) <;> cases Reg.ofCode ((b k).toNat % 16) <;> simp

/-- The codes without a register (R341). -/
theorem reg_ofCode_eq_none_iff : ∀ n < 16, Reg.ofCode n = none ↔ n ∈ [0x6, 0x7, 0xC, 0xD, 0xE, 0xF] := by decide

/-- On page 1 the first byte is looked up, and the operand begins at the second. -/
theorem decode_of_page1 {b : Nat → Byte} {op : Byte} {e : Entry} (h0 : b 0 = op) (hop : opMap .one op = some e) :
    decode b = decodeEntry e b 1 := by
  have hno (pageByte : Byte) (hnone : opMap .one pageByte = none) : b 0 ≠ pageByte := by
    rintro rfl
    rw [← h0, hnone] at hop
    cases hop
  rw [decode, if_neg (hno 0x10 rfl), if_neg (hno 0x11 rfl), h0, decodeOn_of_opMap hop]

/-- Settles O5: the postbytes that spell no sub-mode, and those with a code that names no register. -/
theorem illegalPostbytes : Obligations.IllegalPostbytes := by
  refine ⟨fun b h0 => ?_, fun b h0 => ?_⟩
  · rw [decode_of_page1 h0 rfl, decodeEntry_idx_illegalPostbyte_iff]
    generalize b 1 = pb
    revert pb
    decide
  · have hpb := (b 1).isLt
    obtain ⟨mk, hdecode⟩ : ∃ mk, decode b = decodeEntry (.regpb mk) b 1 := by
      rcases h0 with h0 | h0 <;> exact ⟨_, decode_of_page1 h0 rfl⟩
    rw [hdecode, decodeEntry_regpb_illegalPostbyte_iff, reg_ofCode_eq_none_iff _ (by omega), reg_ofCode_eq_none_iff _ (by omega)]

end Sys2Proof
end

section
/-! The addresses of the direct, extended, relative and indexed modes, and the branches (spec/40_addressing.md rules R143 to R155;
spec/45_branch_jump.md rules R360 and R361). -/

namespace Sys2Proof.Machine

/-! ## Offsets -/

/-- A signed offset of any width, extended and added to a Word, is the sum over the integers modulo 65,536 (R10, R115). -/
theorem add_signExtend (k : Word) {n : Nat} (o : BitVec n) : k + o.signExtend 16 = BitVec.ofInt 16 (k.toNat + o.toInt) := by
  rw [BitVec.ofInt_add, ofInt_toNat, BitVec.signExtend]

/-- A full-width offset may be read as signed: modulo 65,536 it is the same. -/
theorem add_eq_ofInt (k o : Word) : k + o = BitVec.ofInt 16 (k.toNat + o.toInt) := by
  rw [← add_signExtend, BitVec.signExtend_eq]

theorem add_d (k : Word) (st : State) : k + st.d = BitVec.ofNat 16 (k.toNat + 256 * st.a.toNat + st.b.toNat) := by
  rw [BitVec.add_def, State.d, joinBytes_toNat, Nat.add_assoc]

/-- Settles O19: direct by the bytes joined, relative by the sums of Words. -/
theorem directExtendedRelative : Obligations.DirectExtendedRelative := by
  intro o w st
  exact ⟨joinBytes_toNat st.dp o, rfl, rfl, add_signExtend st.pc o, BitVec.add_def st.pc w⟩

/-! ## The indexed sub-modes (R145 to R152) -/

theorem idxAddress_mem (m : Indexed) (st : State) : (idxAddress m st).2.mem = st.mem := by rw [idxAddress_eq]

/-- Indirection reads the Word at the address computed; the auto modification of the base register leaves it as it was (R152). -/
theorem eaIdx_of_address {m : Indexed} {k : Word} {st : State} (h : (idxAddress m st).1 = k) :
    (eaIdx m st).1 = if isIndirect m then memRead16 k st else k := by
  simp only [eaIdx, h, memRead16, memRead8, apply_ite Prod.fst, idxAddress_mem]

/-- Settles O20: the address of each sub-mode, then the indirection they all share. -/
theorem indexedAddresses : Obligations.IndexedAddresses := by
  intro r ind st
  refine ⟨fun o => ?off5, ?zero, fun o => ?off8, fun o => ?off16, ?accA, ?accB, ?accD, fun o => ?pcr8, fun o => ?pcr16,
    fun a => ?extInd, ?incOne, ?incTwo, ?decOne, ?decTwo⟩
  case off5 => exact eaIdx_of_address (add_signExtend (st.idx r) o)
  case off8 => exact eaIdx_of_address (add_signExtend (st.idx r) o)
  case off16 => exact eaIdx_of_address (add_eq_ofInt (st.idx r) o)
  case accA => exact eaIdx_of_address (add_signExtend (st.idx r) st.a)
  case accB => exact eaIdx_of_address (add_signExtend (st.idx r) st.b)
  case accD => exact eaIdx_of_address (add_d (st.idx r) st)
  case pcr8 => exact eaIdx_of_address (add_signExtend st.pc o)
  case pcr16 => exact eaIdx_of_address (add_eq_ofInt st.pc o)
  case zero | extInd | incOne | incTwo | decOne | decTwo => exact eaIdx_of_address rfl

/-! ## Branches (R360, R361) -/

/-- The condition the model computes is that of the table of R360. -/
theorem holds_iff_taken (k : Cond) (st : State) :
    holds k st.cc = true ↔ Taken k (st.flag .n) (st.flag .z) (st.flag .v) (st.flag .c) := by
  cases k <;> simp [holds, Taken, State.flag]

theorem exec_shortBranch (k : Cond) (o : Byte) (st : State) :
    exec (shortBranch k o) st = .next (branchTo k (target8 o st) st) := by cases k <;> rfl

theorem exec_longBranch (k : Cond) (o : Word) (st : State) :
    exec (longBranch k o) st = .next (branchTo k (target16 o st) st) := by cases k <;> rfl

section
variable (k : Cond) (target : Word) (st : State)

theorem branchTo_pc : (branchTo k target st).pc = if holds k st.cc then target else st.pc := by
  unfold branchTo
  split <;> rfl

theorem branchTo_keeps : KeepsExcept [.pc] st (branchTo k target st) := by
  unfold branchTo
  split
  · exact setReg16_keeps .pc target st
  · exact .refl _ st

theorem branchTo_sameBytes : SameBytes st (branchTo k target st) := by
  unfold branchTo
  split <;> exact .of_mem rfl

/-- What a branch to any target does. -/
theorem branchTo_effect {i : Instr} (h : exec i st = .next (branchTo k target st)) :
    let taken : Prop := Taken k (st.flag .n) (st.flag .z) (st.flag .v) (st.flag .c)
    ∃ t, exec i st = .next t ∧ KeepsExcept [.pc] st t ∧ SameBytes st t ∧
      (taken → t.pc = target) ∧ (¬ taken → t.pc = st.pc) := by
  refine ⟨_, h, branchTo_keeps k target st, branchTo_sameBytes k target st, fun htaken => ?_, fun hnot => ?_⟩
  · rw [branchTo_pc, if_pos ((holds_iff_taken k st).2 htaken)]
  · rw [branchTo_pc, if_neg fun hholds => hnot ((holds_iff_taken k st).1 hholds)]

end

/-- Settles O47: every branch is `branchTo` of its condition and target. -/
theorem branches : Obligations.Branches := by
  intro k st
  refine ⟨fun o => ?_, fun o => ?_⟩
  · rw [← add_signExtend]
    exact branchTo_effect k _ st (exec_shortBranch k o st)
  · rw [← BitVec.add_def]
    exact branchTo_effect k _ st (exec_longBranch k o st)

end Sys2Proof.Machine
end

section
/-! The 8-bit loads (spec/41_load_store.md rules R200 to R202). -/

namespace Sys2Proof.Machine

/-- The accumulator as a register of the TFR/EXG postbyte: a load writes it as TFR does (R340). -/
def Acc.reg8 : Acc → Reg8
  | .a => .a
  | .b => .b

theorem exec_loadByte (acc : Acc) (src : Src8) (st : State) :
    exec (acc.pick (.lda src) (.ldb src)) st = .next (load8 (State.setReg8 acc.reg8) src st) := by cases acc <;> rfl

theorem Acc.part_eq (acc : Acc) : acc.part = reg8Part acc.reg8 := by cases acc <;> rfl

/-- The write to CC that ends the load leaves the accumulator as it was written. -/
theorem acc_val_load8 (acc : Acc) (src : Src8) (st : State) :
    acc.val (load8 (State.setReg8 acc.reg8) src st) = (operand8 src st).1 := by cases acc <;> rfl

theorem load8_cc (set : Byte → State → State) (src : Src8) (st : State) :
    (load8 set src st).cc = ccMove8 (operand8 src st).1 st.cc := congrArg (ccMove8 _) (operand8_cc src st)

theorem load8_reads (q : Reg8) (src : Src8) (st : State) :
    Reads8 src [reg8Part q, .cc] st (load8 (State.setReg8 q) src st) :=
  reads8_of ((setReg8_keeps q _ _).trans (setCc_keeps _ _)) (setReg8_mem q _ _)

/-- Settles O22: both are `load8` of an accumulator; the operand is resolved, the accumulator written with it, and CC last. -/
theorem loadByte : Obligations.LoadByte := by
  intro acc src st
  rw [acc.part_eq]
  exact ⟨_, exec_loadByte acc src st, acc_val_load8 .., flagsAfter_ccMove8 (load8_cc ..), load8_reads ..⟩

end Sys2Proof.Machine
end

section
/-! Arithmetic on bytes: the two-operand instructions on an accumulator, the comparisons and the branches after them
(spec/42_arithmetic.md rules R230, R231, R237 to R240, R242 to R245, R247, R248; spec/45_branch_jump.md rule R360). -/

namespace Sys2Proof.Machine

/-! ## The shapes `alu8` and `test8` on an accumulator -/

/-- No operand modifies an accumulator. -/
@[simp] theorem acc_val_operand8 (acc : Acc) (src : Src8) (st : State) : acc.val (operand8 src st).2 = acc.val st := by
  cases acc
  · exact operand8_a src st
  · exact operand8_b src st

@[simp] theorem acc_val_setReg8 (acc : Acc) (v : Byte) (st : State) : acc.val (st.setReg8 acc.reg8 v) = v := by
  cases acc <;> rfl

@[simp] theorem acc_val_setCc (acc : Acc) (v : Byte) (st : State) : acc.val (st.setCc v) = acc.val st := by cases acc <;> rfl

section
variable (acc : Acc) (f fl : Byte → Byte → Byte → Byte) (src : Src8) (st : State)

theorem alu8_val : acc.val (alu8 acc.val (State.setReg8 acc.reg8) f fl src st) =
    f (acc.val st) (operand8 src st).1 st.cc := by simp [alu8]

theorem alu8_cc : (alu8 acc.val (State.setReg8 acc.reg8) f fl src st).cc = fl (acc.val st) (operand8 src st).1 st.cc := by
  simp [alu8]

theorem alu8_reads : Reads8 src [acc.part, .cc] st (alu8 acc.val (State.setReg8 acc.reg8) f fl src st) := by
  rw [acc.part_eq]
  exact reads8_of ((setReg8_keeps _ _ _).trans (setCc_keeps _ _)) (setReg8_mem _ _ _)

theorem test8_cc : (test8 acc.val fl src st).cc = fl (acc.val st) (operand8 src st).1 st.cc := by simp [test8]

theorem test8_reads : Reads8 src [.cc] st (test8 acc.val fl src st) := reads8_of (setCc_keeps _ _) rfl
end

/-! ## Addition (R230) -/

/-- The flags of `add8` over the integers. -/
theorem flagsAfter_ccAdd8 {a m : Byte} {c : Bool} {st t : State} (h : t.cc = ccAdd8 a m c st.cc) :
    FlagsAfter st t (some (decide (15 < a.toNat % 16 + m.toNat % 16 + bitValue c))) (some (add8 a m c).msb)
      (some (decide (add8 a m c = 0)))
      (some (decide (a.toInt + m.toInt + bitValue c < -128 ∨ 127 < a.toInt + m.toInt + bitValue c)))
      (some (decide (255 < a.toNat + m.toNat + bitValue c))) := by
  rw [← add8_overflow]
  simp [FlagsAfter, State.flag, h, ccAdd8, ccNz8, Bool.beq_eq_decide_eq]

/-- The four additions are one, whose carry in is the old carry or none. -/
theorem exec_addByte (acc : Acc) (withCarry : Bool) (src : Src8) (st : State) :
    exec (if withCarry then acc.pick (.adca src) (.adcb src) else acc.pick (.adda src) (.addb src)) st =
      .next (alu8 acc.val (State.setReg8 acc.reg8) (fun r m cc => add8 r m (withCarry && flag .c cc))
        (fun r m cc => ccAdd8 r m (withCarry && flag .c cc) cc) src st) := by
  cases acc <;> cases withCarry <;> rfl

/-- Settles O27: all four are `alu8` with `add8`, whose sum and flags are read over the integers. -/
theorem addBytes : Obligations.AddBytes := by
  intro acc withCarry src st a m c
  refine ⟨_, exec_addByte acc withCarry src st, ?_, ?_, alu8_reads ..⟩
  · rw [alu8_val]
    exact add8_toNat ..
  · rw [alu8_val]
    exact flagsAfter_ccAdd8 (alu8_cc ..)

/-! ## Subtraction (R231) -/

/-- The flags of `sub8` over the integers. -/
theorem flagsAfter_ccSub8 {a m : Byte} {c : Bool} {st t : State} (h : t.cc = ccSub8 a m c st.cc) :
    FlagsAfter st t none (some (sub8 a m c).msb) (some (decide (sub8 a m c = 0)))
      (some (decide (a.toInt - m.toInt - bitValue c < -128 ∨ 127 < a.toInt - m.toInt - bitValue c)))
      (some (decide (a.toNat < m.toNat + bitValue c))) := by
  rw [← sub8_overflow]
  simp [FlagsAfter, State.flag, h, ccSub8, ccNz8, Bool.beq_eq_decide_eq]

/-- The four subtractions are one, whose borrow in is the old carry or none. -/
theorem exec_subtractByte (acc : Acc) (withCarry : Bool) (src : Src8) (st : State) :
    exec (if withCarry then acc.pick (.sbca src) (.sbcb src) else acc.pick (.suba src) (.subb src)) st =
      .next (alu8 acc.val (State.setReg8 acc.reg8) (fun r m cc => sub8 r m (withCarry && flag .c cc))
        (fun r m cc => ccSub8 r m (withCarry && flag .c cc) cc) src st) := by
  cases acc <;> cases withCarry <;> rfl

/-- Settles O28: all four are `alu8` with `sub8`, whose difference and flags are read over the integers. -/
theorem subtractBytes : Obligations.SubtractBytes := by
  intro acc withCarry src st a m c
  refine ⟨_, exec_subtractByte acc withCarry src st, ?_, ?_, alu8_reads ..⟩
  · rw [alu8_val]
    exact sub8_toNat ..
  · rw [alu8_val]
    exact flagsAfter_ccSub8 (alu8_cc ..)

/-! ## Comparison (R247, R248) -/

theorem exec_compareByte (acc : Acc) (src : Src8) (st : State) :
    exec (acc.pick (.cmpa src) (.cmpb src)) st = .next (test8 acc.val (fun r m cc => ccSub8 r m false cc) src st) := by
  cases acc <;> rfl

theorem sub8_msb (a m : Byte) : (sub8 a m false).msb = decide (128 ≤ (a.toNat + 256 - m.toNat) % 256) := by
  have hm := m.isLt
  have hmod : (a.toNat + 512 - m.toNat - 0) % 256 = (a.toNat + 256 - m.toNat) % 256 := by omega
  rw [msb8, sub8_toNat]
  exact congrArg (fun k => decide (128 ≤ k)) hmod

theorem sub8_eq_zero_iff (a m : Byte) : sub8 a m false = 0#8 ↔ a = m := by
  simp [sub8, bitValue, BitVec.sub_eq_iff_eq_add]

/-- The flags of a comparison: Z says that the bytes are equal. -/
theorem flagsAfter_compareByte {a m : Byte} {st t : State} (h : t.cc = ccSub8 a m false st.cc) :
    FlagsAfter st t none (some (decide (128 ≤ (a.toNat + 256 - m.toNat) % 256))) (some (decide (a = m)))
      (some (decide (a.toInt - m.toInt < -128 ∨ 127 < a.toInt - m.toInt))) (some (decide (a.toNat < m.toNat))) := by
  simpa [sub8_msb, sub8_eq_zero_iff, bitValue] using flagsAfter_ccSub8 h

/-- Settles O29: both are `test8` with the flags of `sub8`. -/
theorem compareBytes : Obligations.CompareBytes := by
  intro acc src st a m
  exact ⟨_, exec_compareByte acc src st, flagsAfter_compareByte (test8_cc ..), test8_reads ..⟩

/-! ## A branch after a comparison (R360) -/

/-- N and V of a comparison differ exactly where the signed difference is negative. -/
theorem compare_sign (a m : Byte) : (decide (128 ≤ (a.toNat + 256 - m.toNat) % 256) ≠
    decide (a.toInt - m.toInt < -128 ∨ 127 < a.toInt - m.toInt)) ↔ a.toInt < m.toInt := by
  have ha := a.isLt
  have hm := m.isLt
  rw [ne_eq, decide_eq_decide, toInt8, toInt8]
  split <;> split <;> omega

section
variable {a m : Byte} {n z v c : Bool}

/-- Under C and Z of a comparison the unsigned conditions of R360 compare the bytes as numbers. -/
theorem taken_unsigned_of_compare (hz : z = decide (a = m)) (hc : c = decide (a.toNat < m.toNat)) :
    (Taken .hi n z v c ↔ m.toNat < a.toNat) ∧ (Taken .ls n z v c ↔ a.toNat ≤ m.toNat) ∧
      (Taken .cs n z v c ↔ a.toNat < m.toNat) ∧ (Taken .eq n z v c ↔ a = m) := by
  have heq : a = m ↔ a.toNat = m.toNat := BitVec.toNat_inj.symm
  refine ⟨?hi, ?ls, ?cs, ?eq⟩ <;> simp only [Taken, hz, hc, heq, decide_eq_true_eq, decide_eq_false_iff_not]
  case hi | ls => omega

/-- Under N, Z and V of a comparison the signed conditions of R360 compare the bytes as signed numbers. -/
theorem taken_signed_of_compare (hn : n = decide (128 ≤ (a.toNat + 256 - m.toNat) % 256)) (hz : z = decide (a = m))
    (hv : v = decide (a.toInt - m.toInt < -128 ∨ 127 < a.toInt - m.toInt)) :
    (Taken .ge n z v c ↔ m.toInt ≤ a.toInt) ∧ (Taken .lt n z v c ↔ a.toInt < m.toInt) ∧
      (Taken .gt n z v c ↔ m.toInt < a.toInt) ∧ (Taken .le n z v c ↔ a.toInt ≤ m.toInt) := by
  have hlt : n ≠ v ↔ a.toInt < m.toInt := by rw [hn, hv, compare_sign]
  have hge : n = v ↔ m.toInt ≤ a.toInt := by rw [← not_lt, ← hlt, not_ne_iff]
  have heq : a = m ↔ a.toInt = m.toInt := BitVec.toInt_inj.symm
  refine ⟨hge, hlt, ?gt, ?le⟩ <;> simp only [Taken, hlt, hge, hz, heq, decide_eq_true_eq, decide_eq_false_iff_not] <;> omega
end

/-- What a branch makes of PC, by the table of R360. -/
theorem branchTo_pc_of_iff {k : Cond} {target : Word} {st : State} {P : Prop} [Decidable P]
    (h : Taken k (st.flag .n) (st.flag .z) (st.flag .v) (st.flag .c) ↔ P) :
    (branchTo k target st).pc = if P then target else st.pc := by
  simp only [branchTo_pc, holds_iff_taken, h]

/-- Settles O48: C and Z of the comparison decide the unsigned conditions, N, Z and V the signed ones. -/
theorem compareThenBranch : Obligations.CompareThenBranch := by
  intro acc src st k o a m
  obtain ⟨t, ht, ⟨-, hn, hz, hv, hc, -⟩, -⟩ := compareBytes acc src st
  obtain ⟨hi, ls, cs, eq⟩ := taken_unsigned_of_compare (n := t.flag .n) (v := t.flag .v) hz hc
  obtain ⟨ge, lt, gt, le⟩ := taken_signed_of_compare (c := t.flag .c) hn hz hv
  refine ⟨t, _, ht, exec_shortBranch k o t, ?hi, ?ls, ?cs, ?eq, ?ge, ?lt, ?gt, ?le⟩ <;> rintro rfl
  case hi => exact branchTo_pc_of_iff hi
  case ls => exact branchTo_pc_of_iff ls
  case cs => exact branchTo_pc_of_iff cs
  case eq => exact branchTo_pc_of_iff eq
  case ge => exact branchTo_pc_of_iff ge
  case lt => exact branchTo_pc_of_iff lt
  case gt => exact branchTo_pc_of_iff gt
  case le => exact branchTo_pc_of_iff le

end Sys2Proof.Machine
end

section
/-! Arithmetic on Words (spec/42_arithmetic.md rules R232, R233, R241, R246, R249 to R253). -/

namespace Sys2Proof.Machine

/-! ## Addition and subtraction on D (R241, R246) -/

section
variable (f : Word → Word → Word) (fl : Word → Word → Byte → Byte) (src : Src16) (st : State)

theorem aluD_d : (aluD f fl src st).d = f st.d (operand16 src st).1 := by
  simp [aluD, State.d]

theorem aluD_cc : (aluD f fl src st).cc = fl st.d (operand16 src st).1 st.cc := by simp [aluD]

theorem aluD_reads : Reads16 src [.a, .b, .cc] st (aluD f fl src st) :=
  reads16_of ((setReg16_keeps .d _ _).trans (setCc_keeps _ _)) rfl
end

/-- The flags of `add16` over the integers. -/
theorem flagsAfter_ccAdd16 {a m : Word} {st t : State} (h : t.cc = ccAdd16 a m st.cc) :
    FlagsAfter st t none (some (add16 a m).msb) (some (decide (add16 a m = 0)))
      (some (decide (a.toInt + m.toInt < -32768 ∨ 32767 < a.toInt + m.toInt)))
      (some (decide (65535 < a.toNat + m.toNat))) := by
  rw [← add16_overflow]
  simp [FlagsAfter, State.flag, h, ccAdd16, ccNz16, Bool.beq_eq_decide_eq]

/-- The flags of `sub16` over the integers. -/
theorem flagsAfter_ccSub16 {a m : Word} {st t : State} (h : t.cc = ccSub16 a m st.cc) :
    FlagsAfter st t none (some (sub16 a m).msb) (some (decide (sub16 a m = 0)))
      (some (decide (a.toInt - m.toInt < -32768 ∨ 32767 < a.toInt - m.toInt)))
      (some (decide (a.toNat < m.toNat))) := by
  rw [← sub16_overflow]
  simp [FlagsAfter, State.flag, h, ccSub16, ccNz16, Bool.beq_eq_decide_eq]

/-- Settles O30: both are `aluD`, with `add16` and with `sub16`. -/
theorem addSubtractWord : Obligations.AddSubtractWord := by
  intro src st d m
  refine ⟨⟨_, rfl, ?_, ?_, aluD_reads ..⟩, ⟨_, rfl, ?_, ?_, aluD_reads ..⟩⟩ <;> rw [aluD_d]
  · exact add16_toNat d m
  · exact flagsAfter_ccAdd16 (aluD_cc ..)
  · exact sub16_toNat d m
  · exact flagsAfter_ccSub16 (aluD_cc ..)

/-! ## Comparison (R249 to R253) -/

theorem exec_compareWord (r : WordReg) (src : Src16) (st : State) :
    exec (r.compare src) st = .next (compare16 r.val src st) := by cases r <;> rfl

theorem sub16_eq_zero_iff (a m : Word) : sub16 a m = 0#16 ↔ a = m := by
  simp [sub16, BitVec.sub_eq_iff_eq_add]

theorem compare16_cc (get : State → Word) (src : Src16) (st : State) :
    (compare16 get src st).cc = ccSub16 (get (operand16 src st).2) (operand16 src st).1 st.cc :=
  congrArg (ccSub16 _ _) (operand16_cc src st)

/-- Settles O31: all five are `compare16` of a register as the resolution of the operand leaves it. -/
theorem compareWords : Obligations.CompareWords := by
  intro r src st a m
  refine ⟨_, exec_compareWord r src st, ?_, reads16_of (setCc_keeps _ _) rfl⟩
  simpa [msb16, sub16_toNat, sub16_eq_zero_iff] using flagsAfter_ccSub16 (compare16_cc r.val src st)

end Sys2Proof.Machine
end

section
/-! The one-operand operations on an accumulator and on memory (spec/42_arithmetic.md rules R254 to R262, spec/43_logic_shift.md rules
R291 to R296, R300 to R314). -/

namespace Sys2Proof.Machine

/-- The byte a one-operand operation leaves, from the operand and the condition codes before. -/
def OneOp.value (op : OneOp) (m cc : Byte) : Byte :=
  match op with
  | .neg => negValue m
  | .inc => incValue m
  | .dec => decValue m
  | .com => comValue m
  | .clr => 0
  | .asl => aslValue m
  | .asr => asrValue m
  | .lsr => lsrValue m
  | .rol => rolValue m cc
  | .ror => rorValue m cc

/-- That byte over the integers. -/
theorem OneOp.value_toNat (op : OneOp) (m cc : Byte) : (op.value m cc).toNat = op.result m.toNat (flag .c cc) := by
  cases op with
  | neg => exact negValue_toNat ..
  | inc => exact incValue_toNat ..
  | dec => exact decValue_toNat ..
  | com => exact comValue_toNat ..
  | clr => rfl
  | asl => exact aslValue_toNat ..
  | asr => exact asrValue_toNat ..
  | lsr => exact lsrValue_toNat ..
  | rol => exact rolValue_toNat ..
  | ror => exact rorValue_toNat ..

/-! ## On an accumulator -/

theorem exec_onAcc (op : OneOp) (acc : Acc) (st : State) :
    exec (op.onAcc acc) st = .next (modifyReg acc.val (State.setReg8 acc.reg8) op.value op.condition st) := by
  cases op <;> cases acc <;> rfl

theorem modifyReg_val (acc : Acc) (f fl : Byte → Byte → Byte) (st : State) :
    acc.val (modifyReg acc.val (State.setReg8 acc.reg8) f fl st) = f (acc.val st) st.cc := by simp [modifyReg]

/-- What each of the ten operations does to an accumulator. -/
theorem onAcc_effect (op : OneOp) (acc : Acc) (st : State) :
    ∃ t, exec (op.onAcc acc) st = .next t ∧ (acc.val t).toNat = op.result (acc.val st).toNat (st.flag .c) ∧
      op.Flags (acc.val st).toNat st t ∧ KeepsExcept [acc.part, .cc] st t ∧ SameBytes st t := by
  refine ⟨_, exec_onAcc op acc st, ?_, op.flags_of_condition _ _ _ rfl, ?_, .of_mem (setReg8_mem ..)⟩
  · rw [modifyReg_val]
    exact op.value_toNat (acc.val st) st.cc
  · rw [acc.part_eq]
    exact (setReg8_keeps _ _ _).trans (setCc_keeps _ _)

/-- Settles O32: five of the ten operations. -/
theorem oneOperandOnAccumulator : Obligations.OneOperandOnAccumulator := fun op acc st _ => onAcc_effect op acc st

/-! ## On memory -/

theorem exec_onMem (op : OneOp) (dst : MemOp) (st : State) :
    exec (op.onMem dst) st = .next (modifyMem op.value op.condition dst st) := by
  cases op <;> rfl

/-- A read-modify-write is one byte write at the operand's address, then CC; both come from the byte and the CC before. -/
theorem modifyMem_eq (f fl : Byte → Byte → Byte) (dst : MemOp) (st : State) :
    modifyMem f fl dst st = (memWrite8 (ea dst st).1 (f (memRead8 (ea dst st).1 st) st.cc) (ea dst st).2).setCc
      (fl (memRead8 (ea dst st).1 st) st.cc) := by
  simp [modifyMem]

/-- What each of the ten operations does to memory. -/
theorem onMem_effect (op : OneOp) (dst : MemOp) (st : State) :
    ∃ (t : State) (v : Byte), exec (op.onMem dst) st = .next t ∧
      v.toNat = op.result (memRead8 (ea dst st).1 st).toNat (st.flag .c) ∧
      op.Flags (memRead8 (ea dst st).1 st).toNat st t ∧ StoresByte dst v st t :=
  ⟨_, _, (exec_onMem op dst st).trans (congrArg _ (modifyMem_eq ..)), op.value_toNat _ st.cc,
    op.flags_of_condition _ _ _ rfl, storesByte_of (setCc_keeps _ _) rfl⟩

/-- Settles O33: five of the ten operations. -/
theorem oneOperandOnMemory : Obligations.OneOperandOnMemory := fun op dst st _ => onMem_effect op dst st

end Sys2Proof.Machine
end

section
/-! Decimal adjust, multiply, ABX and sign extension (spec/42_arithmetic.md rules R263 to R266). -/

namespace Sys2Proof.Machine

/-! ## DAA (R264) -/

theorem daaValue_toNat (a cc : Byte) : (daaValue a cc).toNat = (a.toNat + daaCorrection a cc) % 256 := by simp [daaValue]

/-- N and Z from the adjusted byte, C set by the carry and never cleared, V as given. -/
theorem flagsAfter_ccDaa {v : Bool} {a : Byte} {st t : State} (h : t.cc = ccDaa v a st.cc) :
    FlagsAfter st t none (some (daaValue a st.cc).msb) (some (decide (daaValue a st.cc = 0))) (some v)
      (some (st.flag .c || decide (255 < a.toNat + daaCorrection a st.cc))) := by
  simp [FlagsAfter, State.flag, h, ccDaa, ccNz8, Bool.beq_eq_decide_eq]

theorem withFreeIndex_keeps (n : Nat) (st : State) : KeepsExcept [.freeIndex] st { st with freeIndex := n } := by
  intro p hp
  cases p with
  | freeIndex => simp at hp
  | _ => rfl

/-- Settles O37: A and CC are written, then the counter of the free values moves. -/
theorem decimalAdjust : Obligations.DecimalAdjust := by
  intro st lsn msn cf
  refine ⟨_, rfl, daaValue_toNat st.a st.cc, flagsAfter_ccDaa rfl, ?_, .of_mem rfl⟩
  exact ((setReg8_keeps .a _ _).trans (setCc_keeps _ _)).trans (withFreeIndex_keeps _ _)

/-! ## Decimal addition -/

theorem packedDecimal_toNat {n : Nat} (h : n < 100) : (packedDecimal n).toNat = 16 * (n / 10) + n % 10 := by
  rw [packedDecimal, BitVec.toNat_ofNat]
  omega

/-- A byte sum corrected: where the whole sum is `256 * j + r`, the byte holds `r` and `j` is the carry of the two additions. -/
theorem carry_of_corrected_sum {sum cf j r : Nat} (h : sum + cf = 256 * j + r) (hj : j ≤ 1) (hr : r < 256) (hcf : cf < 256) :
    (sum % 256 + cf) % 256 = r ∧ ((255 < sum ∨ 255 < sum % 256 + cf) ↔ 1 ≤ j) := by omega

section
variable {tens ones s : Nat} (ht : tens ≤ 18) (ho : ones ≤ 19) (hs : s = (16 * tens + ones) % 256)
include ho hs

/-- The low digit of a binary sum of packed decimal numbers is corrected where the sum of the ones has two digits. -/
theorem low_correction_iff : (15 < ones ∨ 9 < s % 16) ↔ 10 ≤ ones := by omega

include ht

/-- Its high digit is corrected where the decimal sum has three. -/
theorem high_correction_iff : (255 < 16 * tens + ones ∨ 9 < s / 16 ∨ (8 < s / 16 ∧ 9 < s % 16)) ↔
    100 ≤ 10 * tens + ones := by
  omega

/-- The sum corrected holds the decimal digits, and the hundred is the carry (R264). -/
theorem correction_is_decimal {cf : Nat} (hcf : cf = (if 15 < ones ∨ 9 < s % 16 then 6 else 0) +
      if 255 < 16 * tens + ones ∨ 9 < s / 16 ∨ (8 < s / 16 ∧ 9 < s % 16) then 96 else 0) :
    (s + cf) % 256 = 16 * ((10 * tens + ones) % 100 / 10) + (10 * tens + ones) % 100 % 10 ∧
      ((255 < 16 * tens + ones ∨ 255 < s + cf) ↔ 100 ≤ 10 * tens + ones) := by
  have hsix : (if 10 ≤ ones then 6 else 0) = 6 * (ones / 10) := by split <;> omega
  have hninetySix : (if 100 ≤ 10 * tens + ones then 96 else 0) = 96 * ((10 * tens + ones) / 100) := by split <;> omega
  simp only [low_correction_iff ho hs, high_correction_iff ht ho hs, hsix, hninetySix] at hcf
  have hdigits : 16 * tens + ones + cf = 256 * ((10 * tens + ones) / 100) +
      (16 * ((10 * tens + ones) % 100 / 10) + (10 * tens + ones) % 100 % 10) := by omega
  rw [hs]
  obtain ⟨hvalue, hcarry⟩ := carry_of_corrected_sum hdigits (by omega) (by omega) (by omega)
  exact ⟨hvalue, hcarry.trans (by omega)⟩
end

/-- Settles O38: the addition leaves the binary sum of the digits with its H and C, and DAA corrects it by them. -/
theorem decimalAddition : Obligations.DecimalAddition := by
  intro p q st hp hq ha
  obtain ⟨t, ht, hta, ⟨hh, -, -, -, hc, -⟩, -⟩ := addBytes .a true (.imm (packedDecimal q)) st
  obtain ⟨u, hu, hua, ⟨-, -, -, -, huc, -⟩, -⟩ := decimalAdjust t
  refine ⟨t, u, ht, hu, ?_⟩
  have hval : Acc.a.val st = packedDecimal p := ha
  simp only [operand8, Bool.true_and, hval, packedDecimal_toNat hp, packedDecimal_toNat hq, Option.getD_some] at hta hh hc
  have hbit := bitValue_le (st.flag .c)
  generalize bitValue (st.flag .c) = c at *
  obtain ⟨tens, htens⟩ : ∃ tens, tens = p / 10 + q / 10 := ⟨_, rfl⟩
  obtain ⟨ones, hones⟩ : ∃ ones, ones = p % 10 + q % 10 + c := ⟨_, rfl⟩
  have hsum : p + q + c = 10 * tens + ones := by omega
  have hs : t.a.toNat = (16 * tens + ones) % 256 := hta.trans (by omega)
  have hhalf : t.flag .h = true ↔ 15 < ones := by
    rw [hh, decide_eq_true_eq]
    omega
  have hcarry : t.flag .c = true ↔ 255 < 16 * tens + ones := by
    rw [hc, decide_eq_true_eq]
    omega
  simp only [hhalf, hcarry] at hua huc
  obtain ⟨hdigits, hhundred⟩ := correction_is_decimal (by omega) (by omega) hs rfl
  rw [hsum]
  refine ⟨BitVec.eq_of_toNat_eq ?_, ?_⟩
  · rw [packedDecimal_toNat (Nat.mod_lt _ (by decide)), hua, hdigits]
  · rw [huc, Option.getD_some, Bool.eq_iff_iff, Bool.or_eq_true, hcarry, decide_eq_true_eq, hhundred, decide_eq_true_eq]

/-! ## MUL, ABX, SEX (R263, R265, R266) -/

theorem mulValue_toNat (a b : Byte) : (mulValue a b).toNat = a.toNat * b.toNat := by
  have hlt : a.toNat * b.toNat < 65536 := Nat.mul_lt_mul'' a.isLt b.isLt
  simpa [mulValue] using hlt

/-- Z and C of MUL over the integers. -/
theorem flagsAfter_ccMul {p : Word} {st t : State} (h : t.cc = ccMul p st.cc) :
    FlagsAfter st t none none (some (decide (p.toNat = 0))) none (some (decide (p.toNat / 128 % 2 = 1))) := by
  have hz : (p == 0) = decide (p.toNat = 0) := by simp [beq_decide, ← BitVec.toNat_inj]
  have hc : p.getLsbD 7 = decide (p.toNat / 128 % 2 = 1) := Nat.testBit_eq_decide_div_mod_eq
  rw [← hz, ← hc]
  simp [FlagsAfter, State.flag, h, ccMul]

theorem add_zeroExtend_toNat (x : Word) (b : Byte) : (x + b.zeroExtend 16).toNat = (x.toNat + b.toNat) % 65536 := by simp

/-- SEX leaves in D the sign extension of B. -/
theorem joinBytes_sexValue (b : Byte) : joinBytes (sexValue b) b = b.signExtend 16 := by revert b; decide

theorem joinBytes_sexValue_toInt (b : Byte) : (joinBytes (sexValue b) b).toInt = b.toInt := by
  rw [joinBytes_sexValue, BitVec.toInt_signExtend_of_le (by decide)]

theorem joinBytes_sexValue_eq_zero_iff (b : Byte) : joinBytes (sexValue b) b = 0#16 ↔ b = 0#8 := by
  rw [← BitVec.toInt_inj, ← BitVec.toInt_inj, joinBytes_sexValue_toInt, BitVec.toInt_zero, BitVec.toInt_zero]

/-- N and Z of SEX say of B, read as a signed number, what they say of D. -/
theorem flagsAfter_sex {b : Byte} {st t : State} (h : t.cc = ccNz16 (joinBytes (sexValue b) b) st.cc) :
    FlagsAfter st t none (some (decide (b.toInt < 0))) (some (decide (b = 0))) none none := by
  rw [← joinBytes_sexValue_toInt, ← BitVec.msb_eq_toInt]
  simp [FlagsAfter, State.flag, h, ccNz16, beq_decide, joinBytes_sexValue_eq_zero_iff]

/-- Settles O39: each instruction writes its result, then CC; the product and the sign extension are read over the integers. -/
theorem multiplyAbxSex : Obligations.MultiplyAbxSex := by
  intro st
  refine ⟨⟨_, rfl, ?_, ?_, ?_, .of_mem rfl⟩, ⟨_, rfl, add_zeroExtend_toNat st.x st.b, setReg16_keeps .x _ _, .of_mem rfl⟩,
    ⟨_, rfl, ?_, ?_, (setReg8_keeps .a _ _).trans (setCc_keeps _ _), .of_mem rfl⟩⟩
  · rw [← mulValue_toNat]
    exact congrArg BitVec.toNat (joinBytes_hi_lo _)
  · rw [← mulValue_toNat]
    exact flagsAfter_ccMul rfl
  · exact (setReg16_keeps .d _ _).trans (setCc_keeps _ _)
  · exact joinBytes_sexValue_toInt st.b
  · exact flagsAfter_sex rfl

end Sys2Proof.Machine
end

section
/-! Logic on the accumulators, the condition-code masks, the tests, and the shifts and rotates (spec/43_logic_shift.md rules R281 to
R290, R297 to R314). -/

namespace Sys2Proof.Machine

/-! ## AND, OR, EOR, BIT on an accumulator (R281 to R288) -/

/-- The byte a logical operation makes of two bytes. -/
def LogicOp.value (op : LogicOp) (p q : Byte) : Byte :=
  match op with
  | .and => p &&& q
  | .or => p ||| q
  | .eor => p ^^^ q

/-- That byte bit by bit. -/
theorem LogicOp.value_getLsbD (op : LogicOp) (p q : Byte) (k : Nat) :
    (op.value p q).getLsbD k = op.bit (p.getLsbD k) (q.getLsbD k) := by
  cases op with
  | and => exact BitVec.getLsbD_and
  | or => exact BitVec.getLsbD_or
  | eor => exact BitVec.getLsbD_xor

theorem exec_logic (op : LogicOp) (acc : Acc) (src : Src8) (st : State) :
    exec (op.instr acc src) st = .next (alu8 acc.val (State.setReg8 acc.reg8) (fun r m _ => op.value r m)
      (fun r m cc => ccMove8 (op.value r m) cc) src st) := by
  cases op <;> cases acc <;> rfl

theorem exec_bitTest (acc : Acc) (src : Src8) (st : State) :
    exec (acc.pick (.bita src) (.bitb src)) st =
      .next (test8 acc.val (fun r m cc => ccMove8 (LogicOp.and.value r m) cc) src st) := by
  cases acc <;> rfl

/-- Settles O40: the six are `alu8` with the operation on bytes, BITA and BITB are `test8` with the flags of the AND. -/
theorem logicOnAccumulator : Obligations.LogicOnAccumulator := by
  intro acc src st m
  simp only [msb8]
  refine ⟨fun op => ⟨_, op.value (acc.val st) m, exec_logic op acc src st, fun k _ => op.value_getLsbD _ m k, alu8_val ..,
    flagsAfter_ccMove8 (alu8_cc ..), alu8_reads ..⟩, ?bitTest⟩
  case bitTest =>
    exact ⟨_, LogicOp.and.value (acc.val st) m, exec_bitTest acc src st, fun k _ => LogicOp.and.value_getLsbD _ m k,
      flagsAfter_ccMove8 (test8_cc ..), test8_reads ..⟩

/-! ## ANDCC and ORCC (R289, R290) -/

/-- Settles O41: CC alone is written, with the AND and the OR of all its bits. -/
theorem conditionCodeMasks : Obligations.ConditionCodeMasks := by
  intro mask st
  exact ⟨⟨_, rfl, fun k => flag_and k st.cc mask, setCc_keeps _ st, .of_mem rfl⟩,
    ⟨_, rfl, fun k => flag_or k st.cc mask, setCc_keeps _ st, .of_mem rfl⟩⟩

/-! ## Tests (R297 to R299) -/

theorem exec_testAcc (acc : Acc) (st : State) :
    exec (acc.pick .tsta .tstb) st = .next (st.setCc (ccMove8 (acc.val st) st.cc)) := by cases acc <;> rfl

/-- TST on memory is `test8` that looks at the operand alone. -/
theorem exec_testMem (get : State → Byte) (src : MemOp) (st : State) :
    exec (.tst src) st = .next (test8 get (fun _ m cc => ccMove8 m cc) (.mem src) st) := rfl

/-- Settles O36: N and Z come from the byte, and CC alone is written. -/
theorem testByte : Obligations.TestByte := by
  intro acc src st
  refine ⟨⟨_, exec_testAcc acc st, flagsAfter_ccMove8 rfl, setCc_keeps _ st, .of_mem rfl⟩,
    ⟨_, exec_testMem acc.val src st, ?_, test8_reads ..⟩⟩
  rw [← ea_memRead8 src st]
  exact flagsAfter_ccMove8 (test8_cc ..)

/-! ## Shifts and rotates (R300 to R314) -/

/-- Settles O34: the five operations that O32 leaves, by the same effect on an accumulator. -/
theorem shiftOnAccumulator : Obligations.ShiftOnAccumulator := fun op acc st _ => onAcc_effect op acc st

/-- Settles O35: the five operations that O33 leaves, by the same effect on memory. -/
theorem shiftOnMemory : Obligations.ShiftOnMemory := fun op dst st _ => onMem_effect op dst st

end Sys2Proof.Machine
end

section
/-! A pull after its push (spec/44_transfer_stack.md rules R347, R349, R353). The bytes of each bit of the mask lie above the new
stack pointer at the place where the pull's stage of that bit reads, so that every register takes back its own value. -/

namespace Sys2Proof.Machine

/-- The bytes a push stacks for one bit of the mask, from the lower address up (R347). -/
def registerBytes (r : StackReg) (st : State) : Nat → List Byte
  | 0 => [st.cc]
  | 1 => [st.a]
  | 2 => [st.b]
  | 3 => [st.dp]
  | 4 => wordBytes st.x
  | 5 => wordBytes st.y
  | 6 => wordBytes (st.sp r.other)
  | 7 => wordBytes st.pc
  | _ => []

/-- The bytes a push stacks for the lower bits of the mask. -/
def stackedBelow (r : StackReg) (mask : Byte) (st : State) : Nat → List Byte
  | 0 => []
  | k + 1 => stackedBelow r mask st k ++ if mask.getLsbD k then registerBytes r st k else []

section
variable (r : StackReg) (mask : Byte) (st : State)

theorem stackedBytes_eq_stackedBelow : stackedBytes r mask st = stackedBelow r mask st 8 := rfl

theorem registerBytes_length {k : Nat} (hk : k < 8) : (registerBytes r st k).length = if k < 4 then 1 else 2 := by
  match k with
  | 0 | 1 | 2 | 3 | 4 | 5 | 6 | 7 => rfl

theorem stackedBelow_length {k : Nat} (hk : k ≤ 8) : (stackedBelow r mask st k).length = bytesBelow mask k := by
  induction k with
  | zero => simp [stackedBelow, bytesBelow, maskBytes]
  | succ k ih =>
    rw [stackedBelow, List.length_append, ih (by omega), bytesBelow_succ mask hk]
    split
    · rw [registerBytes_length r st hk]
    · rfl

theorem stackedBelow_prefix {m n : Nat} (hmn : m ≤ n) : stackedBelow r mask st m <+: stackedBelow r mask st n := by
  induction n, hmn using Nat.le_induction with
  | base => exact List.prefix_rfl
  | succ n _ ih => exact ih.trans (List.prefix_append ..)

variable {r mask st}

/-- The bytes of a bit of the mask stand after those of the lower bits. -/
theorem getElem?_stackedBytes {k j : Nat} (hk : k < 8) (hbit : mask.getLsbD k = true) (hj : j < (registerBytes r st k).length) :
    (stackedBytes r mask st)[bytesBelow mask k + j]? = (registerBytes r st k)[j]? := by
  have hprefix : stackedBelow r mask st k ++ registerBytes r st k <+: stackedBytes r mask st := by
    have hnext := stackedBelow_prefix r mask st (Nat.succ_le_of_lt hk)
    rwa [← stackedBytes_eq_stackedBelow, stackedBelow, if_pos hbit] at hnext
  obtain ⟨upper, hupper⟩ := hprefix
  rw [← hupper, List.append_assoc, ← stackedBelow_length r mask st hk.le, List.getElem?_append_right (Nat.le_add_right ..),
    Nat.add_sub_cancel_left, List.getElem?_append_left hj]

theorem plainCell_of_plainBelow {n j : Nat} (h : PlainBelow r n st) (hj : j < n) :
    PlainCell (st.sp r - BitVec.ofNat 16 n + BitVec.ofNat 16 j) st := by
  have hcell := h (n - 1 - j) (by omega)
  have haddr : st.sp r - 1 - BitVec.ofNat 16 (n - 1 - j) = st.sp r - BitVec.ofNat 16 n + BitVec.ofNat 16 j := by bv_omega
  rwa [haddr] at hcell

variable {t : State}

/-- The cells a stage of a pull reads hold the bytes of its register. -/
theorem read_of_stacked (hplain : PlainBelow r (maskBytes mask) st) (hstacked : Stacked r (stackedBytes r mask st) st t)
    {k j : Nat} {v : Byte} (hk : k < 8) (hbit : mask.getLsbD k = true) (hv : (registerBytes r st k)[j]? = some v) :
    memRead8 (t.sp r + BitVec.ofNat 16 (bytesBelow mask k) + BitVec.ofNat 16 j) t = v := by
  obtain ⟨hsp, hread, -⟩ := hstacked
  obtain ⟨hj, -⟩ := List.getElem?_eq_some_iff.1 hv
  obtain ⟨hlt, hget⟩ := List.getElem?_eq_some_iff.1 ((getElem?_stackedBytes hk hbit hj).trans hv)
  rw [BitVec.add_assoc, ← BitVec.ofNat_add, hread _ hlt, hget]
  rw [hsp]
  rw [stackedBytes_length] at hlt ⊢
  exact plainCell_of_plainBelow hplain hlt

/-- A register takes back the byte of its bit, or keeps it where the mask does not name the bit. -/
theorem pulledByte_of_stacked (hplain : PlainBelow r (maskBytes mask) st) (hstacked : Stacked r (stackedBytes r mask st) st t)
    {k : Nat} {v old : Byte} (hk : k < 8) (hv : registerBytes r st k = [v]) (hold : old = v) :
    (if mask.getLsbD k then memRead8 (t.sp r + BitVec.ofNat 16 (bytesBelow mask k)) t else old) = v := by
  split
  · rename_i hbit
    simpa using read_of_stacked hplain hstacked (j := 0) hk hbit (by rw [hv]; rfl)
  · exact hold

theorem pulledWord_of_stacked (hplain : PlainBelow r (maskBytes mask) st) (hstacked : Stacked r (stackedBytes r mask st) st t)
    {k : Nat} {w old : Word} (hk : k < 8) (hw : registerBytes r st k = wordBytes w) (hold : old = w) :
    (if mask.getLsbD k then memRead16 (t.sp r + BitVec.ofNat 16 (bytesBelow mask k)) t else old) = w := by
  split
  · rename_i hbit
    have hhigh := read_of_stacked hplain hstacked (j := 0) (v := hiByte w) hk hbit (by rw [hw]; rfl)
    have hlow := read_of_stacked hplain hstacked (j := 1) (v := loByte w) hk hbit (by rw [hw]; rfl)
    rw [BitVec.add_zero] at hhigh
    rw [memRead16, hhigh]
    exact (congrArg _ hlow).trans (joinBytes_hi_lo w)
  · exact hold

/-- A pull of the registers that lie on the stack gives each its value back; a pull of S on the stack of U can arm NMI (R34). -/
theorem pullRegs_of_stacked (hplain : PlainBelow r (maskBytes mask) st) (hstacked : Stacked r (stackedBytes r mask st) st t)
    (hkeeps : KeepsExcept [spPart r] st t) : KeepsExcept [.nmiArmed] st (pullRegs r mask t) := by
  obtain ⟨u, hu, ⟨-, hcc, ha, hb, hdp, hx, hy, hother, hpc⟩, -, hukeeps, -⟩ := pullRegisters mask t r
  obtain rfl : u = pullRegs r mask t := by cases r <;> exact next_eq hu
  have hpushed (p : Part) (hp : p ∉ [.s, .u]) : Same p st t := hkeeps p (by cases r <;> simp_all [spPart])
  have hsp : (pullRegs r mask t).sp r = st.sp r := by
    rw [pullRegs_sp, hstacked.1, stackedBytes_length, sub_add_cancel]
  have hspOther : (pullRegs r mask t).sp r.other = st.sp r.other :=
    hother.trans (pulledWord_of_stacked hplain hstacked (k := 6) (by decide) rfl
      (sp_of_same (hkeeps _ (by cases r <;> decide))))
  intro p hp
  cases p with
  | cc => exact hcc.trans (pulledByte_of_stacked hplain hstacked (k := 0) (by decide) rfl (hpushed .cc (by decide)))
  | a => exact ha.trans (pulledByte_of_stacked hplain hstacked (k := 1) (by decide) rfl (hpushed .a (by decide)))
  | b => exact hb.trans (pulledByte_of_stacked hplain hstacked (k := 2) (by decide) rfl (hpushed .b (by decide)))
  | dp => exact hdp.trans (pulledByte_of_stacked hplain hstacked (k := 3) (by decide) rfl (hpushed .dp (by decide)))
  | x => exact hx.trans (pulledWord_of_stacked hplain hstacked (k := 4) (by decide) rfl (hpushed .x (by decide)))
  | y => exact hy.trans (pulledWord_of_stacked hplain hstacked (k := 5) (by decide) rfl (hpushed .y (by decide)))
  | pc => exact hpc.trans (pulledWord_of_stacked hplain hstacked (k := 7) (by decide) rfl (hpushed .pc (by decide)))
  | s => cases r with
    | s => exact hsp
    | u => exact hspOther
  | u => cases r with
    | s => exact hspOther
    | u => exact hsp
  | nmiArmed => exact absurd (List.mem_singleton_self _) hp
  | _ => exact (hpushed _ (by decide)).trans (hukeeps _ (by decide))

end

/-- Settles O46: the push stacks the registers, and the pull takes them back from where they lie. -/
theorem pullUndoesPush : Obligations.PullUndoesPush := by
  intro mask st r hplain
  obtain ⟨t, ht, hlen, hstacked, -, hkeeps⟩ := pushRegisters mask st r
  have hrestored := pullRegs_of_stacked hplain hstacked (hkeeps fun j hj => (hplain j hj).2)
  refine ⟨t, pullRegs r mask t, ht, by cases r <;> rfl, hrestored, fun b hb => ?_⟩
  obtain ⟨-, -, houtside⟩ := hstacked
  rw [SameBytes.of_mem (pullRegs_mem r mask t) b, houtside b (by rwa [hlen])]

end Sys2Proof.Machine
end

section
/-! Calls, jumps, the return, NOP and SYNC (spec/45_branch_jump.md rules R378 and R395 to R398; spec/46_system.md rules R410 and
R416). BSR, LBSR and JSR share one operation, so what a call does is said once for any target. -/

namespace Sys2Proof.Machine

theorem setPc_keeps (v : Word) (st : State) : KeepsExcept [.pc] st (st.setPc v) := setReg16_keeps .pc v st

/-! ## Calls (R378, R395, R397) -/

/-- The address a call stacks, as it lies from the new S upward (R24). -/
def returnBytes (st : State) : List Byte := [hiByte st.pc, loByte st.pc]

theorem callTo_eq (target : Word) (st : State) :
    callTo target st = (pushList .s (returnBytes st).reverse st).setPc target := rfl

theorem callTo_stacked (target : Word) (st : State) : Stacked .s (returnBytes st) st (callTo target st) :=
  stacked_pushList .s (returnBytes st) st (by simp [returnBytes])

theorem callTo_keeps (target : Word) (st : State) : KeepsExcept (.pc :: .s :: portParts) st (callTo target st) := by
  rw [callTo_eq]
  exact ((pushList_keeps .s _ st).trans (setPc_keeps target _)).mono (by simp [spPart, or_comm, or_left_comm])

/-- A call through cells that are not I/O leaves the handler port alone. -/
theorem callTo_keeps_plain (target : Word) {st : State} (hio : NoIoBelow .s 2 st) :
    KeepsExcept [.pc, .s] st (callTo target st) := by
  rw [callTo_eq]
  exact ((pushList_keeps_plain (l := (returnBytes st).reverse) hio).trans (setPc_keeps target _)).mono (by simp [spPart])

/-- Settles O49: each is `callTo` of its target; in JSR it runs in the state after the operand is resolved, where PC is as before. -/
theorem calls : Obligations.Calls := by
  intro st
  refine ⟨fun i k htarget => ?branchSubroutine, fun m => ?jumpSubroutine⟩
  case branchSubroutine =>
    have hexec : exec i st = .next (callTo k st) := by
      obtain ⟨o, rfl, rfl⟩ | ⟨o, rfl, rfl⟩ := htarget
      · rw [← add_signExtend]; rfl
      · rw [← BitVec.add_def]; rfl
    exact ⟨_, hexec, rfl, callTo_stacked k st, callTo_keeps k st, callTo_keeps_plain k⟩
  case jumpSubroutine =>
    have hkeeps := callTo_keeps (ea m st).1 (ea m st).2
    have hstacked := callTo_stacked (ea m st).1 (ea m st).2
    rw [returnBytes, ea_pc] at hstacked
    exact ⟨_, rfl, rfl, hstacked, hkeeps, (ea_keeps m st).trans hkeeps, callTo_keeps_plain _⟩

/-! ## Jump, return, NOP, SYNC (R396, R398, R410, R416) -/

theorem setExecState_keeps (v : ExecState) (st : State) : KeepsExcept [.execState] st (st.setExecState v) := by
  intro p hp
  cases p with
  | execState => exact absurd List.mem_cons_self hp
  | _ => rfl

/-- Settles O50: a write of PC after the operand is resolved, the pull stage of PC, no change, a write of the execution state. -/
theorem jumpReturnNopSync : Obligations.JumpReturnNopSync := by
  intro st
  refine ⟨fun m => ?jmp, ?rts, rfl, ?sync⟩
  case jmp =>
    have hkeeps := setPc_keeps (ea m st).1 (ea m st).2
    exact ⟨_, rfl, rfl, hkeeps, (ea_keeps m st).trans hkeeps, .of_mem (ea_mem m st)⟩
  case rts =>
    have hkeeps := (pullStage_keeps .s st 7).mono (m := [.pc, .s]) (by simp [spPart, pulledParts])
    exact ⟨pullStage .s 7 st, rfl, hiByte_joinBytes .., loByte_joinBytes .., BitVec.toNat_add .., hkeeps,
      .of_mem (pullStage_mem .s st 7)⟩
  case sync => exact ⟨_, rfl, rfl, setExecState_keeps .syncWait st, .of_mem rfl⟩

end Sys2Proof.Machine
end

section
/-! Software interrupts, CWAI and RTI (spec/46_system.md rules R411 to R415, R426 to R431). The three traps are one entry, and the entry
and CWAI stack their frame alike, so both are said once; RTI is a pull of S whose mask is chosen by the E it finds on the stack. -/

namespace Sys2Proof.Machine

/-! ## The frame, with the CC written just before it is stacked (R427, R430) -/

theorem frameBytes_length (entire : Bool) (cc : Byte) (st : State) :
    (frameBytes entire cc st).length = if entire then 12 else 3 := by cases entire <;> rfl

theorem stackFrame_setCc_eq (entire : Bool) (cc : Byte) (st : State) :
    stackFrame entire (st.setCc cc) = pushList .s (frameBytes entire cc st).reverse (st.setCc cc) :=
  stackFrame_eq entire (st.setCc cc)

theorem stackFrame_cc (entire : Bool) (st : State) : (stackFrame entire st).cc = st.cc := by rw [stackFrame_eq, pushList_cc]

theorem stackFrame_params (entire : Bool) (st : State) : (stackFrame entire st).params = st.params := by
  rw [stackFrame_eq, pushList_params]

theorem stackFrame_stacked (entire : Bool) (cc : Byte) (st : State) :
    Stacked .s (frameBytes entire cc st) st (stackFrame entire (st.setCc cc)) := by
  have hlen : (frameBytes entire cc st).length ≤ 65536 := by cases entire <;> simp [frameBytes_length]
  rw [stackFrame_setCc_eq]
  exact stacked_pushList .s (frameBytes entire cc st) (st.setCc cc) hlen

theorem stackFrame_keeps (entire : Bool) (cc : Byte) (st : State) :
    KeepsExcept (.cc :: .s :: portParts) st (stackFrame entire (st.setCc cc)) := by
  rw [stackFrame_setCc_eq]
  exact (setCc_keeps cc st).trans (pushList_keeps .s _ _)

/-- A frame in cells that are not I/O leaves the handler port alone. -/
theorem stackFrame_keeps_plain {entire : Bool} (cc : Byte) {st : State} (hio : NoIoBelow .s (if entire then 12 else 3) st) :
    KeepsExcept [.cc, .s] st (stackFrame entire (st.setCc cc)) := by
  have hio' : NoIoBelow .s (frameBytes entire cc st).reverse.length (st.setCc cc) := by
    rwa [List.length_reverse, frameBytes_length]
  rw [stackFrame_setCc_eq]
  exact (setCc_keeps cc st).trans (pushList_keeps_plain hio')

/-- What lies on a stack stays there while the pointer and memory stay. -/
theorem Stacked.of_eq {r : StackReg} {l : List Byte} {st t u : State} (h : Stacked r l st t) (hsp : u.sp r = t.sp r)
    (hmem : u.mem = t.mem) : Stacked r l st u := by
  obtain ⟨hpointer, hbytes, hother⟩ := h
  have hread (a : Word) : memRead8 a u = memRead8 a t := SameBytes.of_mem hmem a
  refine ⟨hsp.trans hpointer, fun j hj hplain => ?_, fun a ha => ?_⟩
  · rw [hsp] at hplain ⊢
    rw [hread, hbytes j hj hplain]
  · rw [hsp] at ha
    rw [hread, hother a ha]

/-! ## The entry (R411 to R413, R431) -/

theorem vectorTo_keeps (k : EntryKind) (st : State) : KeepsExcept [.cc, .pc] st (vectorTo k st) :=
  (setCc_keeps (k.masks st.cc) st).trans (setPc_keeps _ _)

theorem takeInterrupt_flag (k : EntryKind) (st : State) (j : Flag) : (takeInterrupt k st).flag j =
    if j = .e then k.entire else if j = .i then (k.setsI || st.flag .i) else if j = .f then (k.setsF || st.flag .f)
      else st.flag j := by
  have hcc : (takeInterrupt k st).cc = k.masks (ccWithE k.entire st.cc) := congrArg k.masks (stackFrame_cc ..)
  rw [State.flag, hcc, flag_masks]
  cases j <;> simp [State.flag]

theorem takeInterrupt_pc (k : EntryKind) (st : State) :
    (takeInterrupt k st).pc = memRead16 (k.vector st.params) (takeInterrupt k st) :=
  congrArg (fun params => memRead16 (k.vector params) (takeInterrupt k st)) (stackFrame_params ..)

/-- Every interrupt or trap is entered as its row of R431 says. -/
theorem takeInterrupt_entered (k : EntryKind) (st : State) :
    Entered k.entire k.setsI k.setsF (k.vector st.params) st (takeInterrupt k st) := by
  let cc := ccWithE k.entire st.cc
  have hvector := vectorTo_keeps k (stackFrame k.entire (st.setCc cc))
  refine ⟨⟨cc, fun j => flag_ccWithE j k.entire st.cc, (stackFrame_stacked k.entire cc st).of_eq rfl rfl⟩,
    takeInterrupt_flag k st, takeInterrupt_pc k st, ?frame, fun hio => ?plain⟩
  case frame => exact ((stackFrame_keeps k.entire cc st).trans hvector).mono (by decide)
  case plain => exact ((stackFrame_keeps_plain cc hio).trans hvector).mono (by decide)

/-- Settles O51: the entries of the three traps, whose vectors are no parameters. -/
theorem softwareInterrupts : Obligations.SoftwareInterrupts := fun st =>
  ⟨⟨_, rfl, takeInterrupt_entered .swi st⟩, ⟨_, rfl, takeInterrupt_entered .swi2 st⟩, ⟨_, rfl, takeInterrupt_entered .swi3 st⟩⟩

/-! ## CWAI (R415) -/

theorem flag_cwai (k : Flag) (mask cc : Byte) :
    flag k (ccWithE true (cc &&& mask)) = (decide (k = .e) || (flag k cc && flag k mask)) := by
  rw [flag_ccWithE, flag_and]
  split <;> simp [*]

theorem exec_cwai (mask : Byte) (st : State) : exec (.cwai mask) st =
    .next ((stackFrame true (st.setCc (ccWithE true (st.cc &&& mask)))).setExecState .cwaiWait) := rfl

/-- Settles O52: the frame of an entry with the masked CC, then the wait. -/
theorem cwaiStacksAndWaits : Obligations.CwaiStacksAndWaits := by
  intro mask st
  have hflag (k : Flag) := flag_cwai k mask st.cc
  rw [exec_cwai]
  generalize ccWithE true (st.cc &&& mask) = cc at hflag ⊢
  have hcc : (stackFrame true (st.setCc cc)).cc = cc := stackFrame_cc true (st.setCc cc)
  have hstacked := stackFrame_stacked true cc st
  have hkeeps := stackFrame_keeps true cc st
  have hplain (hio : NoIoBelow .s 12 st) := stackFrame_keeps_plain (entire := true) cc hio
  generalize stackFrame true (st.setCc cc) = u at *
  subst hcc
  have hwait := setExecState_keeps .cwaiWait u
  exact ⟨_, rfl, hflag, hstacked.of_eq rfl rfl, rfl, (hkeeps.trans hwait).mono (by decide), fun hio => (hplain hio).trans hwait⟩

/-! ## RTI (R414) -/

/-- What RTI pulls, as the mask of a pull: every register, or CC and PC. -/
def returnMask (entire : Bool) : Byte := if entire then 0xFF else 0x81

/-- RTI is a pull of S by the mask that the E on top of the stack chooses. -/
theorem returnFromInterrupt_eq (st : State) :
    returnFromInterrupt st = pullRegs .s (returnMask (flag .e (memRead8 st.s st))) st := by
  have hbit : (pullInto8 .s State.setCc st).cc.getLsbD 7 = flag .e (memRead8 st.s st) := rfl
  rw [returnFromInterrupt, hbit]
  cases flag .e (memRead8 st.s st) <;> simp [returnMask, pullRegs, onBit]

/-- A pull leaves every part that no stage of its mask writes. -/
theorem pullRegs_keeps_of_mask {r : StackReg} {mask : Byte} {l : List Part}
    (hl : ∀ j < 8, mask.getLsbD j = true → ∀ p ∈ spPart r :: pulledParts r j, p ∈ l) (st : State) :
    KeepsExcept l st (pullRegs r mask st) := fun p hp =>
  pullUpTo_same_of_mask r mask st (Nat.zero_le 8) fun j hj _ hbit hpj => hp (hl j hj hbit p hpj)

theorem exec_rti {st : State} {entire : Bool} (he : flag .e (memRead8 st.s st) = entire) :
    exec .rti st = .next (pullRegs .s (returnMask entire) st) := by
  rw [← he, ← returnFromInterrupt_eq]
  rfl

/-- Settles O53: the registers as a pull of either mask leaves them. -/
theorem rti_returnFromInterrupt : Obligations.ReturnFromInterrupt := by
  intro st
  cases he : flag .e (memRead8 st.s st) with
  | true =>
    obtain ⟨t, hpull, ⟨hs, hcc, ha, hb, hdp, hx, hy, hu, hpc⟩, -, -, hmem⟩ := pullRegisters 0xFF st .s
    have ht : t = pullRegs .s 0xFF st := next_eq hpull
    have hkeeps : KeepsExcept [.cc, .a, .b, .dp, .x, .y, .u, .s, .pc] st t := ht ▸ pullRegs_keeps_of_mask (by decide) st
    exact ⟨t, (exec_rti he).trans hpull, by simpa [maskBytes] using hcc, hmem,
      fun _ => ⟨ha, hb, hdp, hx, hy, hu, hpc, hs, hkeeps⟩, nofun⟩
  | false =>
    obtain ⟨t, hpull, ⟨hs, hcc, -, -, -, -, -, -, hpc⟩, -, -, hmem⟩ := pullRegisters 0x81 st .s
    have ht : t = pullRegs .s 0x81 st := next_eq hpull
    have hkeeps : KeepsExcept [.cc, .s, .pc] st t := ht ▸ pullRegs_keeps_of_mask (by decide) st
    exact ⟨t, (exec_rti he).trans hpull, by simpa [maskBytes] using hcc, hmem, nofun, fun _ => ⟨hpc, hs, hkeeps⟩⟩

end Sys2Proof.Machine
end

section
/-! The exceptions and the reset port (spec/60_exceptions.md, spec/70_reset_and_hazards.md): the interrupt check, the illegal encoding,
the wake from SYNC, reset and init, and RTI after an entry. -/

namespace Sys2Proof.Machine

/-! ## The interrupt check of RUNNING (R422, R425 to R432) -/

theorem step_of_acceptable {st : State} {k : EntryKind} (hrun : st.execState = .running) (h : acceptable st = some k) :
    step st = .next (interruptEntry k st) := by
  simp [step, hrun, h]

/-- Settles O8: what the check accepts, and the entry of that kind; the acknowledge of NMI comes before its entry. -/
theorem hardwareInterruptsTaken : Obligations.HardwareInterruptsTaken := by
  intro st hrun
  refine ⟨fun hn => ?nmi, fun hn hf hm => ?firq, fun hn hf hi hm => ?irq⟩
  case nmi =>
    exact ⟨_, step_of_acceptable hrun (acceptable_of_nmi hn), (evolves_interruptEntry .nmi st).nmiLatch,
      takeInterrupt_entered .nmi _⟩
  case firq =>
    rw [← firqVector_address]
    exact ⟨_, step_of_acceptable hrun (acceptable_of_firq hn hf hm), takeInterrupt_entered .firq st⟩
  case irq =>
    exact ⟨_, step_of_acceptable hrun (acceptable_of_irq hn hf hi hm), takeInterrupt_entered .irq st⟩

/-! ## The illegal encoding (R440) -/

theorem instructionStep_of_reject {st : State} {r : Reject} (h : decode (fetchStream st) = .error r) :
    instructionStep st = .fault (faultAt st.pc r) := by
  simp [instructionStep, h]

theorem tick_of_step_fault {st : State} {f : Fault} (hrun : st.execState = .running) (h : step st = .fault f) :
    tick st = (enterFault f st, some f) := by
  simp [tick, hrun, h]

theorem step_of_faulted {st : State} {f : Fault} (h : st.execState = .fault f) : step st = .fault f := by
  simp [step, h]

theorem tick_of_faulted {st : State} {f : Fault} (h : st.execState = .fault f) : tick st = (st, some f) := by
  simp [tick, h]

theorem hostWrite_execState (address : Int) (value : Byte) (st : State) :
    (hostWrite address value st).1.execState = st.execState := by
  unfold hostWrite
  split
  · exact memWrite8_execState ..
  · rfl

theorem defineRom_execState (start finish : Int) (st : State) : (defineRom start finish st).1.execState = st.execState := by
  unfold defineRom
  split <;> rfl

theorem defineIo_execState {start finish : Int} {handler : Config.Handler} {st : State} {r : State × Status}
    (h : defineIo start finish handler st = some r) : r.1.execState = st.execState := by
  unfold defineIo at h
  split at h
  · split at h
    · cases h; rfl
    · split at h
      · cases h; rfl
      · cases h
  · cases h; rfl

theorem load_execState {start length : Int} {buffer : List Byte} {st : State} {r : State × Status}
    (h : load start buffer length st = some r) : r.1.execState = st.execState := by
  unfold load at h
  split at h
  · split at h
    · cases h; exact loadImage_keeps _ _ st .execState (by decide)
    · cases h
  · cases h; rfl

/-- Of the operations of the ports only reset and init write the execution state (R471, R473). -/
theorem applyPort_execState {op : PortOp} {st t : State} (h : applyPort op st = some t) :
    t.execState = st.execState ∨ (∃ first, op = .reset first) ∨ ∃ addr, op = .init addr := by
  cases op with
  | reset first => exact .inr (.inl ⟨first, rfl⟩)
  | init addr => exact .inr (.inr ⟨addr, rfl⟩)
  | initializeMemory => cases h; exact .inl rfl
  | write address value => cases h; exact .inl (hostWrite_execState address value st)
  | defineRom start finish => cases h; exact .inl (defineRom_execState start finish st)
  | defineIo start finish handler =>
    obtain ⟨r, hr, rfl⟩ := Option.map_eq_some_iff.1 h
    exact .inl (defineIo_execState hr)
  | load start buffer length =>
    obtain ⟨r, hr, rfl⟩ := Option.map_eq_some_iff.1 h
    exact .inl (load_execState hr)
  | nmiTrigger => cases h; exact .inl (nmiTrigger_keeps st .execState (by decide))
  | firq level => cases h; exact .inl rfl
  | irq level => cases h; exact .inl rfl

/-- Settles O7: the reject of the decoder is the step's fault, and no port but reset and init leaves FAULT. -/
theorem illegalEncodingFaults : Obligations.IllegalEncodingFaults := by
  refine ⟨fun st r hrun hn hf hi hreject => ?illegal, fun st f hfault => ?faulted⟩
  case illegal =>
    have hstep : step st = .fault (faultAt st.pc r) :=
      (step_of_running hrun (acceptable_eq_none hn hf hi)).trans (instructionStep_of_reject hreject)
    exact ⟨faultAt st.pc r, by cases r <;> rfl, hstep, tick_of_step_fault hrun hstep⟩
  case faulted =>
    refine ⟨step_of_faulted hfault, tick_of_faulted hfault, fun op t h => ?_⟩
    rw [← hfault]
    exact applyPort_execState h

/-! ## The wake from SYNC (R436) -/

theorem step_of_syncWait {st : State} (h : st.execState = .syncWait) : step st = .next (syncWake st) := by
  simp [step, h]

/-- Settles O10: an input is active, or none is. -/
theorem syncWaitEnds : Obligations.SyncWaitEnds := by
  intro st hw
  rw [step_of_syncWait hw]
  refine ⟨fun hactive => congrArg _ (if_pos ?_), fun hn hf hi => congrArg _ (if_neg ?_)⟩
  · simpa [or_assoc] using hactive
  · simp [hn, hf, hi]

/-! ## Reset and init (R471 to R473) -/

theorem resetPort_keeps (isFirst : Bool) (st : State) :
    KeepsExcept [.cc, .dp, .nmiLatch, .nmiArmed, .execState] st (resetPort isFirst st) := by
  intro p hp
  cases p with
  | cc | dp | nmiLatch | nmiArmed | execState => simp at hp
  | _ => rfl

/-- The value 0x50 is I and F (R27). -/
theorem flag_0x50 (k : Flag) : flag k 0x50 = decide (k = .i ∨ k = .f) := by cases k <;> rfl

theorem resetPort_warm_flag (st : State) (k : Flag) :
    (resetPort false st).flag k = (decide (k = .i ∨ k = .f) || st.flag k) := by
  have hcc : (resetPort false st).cc = st.cc ||| 0x50 := rfl
  rw [State.flag, hcc, flag_or, flag_0x50, Bool.or_comm, State.flag]

theorem step_of_reset {st : State} (h : st.execState = .reset) : step st = .next (resetExit st) := by
  simp [step, h]

theorem resetExit_keeps (st : State) : KeepsExcept [.pc, .execState] st (resetExit st) :=
  (setPc_keeps _ st).trans (setExecState_keeps .running _)

/-- Settles O11: the reset port, then the exit, which reads the Word at the vector (R472). -/
theorem resetAndExit : Obligations.ResetAndExit := by
  refine ⟨fun first st => ?port, fun st hreset => ?exit⟩
  case port =>
    refine ⟨_, rfl, resetPort_keeps first st, rfl, rfl, rfl, rfl, rfl, ?_, ?_⟩
    · rintro rfl; rfl
    · rintro rfl; exact resetPort_warm_flag st
  case exit =>
    exact ⟨_, step_of_reset hreset, resetExit_keeps st, rfl, (hiByte_joinBytes ..).symm, (loByte_joinBytes ..).symm, rfl⟩

theorem init_keeps (runAddress : Word) (st : State) :
    KeepsExcept [.a, .b, .x, .y, .u, .s, .dp, .cc, .pc, .nmiLatch, .nmiArmed, .lastPc, .lastLen, .execState] st
      (init runAddress st) := by
  intro p hp
  cases p with
  | firqLine | irqLine | attrs | ioTable | params | ioCalls | freeIndex => rfl
  | _ => simp at hp

/-- Settles O12: the values `init` writes, and its frame. -/
theorem initClears : Obligations.InitClears := fun addr st =>
  ⟨init addr st, rfl, rfl, rfl, rfl, rfl, rfl, rfl, rfl, rfl, rfl, rfl, rfl, rfl, rfl, rfl, rfl, init_keeps addr st⟩

/-! ## RTI after an entry (R414, R426 to R433)

An entry stacks the registers that a push of the mask RTI chooses would stack, with E written first, so that the pull of RTI undoes
it as a pull undoes its push. -/

theorem maskBytes_returnMask (entire : Bool) : maskBytes (returnMask entire) = if entire then 12 else 3 := by
  cases entire <;> rfl

/-- A frame is what a push of the registers that RTI pulls would stack (R347, R430). -/
theorem frameBytes_eq_stackedBytes (entire : Bool) (st : State) :
    frameBytes entire st.cc st = stackedBytes .s (returnMask entire) st := by cases entire <;> rfl

theorem stackFrame_eq_pushRegs (entire : Bool) (st : State) : stackFrame entire st = pushRegs .s (returnMask entire) st := by
  rw [stackFrame_eq, pushRegs_eq, frameBytes_eq_stackedBytes]

/-- The pull of RTI takes CC from the top of the stack, whatever the E there chooses. -/
theorem pullRegs_returnMask_cc (entire : Bool) (st : State) :
    (pullRegs .s (returnMask entire) st).cc = memRead8 st.s st := by cases entire <;> rfl

/-- It writes CC and PC, so what they held before is lost. -/
theorem pullRegs_returnMask_overwrites (entire : Bool) (cc : Byte) (pc : Word) (st : State) :
    pullRegs .s (returnMask entire) ((st.setCc cc).setPc pc) = pullRegs .s (returnMask entire) st := by
  cases entire <;> simp [returnMask, pullRegs, onBit, pullInto8, pullInto16, pull8, pull16] <;> rfl

/-- RTI from a frame gives every register the value it had when the frame was stacked. -/
theorem pullRegs_stackFrame {entire : Bool} {st : State} (hplain : PlainBelow .s (if entire then 12 else 3) st) :
    KeepsExcept [] st (pullRegs .s (returnMask entire) (stackFrame entire st)) := by
  rw [← maskBytes_returnMask] at hplain
  obtain ⟨t, u, ht, hu, hrestored, -⟩ := pullUndoesPush (returnMask entire) st .s hplain
  obtain rfl : t = pushRegs .s (returnMask entire) st := next_eq ht
  obtain rfl : u = pullRegs .s (returnMask entire) (pushRegs .s (returnMask entire) st) := next_eq hu
  have harms := pullRegs_arms .s (returnMask entire) (stackFrame entire st)
  rw [← stackFrame_eq_pushRegs] at hrestored
  intro p _
  cases p with
  | nmiArmed => simpa [ArmedAfter, Same, stackFrame_eq] using harms
  | _ => exact hrestored _ (by decide)

/-- RTI on a frame, with any CC and PC written after the stacking. -/
theorem exec_rti_stackFrame {entire : Bool} {st : State} (hplain : PlainBelow .s (if entire then 12 else 3) st)
    (he : flag .e st.cc = entire) (cc : Byte) (pc : Word) : exec .rti (((stackFrame entire st).setCc cc).setPc pc) =
      .next (pullRegs .s (returnMask entire) (stackFrame entire st)) := by
  have htop : memRead8 (stackFrame entire st).s (stackFrame entire st) = st.cc :=
    (pullRegs_returnMask_cc ..).symm.trans (pullRegs_stackFrame hplain .cc List.not_mem_nil)
  rw [← pullRegs_returnMask_overwrites entire cc pc]
  exact exec_rti ((congrArg (flag .e) htop).trans he)

/-- Settles O54: the entry's masks and vector are overwritten by the pull, which takes back the registers with the E stacked. -/
theorem interruptRoundTrip : Obligations.InterruptRoundTrip := by
  intro k pc st hplain
  have hplain' : PlainBelow .s (if k.entire then 12 else 3) (st.setCc (ccWithE k.entire st.cc)) := by
    cases k <;> exact hplain
  have hflag (j : Flag) := flag_ccWithE j k.entire st.cc
  have hE : decide (k ≠ .firq) = k.entire := by cases k <;> rfl
  have hrestored := pullRegs_stackFrame hplain'
  refine ⟨_, exec_rti_stackFrame hplain' (hflag .e) _ pc, (setCc_keeps _ st).trans hrestored, fun j => ?_⟩
  rw [hE]
  exact (congrArg (flag j) (hrestored .cc List.not_mem_nil)).trans (hflag j)

end Sys2Proof.Machine
end
